-- ==== Sys2Proof/Word.lean ====
section
/-! DEFINITION. The words of the block: their widths and nothing else (10_state.md R21, R25, R30; 00_scope.md R5). -/

namespace Sys2Proof

/-- A command word, a scalar register, a host data word: 32 bits, unsigned (R5, R21). -/
abbrev Word := BitVec 32

/-- A byte of BUF, of an XOF message or of an XOF stream: 8 bits (R5, R30). -/
abbrev Byte := BitVec 8

/-- The storage of one coefficient: COEFW = 12 bits (R4, R25). -/
abbrev Coeff := BitVec 12

/-- The number of a scalar register s0..s7 (R21, R92). -/
abbrev SReg := Fin 8

/-- The number of a polynomial register p0..p7 (R25, R92). -/
abbrev PReg := Fin 8

/-- A polynomial: 256 coefficients of 12 bits, index 0 first (R8, R25). -/
abbrev Poly := Vector Coeff 256

end Sys2Proof
end

