-- ==== Sys2Proof/Config.lean ====
section
/-! DEFINITION. What an implementation fixes: the parameters of 00_scope.md R4 that have a value, and the OPEN ones
as constants without a body, of which no proof can learn a value. -/

namespace Sys2Proof.Config

/-- The field modulus (R4, R120). -/
abbrev q : Nat := 3329

/-- The root of unity ζ of order 256 modulo q (R4, R122). -/
abbrev zetaRoot : Nat := 17

/-- The scale of the inverse NTT, 128^-1 modulo q (R4, R219; 90_conflicts.md C1). -/
abbrev ninv : Nat := 3303

/-- The bytes of BUF (R4, R30). -/
abbrev bufLen : Nat := 384

/-- Operands of MRED are legal below q * 2^16, MONT_R = 2^16 (R4, R130, R138). -/
abbrev mredLimit : Nat := 218169344

/-- What the ID register reads as, ASCII "KPA1" (R35). -/
abbrev idValue : Word := 0x4B504131#32

/-- The OPEN parameter CMDQ_DEPTH less one: no value is fixed (R4, R31; 92_eei_decisions.md D27).
DESIGN CHOICE (log entry 1): writing the depth as a successor makes CMDQ_DEPTH ≥ 1 hold by form. -/
opaque cmdqDepthLessOne : Nat

/-- The capacity CMDQ_DEPTH ≥ 1 of the command queue (R31). -/
def cmdqDepth : Nat := cmdqDepthLessOne + 1

/-- The OPEN function SHAKE128: byte n of the output stream on a message (R4, R44; D7; log entry 2). -/
opaque shake128 : List Byte → Nat → Byte

/-- The OPEN function SHAKE256: byte n of the output stream on a message (R4, R44; D7; log entry 2). -/
opaque shake256 : List Byte → Nat → Byte

end Sys2Proof.Config
end

