-- ==== Sys2Proof/Syntax.lean ====
section
/-! DEFINITION. The thirty commands of 30_encoding.md R96, one constructor per row of the opcode table, operands in the
order of the assembler. -/

namespace Sys2Proof

/-- A command with its operands. Register numbers are 0..7 by type; the ranges of `addr`, `d` and `eta` that the fields'
bits do not give (R93) are checked by `Instr.wellFormed`. -/
inductive Instr where
  /-- R252 -/
  | nop
  /-- R253 -/
  | zeroize
  /-- R254 -/
  | bzero
  /-- R255 -/
  | sli (sd : SReg) (imm16 : BitVec 16)
  /-- R132 -/
  | smulw (sd sa sb : SReg)
  /-- R133 -/
  | fadd (sd sa sb : SReg)
  /-- R134 -/
  | fsub (sd sa sb : SReg)
  /-- R135 -/
  | fmul (sd sa sb : SReg)
  /-- R136 -/
  | csubq (sd sa : SReg)
  /-- R137 -/
  | bred (sd sa : SReg)
  /-- R138 -/
  | mred (sd sa : SReg)
  /-- R256 -/
  | cget (sd : SReg) (pa : PReg) (idx : BitVec 8)
  /-- R257 -/
  | cset (pd : PReg) (sa : SReg) (idx : BitVec 8)
  /-- R258 -/
  | ldb (sd : SReg) (addr : BitVec 9)
  /-- R259 -/
  | stb (sa : SReg) (addr : BitVec 9)
  /-- R210 -/
  | pmov (pd pa : PReg)
  /-- R211 -/
  | padd (pd pa pb : PReg)
  /-- R212 -/
  | psub (pd pa pb : PReg)
  /-- R216 -/
  | ntt (pd pa : PReg)
  /-- R220 -/
  | intt (pd pa : PReg)
  /-- R225 -/
  | pmul (pd pa pb : PReg)
  /-- R228 -/
  | pmac (pd pa pb : PReg)
  /-- R213 -/
  | pzero (pd : PReg)
  /-- R192 -/
  | samplentt (pd : PReg)
  /-- R196 -/
  | cbd (pd : PReg) (eta : BitVec 4)
  /-- R198 -/
  | prfcbd (pd : PReg) (eta : BitVec 4)
  /-- R164 -/
  | encode (pa : PReg) (d : BitVec 4)
  /-- R167 -/
  | decode (pd : PReg) (d : BitVec 4)
  /-- R173 -/
  | compress (pd pa : PReg) (d : BitVec 4)
  /-- R176 -/
  | decompress (pd pa : PReg) (d : BitVec 4)
deriving DecidableEq, Repr

end Sys2Proof
end

