-- ==== Sys2Proof/WellFormed.lean ====
section
/-! DEFINITION. Which commands exist: the ranges of 30_encoding.md R93 that an immediate's bits do not give by themselves.
A command that fails this check is an illegal word (R97). -/

namespace Sys2Proof

/-- LDB, STB: a buffer address is below 384 (R63, R93). -/
def addrLegal (addr : BitVec 9) : Bool := addr.toNat < Config.bufLen

/-- ENCODE, DECODE: 1 ≤ d ≤ 12 (R93, R161). -/
def codecWidthLegal (d : BitVec 4) : Bool := 1 ≤ d.toNat && d.toNat ≤ 12

/-- COMPRESS, DECOMPRESS: 1 ≤ d ≤ 11 (R93, R172). -/
def compressWidthLegal (d : BitVec 4) : Bool := 1 ≤ d.toNat && d.toNat ≤ 11

/-- CBD, PRFCBD: η is 2 or 3 (R93, R199). -/
def etaLegal (eta : BitVec 4) : Bool := eta.toNat == 2 || eta.toNat == 3

/-- The command is one that a legal word encodes (R95, R97). -/
def Instr.wellFormed : Instr → Bool
  | .nop => true
  | .zeroize => true
  | .bzero => true
  | .sli _ _ => true
  | .smulw _ _ _ => true
  | .fadd _ _ _ => true
  | .fsub _ _ _ => true
  | .fmul _ _ _ => true
  | .csubq _ _ => true
  | .bred _ _ => true
  | .mred _ _ => true
  | .cget _ _ _ => true
  | .cset _ _ _ => true
  | .ldb _ addr => addrLegal addr
  | .stb _ addr => addrLegal addr
  | .pmov _ _ => true
  | .padd _ _ _ => true
  | .psub _ _ _ => true
  | .ntt _ _ => true
  | .intt _ _ => true
  | .pmul _ _ _ => true
  | .pmac _ _ _ => true
  | .pzero _ => true
  | .samplentt _ => true
  | .cbd _ eta => etaLegal eta
  | .prfcbd _ eta => etaLegal eta
  | .encode _ d => codecWidthLegal d
  | .decode _ d => codecWidthLegal d
  | .compress _ _ d => compressWidthLegal d
  | .decompress _ _ d => compressWidthLegal d

end Sys2Proof
end

