-- ==== Sys2Proof/Decode.lean ====
section
/-! DEFINITION. The decoder of 30_encoding.md (R90 to R99), the encoder written from the same formats, and the opcode
table of R96 as rows of mask and match. A command word arrives as one 32-bit word through the CMD port, not as bytes. -/

namespace Sys2Proof

/-! ## Fields (R91) -/

/-- `op`, bits 31:24. -/
def opField (w : Word) : Nat := w.toNat / 2 ^ 24
/-- `rd`, bits 23:20. -/
def rdField (w : Word) : Nat := w.toNat / 2 ^ 20 % 16
/-- `ra`, bits 19:16. -/
def raField (w : Word) : Nat := w.toNat / 2 ^ 16 % 16
/-- `rb`, bits 15:12. -/
def rbField (w : Word) : Nat := w.toNat / 2 ^ 12 % 16
/-- `imm12`, bits 11:0. -/
def imm12Field (w : Word) : Nat := w.toNat % 2 ^ 12
/-- `imm16`, bits 15:0 (format I). -/
def imm16Field (w : Word) : Nat := w.toNat % 2 ^ 16

/-! ## Decoding -/

/-- Why a word selects no command (R97). All of them are ILLEGAL_COMMAND when the word is executed (R311). -/
inductive DecodeError where
  /-- The opcode byte is not listed in R96 (R94). -/
  | unlistedOpcode
  /-- A register field that the command uses is 8 to 15 (R92). -/
  | registerNumber
  /-- A field that the command does not use is not zero (R92, R95). -/
  | unusedField
  /-- A high bit of `imm12` above the command's immediate is not zero (R93). -/
  | unusedImmediateBits
  /-- The immediate is outside its range (R93). -/
  | immediateRange
deriving DecidableEq, Repr

/-- A register field in use names a register when it is below 8 (R92). -/
def regNumber (n : Nat) : Except DecodeError (Fin 8) :=
  if h : n < 8 then .ok ⟨n, h⟩ else .error .registerNumber

/-- A field not in use must be zero (R92). -/
def unused (n : Nat) : Except DecodeError Unit :=
  if n = 0 then .ok () else .error .unusedField

/-- The immediate in the low `k` bits of `imm12`; the bits above must be zero (R93). -/
def immBits (k n : Nat) : Except DecodeError (BitVec k) :=
  if n < 2 ^ k then .ok (BitVec.ofNat k n) else .error .unusedImmediateBits

/-- The command, if its immediate is in range (R93, R95). -/
def inRange (i : Instr) : Except DecodeError Instr :=
  if i.wellFormed then .ok i else .error .immediateRange

/-- No operands: every field below the opcode is zero. -/
def decodeNone (i : Instr) (w : Word) : Except DecodeError Instr := do
  unused (rdField w); unused (raField w); unused (rbField w); unused (imm12Field w)
  .ok i

/-- One register in `rd`. -/
def decodeD (mk : Fin 8 → Instr) (w : Word) : Except DecodeError Instr := do
  let d ← regNumber (rdField w)
  unused (raField w); unused (rbField w); unused (imm12Field w)
  .ok (mk d)

/-- Two registers in `rd` and `ra`. -/
def decodeDA (mk : Fin 8 → Fin 8 → Instr) (w : Word) : Except DecodeError Instr := do
  let d ← regNumber (rdField w)
  let a ← regNumber (raField w)
  unused (rbField w); unused (imm12Field w)
  .ok (mk d a)

/-- Three registers in `rd`, `ra` and `rb`. -/
def decodeDAB (mk : Fin 8 → Fin 8 → Fin 8 → Instr) (w : Word) : Except DecodeError Instr := do
  let d ← regNumber (rdField w)
  let a ← regNumber (raField w)
  let b ← regNumber (rbField w)
  unused (imm12Field w)
  .ok (mk d a b)

/-- One register in `rd` and an immediate of `k` bits. -/
def decodeDImm (k : Nat) (mk : Fin 8 → BitVec k → Instr) (w : Word) : Except DecodeError Instr := do
  let d ← regNumber (rdField w)
  unused (raField w); unused (rbField w)
  let v ← immBits k (imm12Field w)
  inRange (mk d v)

/-- One register in `ra` and an immediate of `k` bits. -/
def decodeAImm (k : Nat) (mk : Fin 8 → BitVec k → Instr) (w : Word) : Except DecodeError Instr := do
  unused (rdField w)
  let a ← regNumber (raField w)
  unused (rbField w)
  let v ← immBits k (imm12Field w)
  inRange (mk a v)

/-- Two registers in `rd` and `ra` and an immediate of `k` bits. -/
def decodeDAImm (k : Nat) (mk : Fin 8 → Fin 8 → BitVec k → Instr) (w : Word) : Except DecodeError Instr := do
  let d ← regNumber (rdField w)
  let a ← regNumber (raField w)
  unused (rbField w)
  let v ← immBits k (imm12Field w)
  inRange (mk d a v)

/-- Format I (SLI): one register in `rd`, `ra` zero, `imm16`. -/
def decodeImm16 (w : Word) : Except DecodeError Instr := do
  let d ← regNumber (rdField w)
  unused (raField w)
  .ok (.sli d (BitVec.ofNat 16 (imm16Field w)))

/-- The command that a word selects, or why it selects none (R95 to R97). Total on all 2^32 words. -/
def decode (w : Word) : Except DecodeError Instr :=
  match opField w with
  | 0x00 => decodeNone .nop w
  | 0x01 => decodeNone .zeroize w
  | 0x02 => decodeNone .bzero w
  | 0x10 => decodeImm16 w
  | 0x11 => decodeDAB .smulw w
  | 0x12 => decodeDAB .fadd w
  | 0x13 => decodeDAB .fsub w
  | 0x14 => decodeDAB .fmul w
  | 0x15 => decodeDA .csubq w
  | 0x16 => decodeDA .bred w
  | 0x17 => decodeDA .mred w
  | 0x18 => decodeDAImm 8 .cget w
  | 0x19 => decodeDAImm 8 .cset w
  | 0x1A => decodeDImm 9 .ldb w
  | 0x1B => decodeAImm 9 .stb w
  | 0x20 => decodeDA .pmov w
  | 0x21 => decodeDAB .padd w
  | 0x22 => decodeDAB .psub w
  | 0x23 => decodeDA .ntt w
  | 0x24 => decodeDA .intt w
  | 0x25 => decodeDAB .pmul w
  | 0x26 => decodeDAB .pmac w
  | 0x27 => decodeD .pzero w
  | 0x30 => decodeD .samplentt w
  | 0x31 => decodeDImm 4 .cbd w
  | 0x32 => decodeDImm 4 .prfcbd w
  | 0x40 => decodeAImm 4 .encode w
  | 0x41 => decodeDImm 4 .decode w
  | 0x42 => decodeDAImm 4 .compress w
  | 0x43 => decodeDAImm 4 .decompress w
  | _ => .error .unlistedOpcode

/-- The decoder on a word numbered as spec/opcode_table.json numbers it; every command is one 32-bit word (R90), so a
shorter `nbits` leaves the bits above it zero. -/
def decodeTableWord (nbits w : Nat) : Option Instr :=
  match decode (BitVec.ofNat 32 (w % 2 ^ nbits)) with
  | .ok i => some i
  | .error _ => none

/-! ## Encoding -/

/-- A word of format R: `op rd ra rb imm12` (R91). -/
def formatR (op rd ra rb imm12 : Nat) : Word :=
  BitVec.ofNat 32 (op * 2 ^ 24 + rd * 2 ^ 20 + ra * 2 ^ 16 + rb * 2 ^ 12 + imm12)

/-- A word of format I: `op rd 0 imm16` (R91). -/
def formatI (op rd imm16 : Nat) : Word :=
  BitVec.ofNat 32 (op * 2 ^ 24 + rd * 2 ^ 20 + imm16)

/-- The word of a command (R91, R96). For a command that is not well formed it is the illegal word with its fields. -/
def encode : Instr → Word
  | .nop => formatR 0x00 0 0 0 0
  | .zeroize => formatR 0x01 0 0 0 0
  | .bzero => formatR 0x02 0 0 0 0
  | .sli sd imm16 => formatI 0x10 sd imm16.toNat
  | .smulw sd sa sb => formatR 0x11 sd sa sb 0
  | .fadd sd sa sb => formatR 0x12 sd sa sb 0
  | .fsub sd sa sb => formatR 0x13 sd sa sb 0
  | .fmul sd sa sb => formatR 0x14 sd sa sb 0
  | .csubq sd sa => formatR 0x15 sd sa 0 0
  | .bred sd sa => formatR 0x16 sd sa 0 0
  | .mred sd sa => formatR 0x17 sd sa 0 0
  | .cget sd pa idx => formatR 0x18 sd pa 0 idx.toNat
  | .cset pd sa idx => formatR 0x19 pd sa 0 idx.toNat
  | .ldb sd addr => formatR 0x1A sd 0 0 addr.toNat
  | .stb sa addr => formatR 0x1B 0 sa 0 addr.toNat
  | .pmov pd pa => formatR 0x20 pd pa 0 0
  | .padd pd pa pb => formatR 0x21 pd pa pb 0
  | .psub pd pa pb => formatR 0x22 pd pa pb 0
  | .ntt pd pa => formatR 0x23 pd pa 0 0
  | .intt pd pa => formatR 0x24 pd pa 0 0
  | .pmul pd pa pb => formatR 0x25 pd pa pb 0
  | .pmac pd pa pb => formatR 0x26 pd pa pb 0
  | .pzero pd => formatR 0x27 pd 0 0 0
  | .samplentt pd => formatR 0x30 pd 0 0 0
  | .cbd pd eta => formatR 0x31 pd 0 0 eta.toNat
  | .prfcbd pd eta => formatR 0x32 pd 0 0 eta.toNat
  | .encode pa d => formatR 0x40 0 pa 0 d.toNat
  | .decode pd d => formatR 0x41 pd 0 0 d.toNat
  | .compress pd pa d => formatR 0x42 pd pa 0 d.toNat
  | .decompress pd pa d => formatR 0x43 pd pa 0 d.toNat

/-! ## The opcode table (R95, R96), as its own text beside the decoder -/

/-- A row of R96: the mnemonic, the mask, the match value, and the range of the immediate (low bits of the word) that
the mask cannot express. -/
structure OpcodeRow where
  mnemonic : String
  mask : Word
  value : Word
  immLow : Nat
  immHigh : Nat
  immWidth : Nat
deriving DecidableEq, Repr

/-- A row without an extra range. -/
def plainRow (mnemonic : String) (mask value : Word) : OpcodeRow :=
  ⟨mnemonic, mask, value, 0, 0, 0⟩

/-- `w & mask = match`, and the immediate in the row's range (R95). -/
def OpcodeRow.selects (r : OpcodeRow) (w : Word) : Prop :=
  w &&& r.mask = r.value ∧ r.immLow ≤ w.toNat % 2 ^ r.immWidth ∧ w.toNat % 2 ^ r.immWidth ≤ r.immHigh

/-- The thirty rows of R96. -/
def opcodeTable : List OpcodeRow :=
  [ plainRow "NOP" 0xFFFFFFFF#32 0x00000000#32,
    plainRow "ZEROIZE" 0xFFFFFFFF#32 0x01000000#32,
    plainRow "BZERO" 0xFFFFFFFF#32 0x02000000#32,
    plainRow "SLI" 0xFF8F0000#32 0x10000000#32,
    plainRow "SMULW" 0xFF888FFF#32 0x11000000#32,
    plainRow "FADD" 0xFF888FFF#32 0x12000000#32,
    plainRow "FSUB" 0xFF888FFF#32 0x13000000#32,
    plainRow "FMUL" 0xFF888FFF#32 0x14000000#32 ] ++
  [ plainRow "CSUBQ" 0xFF88FFFF#32 0x15000000#32,
    plainRow "BRED" 0xFF88FFFF#32 0x16000000#32,
    plainRow "MRED" 0xFF88FFFF#32 0x17000000#32,
    plainRow "CGET" 0xFF88FF00#32 0x18000000#32,
    plainRow "CSET" 0xFF88FF00#32 0x19000000#32,
    ⟨"LDB", 0xFF8FFE00#32, 0x1A000000#32, 0, 383, 9⟩,
    ⟨"STB", 0xFFF8FE00#32, 0x1B000000#32, 0, 383, 9⟩ ] ++
  [ plainRow "PMOV" 0xFF88FFFF#32 0x20000000#32,
    plainRow "PADD" 0xFF888FFF#32 0x21000000#32,
    plainRow "PSUB" 0xFF888FFF#32 0x22000000#32,
    plainRow "NTT" 0xFF88FFFF#32 0x23000000#32,
    plainRow "INTT" 0xFF88FFFF#32 0x24000000#32,
    plainRow "PMUL" 0xFF888FFF#32 0x25000000#32,
    plainRow "PMAC" 0xFF888FFF#32 0x26000000#32,
    plainRow "PZERO" 0xFF8FFFFF#32 0x27000000#32 ] ++
  [ plainRow "SAMPLENTT" 0xFF8FFFFF#32 0x30000000#32,
    plainRow "CBD" 0xFF8FFFFE#32 0x31000002#32,
    plainRow "PRFCBD" 0xFF8FFFFE#32 0x32000002#32,
    ⟨"ENCODE", 0xFFF8FFF0#32, 0x40000000#32, 1, 12, 4⟩,
    ⟨"DECODE", 0xFF8FFFF0#32, 0x41000000#32, 1, 12, 4⟩,
    ⟨"COMPRESS", 0xFF88FFF0#32, 0x42000000#32, 1, 11, 4⟩,
    ⟨"DECOMPRESS", 0xFF88FFF0#32, 0x43000000#32, 1, 11, 4⟩ ]

/-- The mnemonic of a command, as R96 spells it. -/
def Instr.mnemonic : Instr → String
  | .nop => "NOP"
  | .zeroize => "ZEROIZE"
  | .bzero => "BZERO"
  | .sli _ _ => "SLI"
  | .smulw _ _ _ => "SMULW"
  | .fadd _ _ _ => "FADD"
  | .fsub _ _ _ => "FSUB"
  | .fmul _ _ _ => "FMUL"
  | .csubq _ _ => "CSUBQ"
  | .bred _ _ => "BRED"
  | .mred _ _ => "MRED"
  | .cget _ _ _ => "CGET"
  | .cset _ _ _ => "CSET"
  | .ldb _ _ => "LDB"
  | .stb _ _ => "STB"
  | .pmov _ _ => "PMOV"
  | .padd _ _ _ => "PADD"
  | .psub _ _ _ => "PSUB"
  | .ntt _ _ => "NTT"
  | .intt _ _ => "INTT"
  | .pmul _ _ _ => "PMUL"
  | .pmac _ _ _ => "PMAC"
  | .pzero _ => "PZERO"
  | .samplentt _ => "SAMPLENTT"
  | .cbd _ _ => "CBD"
  | .prfcbd _ _ => "PRFCBD"
  | .encode _ _ => "ENCODE"
  | .decode _ _ => "DECODE"
  | .compress _ _ _ => "COMPRESS"
  | .decompress _ _ _ => "DECOMPRESS"

end Sys2Proof
end

