-- ==== Sys2Proof/Machine/State.lean ====
section
/-! DEFINITION. The state of the machine as plain data: all that 10_state.md R20 names, the XOF session of R45, and beside
them what stands outside the block (the host's outstanding transactions, the order of turns, the pace of the XOF core). -/

/-- The zero polynomial. -/
def Sys2Proof.Poly.zero : Sys2Proof.Poly := Vector.replicate 256 0#12

namespace Sys2Proof.Machine

/-! ## The parts of the state -/

/-- BUF as a list of (address, byte): addresses strictly rising, no entry of value 0, since an unlisted address reads as
its reset value 0 (R30, R47). The form is `Memory.wf`. -/
abbrev Memory := List Host.Cell

/-- The error code in STATUS.ERR (R32, R310). -/
inductive ErrCode where
  /-- 0 -/
  | none
  /-- 1, raised by ENCODE (R312) -/
  | invalidCoefficient
  /-- 2, raised by any word that selects no command (R311) -/
  | illegalCommand
  /-- 3, raised by FADD, FSUB, FMUL, MRED, CSET, DECOMPRESS (R313) -/
  | operandRange
deriving DecidableEq, Repr

/-- The sequencer state SEQ; EXEC holds the command word in execution (R36, R37). -/
inductive Seq where
  | idle
  | exec (w : Word)
  | error
deriving DecidableEq, Repr

/-- The function that XofOpen selects: m = 0 SHAKE-128, m = 1 SHAKE-256 (R44). -/
inductive XofMode where
  | shake128
  | shake256
deriving DecidableEq, Repr

/-- The XOF session: the pair (m, M) and the count n of bytes pulled (R45). -/
structure XofSession where
  mode : XofMode
  msg : List Byte
  pulled : Nat
deriving DecidableEq, Repr

/-- One transaction of the host port: a read or a write of a whole word at a word index `h_addr` (R38). -/
inductive HostReq where
  | read (addr : BitVec 10)
  | write (addr : BitVec 10) (data : Word)
deriving DecidableEq, Repr

/-- What the host port last answered (R38, R42). -/
inductive HostReply where
  /-- No transaction has been presented since reset. -/
  | none
  /-- `h_ready` is low: the transaction is held (R40, R41). -/
  | held
  /-- A read completed with `h_rdata` and `h_err`. -/
  | read (data : Word) (err : Bool)
  /-- A write completed with `h_err`. -/
  | wrote (err : Bool)
deriving DecidableEq, Repr

/-- The register that a host word index names (R39). -/
inductive HostReg where
  | cmd
  | status
  | ctrl
  | ien
  | errcmd
  | erridx
  | ccnt
  | id
  | scal (i : SReg)
  | bufw (w : Fin 96)
  | reserved
deriving DecidableEq, Repr

/-- Who moves in a step. DESIGN CHOICE (log entry 3): the interleaving of the agents of R12 is data of the state. -/
inductive Turn where
  /-- The sequencer pops a command and executes it, or goes on with the one in execution (R36). -/
  | sequencer
  /-- The sequencer only pops a command; the command is then in execution and has written nothing yet (R36, R37). -/
  | pop
  /-- The host port serves the transaction at the head of `hostReqs` (R38). -/
  | host
  /-- `rst_n` is asserted and the reset completes (R350). -/
  | hardReset
  /-- The XOF core behind the port changes its pace: bytes it delivers per sequencer step, 0 when silent (R44, R322). -/
  | xofPace (n : Nat)
deriving DecidableEq, Repr

/-! ## The state -/

structure State where
  /-- s0..s7 (R21) -/
  scal : Vector Word 8
  /-- p0..p7 (R25) -/
  poly : Vector Poly 8
  /-- BUF (R30) -/
  buf : Memory
  /-- CMDQ, head first (R31) -/
  cmdq : List Word
  /-- SEQ and the command word in execution (R36, R37) -/
  seq : Seq
  /-- ERR (R32) -/
  err : ErrCode
  /-- ERRCMD (R35) -/
  errCmd : Word
  /-- ERRIDX (R35) -/
  errIdx : Word
  /-- CCNT (R23, R35) -/
  ccnt : Word
  /-- IEN: bit 0 IE_ERR, bit 1 IE_IDLE (R35) -/
  ien : BitVec 2
  /-- The XOF session, if one is open (R45) -/
  xof : Option XofSession
  /-- Outside the block: the turns to come, first one first; the default turn when empty (log entry 3) -/
  turns : List Turn
  /-- Outside the block: the host's transactions not yet completed, in the order issued (R38, R70) -/
  hostReqs : List HostReq
  /-- The output of the host port: its last answer (R38) -/
  hostReply : HostReply
  /-- Outside the block: bytes that the XOF core delivers in one sequencer step (R44, R322; log entry 4) -/
  xofPace : Nat
deriving DecidableEq, Repr

/-! ## Why a step can stop: it cannot -/

/-- Faults. The spec gives the machine none that stop it: its errors enter the ERROR state (R316), which is a state, and the
hang (R322) is a sequencer that stays in EXEC. No constructor, hence neither safe nor unsafe. -/
inductive Fault where
deriving DecidableEq, Repr

/-- Refusals. -/
inductive Refusal where
  /-- Raised by no instruction: it is the name an arm of `exec` would use for a command without a meaning. Safe. -/
  | notModelled (mnemonic : String)
deriving DecidableEq, Repr

/-! ## Reset -/

/-- The state after reset (R47, R350). The block's own fields have the values of R47. The outside is quiet: no turn is
scheduled, no transaction is outstanding, and the XOF core delivers 4096 bytes a step. DESIGN CHOICE (log entry 17)
for the fields that are not the block's. -/
def State.reset : State where
  scal := Vector.replicate 8 0#32
  poly := Vector.replicate 8 Poly.zero
  buf := []
  cmdq := []
  seq := .idle
  err := .none
  errCmd := 0#32
  errIdx := 0#32
  ccnt := 0#32
  ien := 0#2
  xof := none
  turns := []
  hostReqs := []
  hostReply := .none
  xofPace := 4096

end Sys2Proof.Machine
end

