-- ==== Sys2Proof/Machine/Ops.lean ====
section
/-! DEFINITION. The named operations over registers, coefficients and BUF, how a command ends (retire, error entry), the
return from the ERROR state, reset, and how the sequencer takes its next command. -/

namespace Sys2Proof

/-! ## Polynomials (R7, R8, R25) -/

/-- The polynomial with coefficient `f j` at index j, in the 12 bits of a coefficient. -/
def Poly.ofFn (f : Nat → Nat) : Poly :=
  Vector.mk (Array.mk ((List.range 256).map fun j => BitVec.ofNat 12 (f j))) (by simp)

/-- Coefficient j as an integer (0 beyond index 255). -/
def Poly.coeff (p : Poly) (j : Nat) : Nat := (p.toArray.toList.getD j 0#12).toNat

/-- The polynomial with coefficient j replaced by v. -/
def Poly.setCoeff (p : Poly) (j v : Nat) : Poly := Poly.ofFn fun k => if k = j then v else p.coeff k

/-- Every coefficient is below m (the checks of R164 and R176 look at all 256). -/
def Poly.allBelow (p : Poly) (m : Nat) : Bool := p.toArray.toList.all fun c => decide (c.toNat < m)

end Sys2Proof

namespace Sys2Proof.Machine

/-- What a command answers. -/
abbrev Result := Host.Outcome State Fault Refusal

/-! ## Scalar registers (R7, R21) -/

/-- `s[i]`. -/
def State.getScal (s : State) (i : SReg) : Word := s.scal.get i

/-- `s[i] <- v`. -/
def State.setScal (s : State) (i : SReg) (v : Word) : State := { s with scal := s.scal.set i v }

/-! ## Polynomial registers (R7, R8, R25) -/

/-- `p[i]`. -/
def State.getPoly (s : State) (i : PReg) : Poly := s.poly.get i

/-- `p[i] <- F`. -/
def State.setPoly (s : State) (i : PReg) (f : Poly) : State := { s with poly := s.poly.set i f }

/-! ## BUF (R7, R30) -/

/-- The byte at an address: 0 where the list has no entry. -/
def Memory.read : Memory → Nat → Byte
  | [], _ => 0#8
  | (b, v) :: m, a => if a = b then v else Memory.read m a

/-- One byte written; the canonical form is kept, so writing 0 removes the entry. -/
def Memory.write : Memory → Nat → Byte → Memory
  | [], a, v => if v = 0#8 then [] else [(a, v)]
  | (b, u) :: m, a, v =>
    if a < b then (if v = 0#8 then (b, u) :: m else (a, v) :: (b, u) :: m)
    else if a = b then (if v = 0#8 then m else (a, v) :: m)
    else (b, u) :: Memory.write m a v

/-- `MemRead(a, n)` (R7). -/
def Memory.readBytes (m : Memory) (a n : Nat) : List Byte := (List.range n).map fun k => m.read (a + k)

/-- `MemWrite(a, n, B)` with n the length of B (R7). -/
def Memory.writeBytes : Memory → Nat → List Byte → Memory
  | m, _, [] => m
  | m, a, b :: bs => Memory.writeBytes (m.write a b) (a + 1) bs

/-- Addresses rise strictly from `lo` on, stay inside BUF, and no entry is 0. -/
def Memory.wfFrom : Nat → Memory → Bool
  | _, [] => true
  | lo, (a, v) :: m => decide (lo ≤ a) && decide (a < Config.bufLen) && decide (v ≠ 0#8) && Memory.wfFrom (a + 1) m

/-- The canonical form of BUF. -/
def Memory.wf (m : Memory) : Bool := Memory.wfFrom 0 m

/-! ## How a command ends -/

/-- The command retires: CCNT advances and SEQ is IDLE again; no XOF session outlives it (R36, R45). -/
def retire (s : State) : State := { s with ccnt := s.ccnt + 1#32, seq := .idle, xof := none }

/-- TAKING AN ERROR, the block's one exception mechanism (R316): ERR, ERRCMD and ERRIDX are written, CCNT does not advance,
an open XOF session is closed, SEQ is ERROR; nothing else changes. `w` is the failing command word. -/
def errorEntry (code : ErrCode) (w : Word) (s : State) : State :=
  { s with err := code, errCmd := w, errIdx := s.ccnt, seq := .error, xof := none }

/-- RETURN FROM THE ERROR STATE, CTRL.CLRERR (R34, R319): in ERROR the queue is emptied, ERR is 0 and SEQ is IDLE; in any
other state there is no effect. -/
def clearError (s : State) : State :=
  match s.seq with
  | .error => { s with cmdq := [], err := .none, seq := .idle }
  | .idle => s
  | .exec _ => s

/-- The value-independent check made before any operand is read (R97, R99): a command that no legal word encodes fails
with ILLEGAL_COMMAND (DESIGN CHOICE, log entry 10: no decoded word gives such a term). -/
def ifLegal (i : Instr) (s : State) (body : State) : State :=
  if i.wellFormed then body else errorEntry .illegalCommand (encode i) s

/-! ## Reset (R34, R47, R350, R351) -/

/-- Every piece of the block's state takes its reset value; what stands outside the block is not the block's to reset. -/
def resetBlock (s : State) : State :=
  { State.reset with
    turns := s.turns, hostReqs := s.hostReqs, hostReply := s.hostReply, xofPace := s.xofPace }

/-- Hardware reset: as `resetBlock`, and the port has answered nothing since (R350; log entries 7 and 15). -/
def hardReset (s : State) : State := { resetBlock s with hostReply := .none }

/-! ## The sequencer takes its next command (R36) -/

/-- The command word to run and the state in which it is in execution: the head of CMDQ when SEQ is IDLE, the word in
execution when SEQ is EXEC, none in ERROR (R37) or when the queue is empty. -/
def fetch (s : State) : Option (Word × State) :=
  match s.seq with
  | .idle =>
    match s.cmdq with
    | [] => none
    | w :: rest => some (w, { s with cmdq := rest, seq := .exec w })
  | .exec w => some (w, s)
  | .error => none

/-- The pop alone: IDLE to EXEC (R37). A command already in execution stays as it is. -/
def popOnly (s : State) : State :=
  match fetch s with
  | none => s
  | some (_, t) => t

/-- The state in which the very next step runs the word `w`: SEQ is IDLE with no error and no XOF session, `w` is at the
head of CMDQ (in the place of the head that was there), and the sequencer has the next turn. DESIGN CHOICE (log entry 5). -/
def placeWord (s : State) (w : Word) : State :=
  { s with cmdq := w :: s.cmdq.tail, seq := .idle, err := .none, xof := none, turns := .sequencer :: s.turns }

end Sys2Proof.Machine
end

