-- ==== Sys2Proof/Machine/Operands.lean ====
section
/-! DEFINITION. The operand forms: scalars as integers, the canonical pair of the field commands, bit strings of bytes and
of coefficients, and the fixed regions of BUF. -/

namespace Sys2Proof.Machine

/-! ## Scalars as integers (R5, R21) -/

/-- A scalar as the unsigned integer it is. -/
def State.scalVal (s : State) (i : SReg) : Nat := (s.getScal i).toNat

/-- `s[i] <- v` for an integer v, modulo 2^32 (R6 `wrap32`). -/
def State.setScalVal (s : State) (i : SReg) (v : Nat) : State := s.setScal i (BitVec.ofNat 32 v)

/-- Two scalar operands as FieldElts, none when one is not canonical (R133 to R135). -/
def canonicalPair (s : State) (sa sb : SReg) : Option (Nat × Nat) :=
  if s.scalVal sa < Config.q ∧ s.scalVal sb < Config.q then some (s.scalVal sa, s.scalVal sb) else none

/-! ## Bit strings (R9, R10, R160): bit t of a string is bit (t mod 8) of byte t / 8 -/

/-- BytesToBits (R9): bit t of the byte string. -/
def bytesToBits (bs : List Byte) (t : Nat) : Bool := (bs.getD (t / 8) 0#8).getLsbD (t % 8)

/-- The value of n bits from position o on, least significant first. -/
def bitsValue (b : Nat → Bool) (o : Nat) : Nat → Nat
  | 0 => 0
  | n + 1 => bitsValue b o n + (b (o + n)).toNat * 2 ^ n

/-- How many of the n bits from position o on are 1. -/
def bitCount (b : Nat → Bool) (o : Nat) : Nat → Nat
  | 0 => 0
  | n + 1 => bitCount b o n + (b (o + n)).toNat

/-- BitsToBytes (R10): the first L bytes of a bit string. -/
def bitsToBytes (b : Nat → Bool) (len : Nat) : List Byte :=
  (List.range len).map fun k => BitVec.ofNat 8 (bitsValue b (8 * k) 8)

/-! ## Regions of BUF (R63, R260) -/

/-- The region from address 0 of the given length. -/
def State.bufRegion (s : State) (len : Nat) : List Byte := s.buf.readBytes 0 len

/-- The bytes written from address 0 on. -/
def State.storeRegion (s : State) (bs : List Byte) : State := { s with buf := s.buf.writeBytes 0 bs }

/-- `BUF[a]`. -/
def State.loadByte (s : State) (a : Nat) : Byte := s.buf.read a

/-- `BUF[a] <- v`. -/
def State.storeByte (s : State) (a : Nat) (v : Byte) : State := { s with buf := s.buf.write a v }

end Sys2Proof.Machine
end

