-- ==== Sys2Proof/Machine/Flags.lean ====
section
/-! DEFINITION. The status the block shows: there are no condition codes (R24); the flags are the fields of STATUS
(R32, R33) and the output irq (R43), all computed from the state. -/

namespace Sys2Proof.Machine

/-- BUSY: SEQ is EXEC, or SEQ is IDLE with a word in the queue (R33). -/
def State.busy (s : State) : Bool :=
  match s.seq with
  | .exec _ => true
  | .idle => !s.cmdq.isEmpty
  | .error => false

/-- QFULL: QLEN = CMDQ_DEPTH (R32). -/
def State.queueFull (s : State) : Bool := s.cmdq.length == Config.cmdqDepth

/-- The code in STATUS.ERR (R32, R310). -/
def ErrCode.toNat : ErrCode → Nat
  | .none => 0
  | .invalidCoefficient => 1
  | .illegalCommand => 2
  | .operandRange => 3

/-- ERRF: ERR ≠ 0 (R32). -/
def State.errFlag (s : State) : Bool := s.err != .none

/-- STATUS as the host reads it; bit 3 and bits 31:16 are 0 (R32). -/
def State.status (s : State) : Word :=
  BitVec.ofNat 32 (s.busy.toNat + 2 * s.queueFull.toNat + 4 * s.errFlag.toNat + 16 * s.err.toNat
    + 256 * min s.cmdq.length 255)

/-- The block is idle: BUSY = 0 and ERR = 0 (R33). -/
def State.isIdle (s : State) : Bool := !s.busy && !s.errFlag

/-- irq = (IE_ERR and ERR ≠ 0) or (IE_IDLE and BUSY = 0), a level (R43, R321). -/
def State.irq (s : State) : Bool := (s.ien.getLsbD 0 && s.errFlag) || (s.ien.getLsbD 1 && !s.busy)

end Sys2Proof.Machine
end

