-- ==== Sys2Proof/Machine/Field.lean ====
section
/-! DEFINITION. Field arithmetic in Z_3329 (40_field_arithmetic.md): the reduction functions, the two reference datapaths,
the twiddle tables, and SMULW, FADD, FSUB, FMUL, CSUBQ, BRED, MRED. -/

namespace Sys2Proof.Machine

/-! ## Reduction (R127, R128, R130) -/

/-- csubq: one conditional subtraction of q (R127). -/
def csubq (a : Nat) : Nat := if Config.q ≤ a then a - Config.q else a

/-- bred: the architectural function is a mod q (R128, R131). -/
def bred (a : Nat) : Nat := a % Config.q

/-- mred: the architectural function is (a · 169) mod q, 169 = (2^16)^-1 mod q (R130). -/
def mred (a : Nat) : Nat := a * 169 % Config.q

/-- The reference Barrett datapath of R128, beside the function it computes. -/
def barrettDatapath (a : Nat) : Nat :=
  let t := a * 1290167 / 2 ^ 32
  csubq (a - t * Config.q)

/-- The reference Montgomery datapath of R130, beside the function it computes. -/
def montgomeryDatapath (a : Nat) : Nat :=
  let m := a * 3327 % 2 ^ 16
  csubq ((a + m * Config.q) / 2 ^ 16)

/-! ## Field operations on integers (R120, R133 to R135) -/

/-- a ⊕ b on canonical operands: csubq(a + b) (R133). -/
def fieldAdd (a b : Nat) : Nat := csubq (a + b)

/-- a ⊖ b on canonical operands: csubq(a + q − b) (R134). -/
def fieldSub (a b : Nat) : Nat := csubq (a + Config.q - b)

/-- a ⊗ b on canonical operands: bred(a · b) (R135). -/
def fieldMul (a b : Nat) : Nat := bred (a * b)

/-- (a + b) mod q for any integers (R6, R211). -/
def addMod (a b : Nat) : Nat := (a + b) % Config.q

/-- (a − b) mod q for any integers, with the non-negative remainder of R6 (R121, R212). -/
def subMod (a b : Nat) : Nat := (a + (Config.q - b % Config.q)) % Config.q

/-- (a · b) mod q for any integers (R6, R131). -/
def mulMod (a b : Nat) : Nat := a * b % Config.q

/-! ## Twiddle tables (R11, R122, R123) -/

/-- BitRev7: the 7-bit reversal (R11). -/
def bitRev7 (i : Nat) : Nat :=
  i % 2 * 64 + i / 2 % 2 * 32 + i / 4 % 2 * 16 + i / 8 % 2 * 8 + i / 16 % 2 * 4 + i / 32 % 2 * 2 + i / 64 % 2

/-- zetas[i] = ζ^BitRev7(i) mod q (R122). -/
def zetas (i : Nat) : Nat := Config.zetaRoot ^ bitRev7 i % Config.q

/-- γ[i] = ζ^(2·BitRev7(i) + 1) mod q (R123). -/
def gamma (i : Nat) : Nat := Config.zetaRoot ^ (2 * bitRev7 i + 1) % Config.q

/-! ## The commands -/

/-- A field command on two canonical scalars; OPERAND_RANGE when one is not (R133 to R135). -/
def fieldCommand (i : Instr) (f : Nat → Nat → Nat) (sd sa sb : SReg) (s : State) : State :=
  match canonicalPair s sa sb with
  | none => errorEntry .operandRange (encode i) s
  | some (a, b) => retire (s.setScalVal sd (f a b))

/-- SMULW (R132): the product modulo 2^32 of any two scalars. -/
def execSmulw (sd sa sb : SReg) (s : State) : Result :=
  .next (retire (s.setScalVal sd (s.scalVal sa * s.scalVal sb)))

/-- FADD (R133). -/
def execFadd (sd sa sb : SReg) (s : State) : Result := .next (fieldCommand (.fadd sd sa sb) fieldAdd sd sa sb s)

/-- FSUB (R134). -/
def execFsub (sd sa sb : SReg) (s : State) : Result := .next (fieldCommand (.fsub sd sa sb) fieldSub sd sa sb s)

/-- FMUL (R135). -/
def execFmul (sd sa sb : SReg) (s : State) : Result := .next (fieldCommand (.fmul sd sa sb) fieldMul sd sa sb s)

/-- CSUBQ (R136): every 32-bit value is accepted. -/
def execCsubq (sd sa : SReg) (s : State) : Result := .next (retire (s.setScalVal sd (csubq (s.scalVal sa))))

/-- BRED (R137): every 32-bit value is accepted. -/
def execBred (sd sa : SReg) (s : State) : Result := .next (retire (s.setScalVal sd (bred (s.scalVal sa))))

/-- MRED (R138): OPERAND_RANGE from q·2^16 on. -/
def execMred (sd sa : SReg) (s : State) : Result :=
  .next (if s.scalVal sa < Config.mredLimit then retire (s.setScalVal sd (mred (s.scalVal sa)))
    else errorEntry .operandRange (encode (.mred sd sa)) s)

end Sys2Proof.Machine
end

