-- ==== Sys2Proof/Machine/Codec.lean ====
section
/-! DEFINITION. The byte codecs (41_codec.md): ByteEncode, ByteDecode, Compress, Decompress as functions, and ENCODE, DECODE,
COMPRESS, DECOMPRESS. All integer arithmetic (R179). -/

namespace Sys2Proof.Machine

/-- The bound m that every coefficient must be below: q for d = 12, else 2^d (R161). -/
def encodeLimit (d : Nat) : Nat := if d = 12 then Config.q else 2 ^ d

/-- Bit i·d + j of the string is bit j of coefficient i (R161). -/
def coeffBits (d : Nat) (f : Poly) (t : Nat) : Bool := (f.coeff (t / d)).testBit (t % d)

/-- ByteEncode_d of coefficients below the bound: 32d bytes (R161). -/
def byteEncode (d : Nat) (f : Poly) : List Byte := bitsToBytes (coeffBits d f) (32 * d)

/-- ByteDecode_d of 32d bytes; at d = 12 each value is reduced mod q, once (R162; 92_eei_decisions.md D36). -/
def byteDecode (d : Nat) (bs : List Byte) : Poly :=
  Poly.ofFn fun i =>
    let v := bitsValue (bytesToBits bs) (i * d) d
    if d = 12 then v % Config.q else v

/-- Compress_d(x) = ⌊(2·x·2^d + q) / (2q)⌋ mod 2^d (R170, R171). -/
def compressCoeff (d x : Nat) : Nat := (2 * x * 2 ^ d + Config.q) / (2 * Config.q) % 2 ^ d

/-- Decompress_d(y) = ⌊(y·q + 2^(d−1)) / 2^d⌋ (R175). -/
def decompressCoeff (d y : Nat) : Nat := (y * Config.q + 2 ^ (d - 1)) / 2 ^ d

/-- ENCODE (R164): all coefficients are checked before any byte is written. -/
def execEncode (pa : PReg) (d : BitVec 4) (s : State) : Result :=
  .next (ifLegal (.encode pa d) s
    (if (s.getPoly pa).allBelow (encodeLimit d.toNat)
      then retire (s.storeRegion (byteEncode d.toNat (s.getPoly pa)))
      else errorEntry .invalidCoefficient (encode (.encode pa d)) s))

/-- DECODE (R167): every content of BUF is accepted. -/
def execDecode (pd : PReg) (d : BitVec 4) (s : State) : Result :=
  .next (ifLegal (.decode pd d) s
    (retire (s.setPoly pd (byteDecode d.toNat (s.bufRegion (32 * d.toNat))))))

/-- COMPRESS (R173): Compress_d of each coefficient. -/
def execCompress (pd pa : PReg) (d : BitVec 4) (s : State) : Result :=
  .next (ifLegal (.compress pd pa d) s
    (retire (s.setPoly pd (Poly.ofFn fun j => compressCoeff d.toNat ((s.getPoly pa).coeff j)))))

/-- DECOMPRESS (R176): OPERAND_RANGE when some coefficient is not below 2^d; all 256 are checked before any write. -/
def execDecompress (pd pa : PReg) (d : BitVec 4) (s : State) : Result :=
  .next (ifLegal (.decompress pd pa d) s
    (if (s.getPoly pa).allBelow (2 ^ d.toNat)
      then retire (s.setPoly pd (Poly.ofFn fun j => decompressCoeff d.toNat ((s.getPoly pa).coeff j)))
      else errorEntry .operandRange (encode (.decompress pd pa d)) s))

end Sys2Proof.Machine
end

