-- ==== Sys2Proof/Machine/Move.lean ====
section
/-! DEFINITION. Moves, buffer loads and stores, zeroisation and control (44_move_and_control.md): NOP, ZEROIZE, BZERO, SLI,
CGET, CSET, LDB, STB. -/

namespace Sys2Proof.Machine

/-- NOP (R252): only CCNT advances. -/
def execNop (s : State) : Result := .next (retire s)

/-- ZEROIZE (R253): all scalars, all polynomials and BUF are 0. -/
def execZeroize (s : State) : Result :=
  .next (retire { s with scal := Vector.replicate 8 0#32, poly := Vector.replicate 8 Poly.zero, buf := [] })

/-- BZERO (R254): BUF is 0. -/
def execBzero (s : State) : Result := .next (retire { s with buf := [] })

/-- SLI (R255): the immediate, zero-extended. -/
def execSli (sd : SReg) (imm16 : BitVec 16) (s : State) : Result := .next (retire (s.setScalVal sd imm16.toNat))

/-- CGET (R256): one coefficient, zero-extended. -/
def execCget (sd : SReg) (pa : PReg) (idx : BitVec 8) (s : State) : Result :=
  .next (retire (s.setScalVal sd ((s.getPoly pa).coeff idx.toNat)))

/-- CSET (R257): OPERAND_RANGE when the scalar is not canonical. -/
def execCset (pd : PReg) (sa : SReg) (idx : BitVec 8) (s : State) : Result :=
  .next (if s.scalVal sa < Config.q
    then retire (s.setPoly pd ((s.getPoly pd).setCoeff idx.toNat (s.scalVal sa)))
    else errorEntry .operandRange (encode (.cset pd sa idx)) s)

/-- LDB (R258): one byte of BUF, zero-extended. -/
def execLdb (sd : SReg) (addr : BitVec 9) (s : State) : Result :=
  .next (ifLegal (.ldb sd addr) s (retire (s.setScalVal sd (s.loadByte addr.toNat).toNat)))

/-- STB (R259): the low byte of a scalar. -/
def execStb (sa : SReg) (addr : BitVec 9) (s : State) : Result :=
  .next (ifLegal (.stb sa addr) s (retire (s.storeByte addr.toNat ((s.getScal sa).setWidth 8))))

end Sys2Proof.Machine
end

