-- ==== Sys2Proof/Machine/PolyArith.lean ====
section
/-! DEFINITION. Polynomial arithmetic (43_ntt_poly.md): PMOV, PADD, PSUB, PZERO, the NTT and its inverse, PMUL, PMAC. -/

namespace Sys2Proof.Machine

/-! ## The transforms (R215, R219), one function per layer

The butterflies of a layer act on disjoint pairs, so a layer is given by what it leaves at each index: index j lies in the
block of 2·len indices number j / (2·len), in its lower half when j mod (2·len) < len. -/

/-- A layer of Cooley-Tukey butterflies with distance `len`; block b uses zetas[128/len + b] (R215). -/
def nttLayer (len : Nat) (f : Poly) : Poly :=
  Poly.ofFn fun j =>
    let z := zetas (128 / len + j / (2 * len))
    if j % (2 * len) < len then addMod (f.coeff j) (mulMod z (f.coeff (j + len)))
    else subMod (f.coeff (j - len)) (mulMod z (f.coeff j))

/-- The forward NTT: seven layers, len = 128 down to 2 (R215). -/
def nttPoly (f : Poly) : Poly := [128, 64, 32, 16, 8, 4, 2].foldl (fun g len => nttLayer len g) f

/-- A layer of Gentleman-Sande butterflies with distance `len`; the twiddle index of R219 runs down, so block b of the
128/len blocks uses zetas[2·(128/len) − 1 − b]. -/
def inttLayer (len : Nat) (f : Poly) : Poly :=
  Poly.ofFn fun j =>
    let z := zetas (2 * (128 / len) - 1 - j / (2 * len))
    if j % (2 * len) < len then addMod (f.coeff j) (f.coeff (j + len))
    else mulMod z (subMod (f.coeff j) (f.coeff (j - len)))

/-- Every coefficient times c modulo q. -/
def scalePoly (c : Nat) (f : Poly) : Poly := Poly.ofFn fun j => mulMod (f.coeff j) c

/-- The inverse NTT: seven layers, len = 2 up to 128, then the scale 3303 = 128^-1 (R219). -/
def inttPoly (f : Poly) : Poly :=
  scalePoly Config.ninv ([2, 4, 8, 16, 32, 64, 128].foldl (fun g len => inttLayer len g) f)

/-! ## Lane operations (R211, R212, R223, R225) -/

/-- Coefficient-wise sum modulo q (R211). -/
def addPoly (f g : Poly) : Poly := Poly.ofFn fun j => addMod (f.coeff j) (g.coeff j)

/-- Coefficient-wise difference modulo q (R212). -/
def subPoly (f g : Poly) : Poly := Poly.ofFn fun j => subMod (f.coeff j) (g.coeff j)

/-- c0 of BaseCaseMultiply, with the inner reduction of R224 (R223). -/
def baseCase0 (a0 a1 b0 b1 g : Nat) : Nat := (a0 * b0 + mulMod a1 b1 * g) % Config.q

/-- c1 of BaseCaseMultiply (R223). -/
def baseCase1 (a0 a1 b0 b1 : Nat) : Nat := (a0 * b1 + a1 * b0) % Config.q

/-- a ∘ b: pair i = (2i, 2i+1) is the product modulo X² − γ[i] (R225). -/
def pointwisePoly (a b : Poly) : Poly :=
  Poly.ofFn fun j =>
    let i := j / 2
    if j % 2 = 0 then
      baseCase0 (a.coeff (2 * i)) (a.coeff (2 * i + 1)) (b.coeff (2 * i)) (b.coeff (2 * i + 1)) (gamma i)
    else baseCase1 (a.coeff (2 * i)) (a.coeff (2 * i + 1)) (b.coeff (2 * i)) (b.coeff (2 * i + 1))

/-! ## The commands -/

/-- PMOV (R210). -/
def execPmov (pd pa : PReg) (s : State) : Result := .next (retire (s.setPoly pd (s.getPoly pa)))

/-- PADD (R211). -/
def execPadd (pd pa pb : PReg) (s : State) : Result :=
  .next (retire (s.setPoly pd (addPoly (s.getPoly pa) (s.getPoly pb))))

/-- PSUB (R212). -/
def execPsub (pd pa pb : PReg) (s : State) : Result :=
  .next (retire (s.setPoly pd (subPoly (s.getPoly pa) (s.getPoly pb))))

/-- PZERO (R213). -/
def execPzero (pd : PReg) (s : State) : Result := .next (retire (s.setPoly pd Poly.zero))

/-- NTT (R216). -/
def execNtt (pd pa : PReg) (s : State) : Result := .next (retire (s.setPoly pd (nttPoly (s.getPoly pa))))

/-- INTT (R220). -/
def execIntt (pd pa : PReg) (s : State) : Result := .next (retire (s.setPoly pd (inttPoly (s.getPoly pa))))

/-- PMUL (R225). -/
def execPmul (pd pa pb : PReg) (s : State) : Result :=
  .next (retire (s.setPoly pd (pointwisePoly (s.getPoly pa) (s.getPoly pb))))

/-- PMAC (R228): the destination is also a source. -/
def execPmac (pd pa pb : PReg) (s : State) : Result :=
  .next (retire (s.setPoly pd (addPoly (s.getPoly pd) (pointwisePoly (s.getPoly pa) (s.getPoly pb)))))

end Sys2Proof.Machine
end

