-- ==== Sys2Proof/Machine/Sampling.lean ====
section
/-! DEFINITION. Sampling (42_sampling.md): SampleNTT's rejection sampling, SamplePolyCBD, the XOF session of a command in
progress, and SAMPLENTT, CBD, PRFCBD. The commands that use the XOF port are written for any XOF function `xof`, and the
machine's is the one of Config (R44). -/

namespace Sys2Proof.Machine

/-- An XOF: byte n of the output stream of the function m on the message M (R44). -/
abbrev Xof := XofMode → List Byte → Nat → Byte

/-- The XOF behind the machine's port: the OPEN functions SHAKE128 and SHAKE256 (R4, R44). -/
def machineXof : Xof
  | .shake128 => Config.shake128
  | .shake256 => Config.shake256

/-! ## SampleNTT (R190, R191) -/

/-- The candidates of one block of three bytes that are accepted, d1 before d2 (R190, R191). -/
def candidates (c0 c1 c2 : Byte) : List Nat :=
  [c0.toNat + 256 * (c1.toNat % 16), c1.toNat / 16 + 16 * c2.toNat].filter fun d => decide (d < Config.q)

/-- The values accepted from the first k blocks of a stream, in order. -/
def accepted (stream : Nat → Byte) : Nat → List Nat
  | 0 => []
  | k + 1 => accepted stream k ++ candidates (stream (3 * k)) (stream (3 * k + 1)) (stream (3 * k + 2))

/-- After n pulls SampleNTT has what it needs: whole blocks with 256 accepted values (R190). -/
def sampleNttDone (stream : Nat → Byte) (n : Nat) : Bool :=
  n % 3 == 0 && decide (256 ≤ (accepted stream (n / 3)).length)

/-- The first 256 accepted values; a 257th of the last block is discarded (R190, R192). -/
def sampleNttPoly (stream : Nat → Byte) (n : Nat) : Poly :=
  Poly.ofFn fun j => (accepted stream (n / 3)).getD j 0

/-! ## SamplePolyCBD (R195) -/

/-- f[i] = (x_i − y_i) mod q, x_i and y_i the counts of 1 in the two runs of η bits (R195). -/
def cbdCoeff (eta : Nat) (b : Nat → Bool) (i : Nat) : Nat :=
  subMod (bitCount b (2 * i * eta) eta) (bitCount b (2 * i * eta + eta) eta)

/-- SamplePolyCBD_η of 64η bytes (R195). -/
def samplePolyCbd (eta : Nat) (bs : List Byte) : Poly := Poly.ofFn (cbdCoeff eta (bytesToBits bs))

/-- After n pulls PRFCBD has its 64η bytes (R198). -/
def prfDone (eta : Nat) (_ : Nat → Byte) (n : Nat) : Bool := decide (64 * eta ≤ n)

/-- SamplePolyCBD_η of the first 64η bytes of the stream (R197, R198). -/
def prfCbdPoly (eta : Nat) (stream : Nat → Byte) (_ : Nat) : Poly :=
  samplePolyCbd eta ((List.range (64 * eta)).map stream)

/-! ## A command that uses the XOF port (R44, R45, R193, R322) -/

/-- Pull bytes until the command has what it needs, at most `pace` of them; the number pulled so far is the result. -/
def pullUntil (done : Nat → Bool) : Nat → Nat → Nat
  | 0, n => n
  | pace + 1, n => if done n then n else pullUntil done pace (n + 1)

/-- The session of the command in execution: the one that is open, or a new XofOpen on the first `len` bytes of BUF. -/
def sessionOf (mode : XofMode) (len : Nat) (s : State) : XofSession :=
  match s.xof with
  | some x => x
  | none => ⟨mode, s.bufRegion len, 0⟩

/-- What the sequencer does in one step for a command that uses the XOF port: it opens or continues the session and pulls
what the core delivers. With all it needs it closes the session, writes p[pd] and retires. Else it stays in EXEC with
nothing written; a later step goes on, and if the bytes never suffice it stays for ever (R193, R322). -/
def xofCommand (xof : Xof) (i : Instr) (mode : XofMode) (len : Nat) (done : (Nat → Byte) → Nat → Bool)
    (result : (Nat → Byte) → Nat → Poly) (pd : PReg) (s : State) : State :=
  let x := sessionOf mode len s
  let n := pullUntil (done (xof x.mode x.msg)) s.xofPace x.pulled
  if done (xof x.mode x.msg) n then retire (s.setPoly pd (result (xof x.mode x.msg) n))
  else { s with seq := .exec (encode i), xof := some { x with pulled := n } }

/-- SAMPLENTT with the XOF `xof` (R192): SHAKE-128 on BUF[0..33]. -/
def samplenttWith (xof : Xof) (pd : PReg) (s : State) : State :=
  xofCommand xof (.samplentt pd) .shake128 34 sampleNttDone sampleNttPoly pd s

/-- PRFCBD with the XOF `xof` (R198): SHAKE-256 on BUF[0..32]. -/
def prfcbdWith (xof : Xof) (pd : PReg) (eta : BitVec 4) (s : State) : State :=
  ifLegal (.prfcbd pd eta) s
    (xofCommand xof (.prfcbd pd eta) .shake256 33 (prfDone eta.toNat) (prfCbdPoly eta.toNat) pd s)

/-! ## The commands -/

/-- SAMPLENTT (R192). -/
def execSamplentt (pd : PReg) (s : State) : Result := .next (samplenttWith machineXof pd s)

/-- CBD (R196): 64η bytes of BUF. -/
def execCbd (pd : PReg) (eta : BitVec 4) (s : State) : Result :=
  .next (ifLegal (.cbd pd eta) s (retire (s.setPoly pd (samplePolyCbd eta.toNat (s.bufRegion (64 * eta.toNat))))))

/-- PRFCBD (R198). -/
def execPrfcbd (pd : PReg) (eta : BitVec 4) (s : State) : Result := .next (prfcbdWith machineXof pd eta s)

end Sys2Proof.Machine
end

