-- ==== Sys2Proof/Machine/Dispatch.lean ====
section
/-! DEFINITION. One arm per command: the direct call of its meaning. -/

namespace Sys2Proof.Machine

def exec (i : Instr) (s : State) : Host.Outcome State Fault Refusal :=
  match i with
  | .nop => Sys2Proof.Machine.execNop s
  | .zeroize => Sys2Proof.Machine.execZeroize s
  | .bzero => Sys2Proof.Machine.execBzero s
  | .sli sd imm16 => Sys2Proof.Machine.execSli sd imm16 s
  | .smulw sd sa sb => Sys2Proof.Machine.execSmulw sd sa sb s
  | .fadd sd sa sb => Sys2Proof.Machine.execFadd sd sa sb s
  | .fsub sd sa sb => Sys2Proof.Machine.execFsub sd sa sb s
  | .fmul sd sa sb => Sys2Proof.Machine.execFmul sd sa sb s
  | .csubq sd sa => Sys2Proof.Machine.execCsubq sd sa s
  | .bred sd sa => Sys2Proof.Machine.execBred sd sa s
  | .mred sd sa => Sys2Proof.Machine.execMred sd sa s
  | .cget sd pa idx => Sys2Proof.Machine.execCget sd pa idx s
  | .cset pd sa idx => Sys2Proof.Machine.execCset pd sa idx s
  | .ldb sd addr => Sys2Proof.Machine.execLdb sd addr s
  | .stb sa addr => Sys2Proof.Machine.execStb sa addr s
  | .pmov pd pa => Sys2Proof.Machine.execPmov pd pa s
  | .padd pd pa pb => Sys2Proof.Machine.execPadd pd pa pb s
  | .psub pd pa pb => Sys2Proof.Machine.execPsub pd pa pb s
  | .ntt pd pa => Sys2Proof.Machine.execNtt pd pa s
  | .intt pd pa => Sys2Proof.Machine.execIntt pd pa s
  | .pmul pd pa pb => Sys2Proof.Machine.execPmul pd pa pb s
  | .pmac pd pa pb => Sys2Proof.Machine.execPmac pd pa pb s
  | .pzero pd => Sys2Proof.Machine.execPzero pd s
  | .samplentt pd => Sys2Proof.Machine.execSamplentt pd s
  | .cbd pd eta => Sys2Proof.Machine.execCbd pd eta s
  | .prfcbd pd eta => Sys2Proof.Machine.execPrfcbd pd eta s
  | .encode pa d => Sys2Proof.Machine.execEncode pa d s
  | .decode pd d => Sys2Proof.Machine.execDecode pd d s
  | .compress pd pa d => Sys2Proof.Machine.execCompress pd pa d s
  | .decompress pd pa d => Sys2Proof.Machine.execDecompress pd pa d s

end Sys2Proof.Machine
end

