-- ==== Sys2Proof/Machine/HostPort.lean ====
section
/-! DEFINITION. The host port (10_state.md R38 to R42; 20_memory.md R61): the register map, which transactions are held,
what a read returns, what a write does, and whose turn it is. -/

namespace Sys2Proof.Machine

/-- The register map by word index, offset / 4 (R39). -/
def hostReg (addr : BitVec 10) : HostReg :=
  let n := addr.toNat
  if n = 0 then .cmd
  else if n = 1 then .status
  else if n = 2 then .ctrl
  else if n = 3 then .ien
  else if n = 4 then .errcmd
  else if n = 5 then .erridx
  else if n = 6 then .ccnt
  else if n = 7 then .id
  else if h : 8 ≤ n ∧ n < 16 then .scal ⟨n - 8, by omega⟩
  else if h : 128 ≤ n ∧ n < 224 then .bufw ⟨n - 128, by omega⟩
  else .reserved

/-- Buffer word w: four bytes, little-endian (R61). -/
def State.bufWord (s : State) (w : Nat) : Word :=
  BitVec.ofNat 32 ((s.loadByte (4 * w)).toNat + 2 ^ 8 * (s.loadByte (4 * w + 1)).toNat
    + 2 ^ 16 * (s.loadByte (4 * w + 2)).toNat + 2 ^ 24 * (s.loadByte (4 * w + 3)).toNat)

/-- Buffer word w written: byte t of the value goes to BUF[4w + t] (R61). -/
def State.setBufWord (s : State) (w : Nat) (v : Word) : State :=
  (((s.storeByte (4 * w) (v.extractLsb' 0 8)).storeByte (4 * w + 1) (v.extractLsb' 8 8)).storeByte (4 * w + 2)
    (v.extractLsb' 16 8)).storeByte (4 * w + 3) (v.extractLsb' 24 8)

/-- `h_ready`: S0..S7 and the buffer window wait while BUSY = 1, a push waits while the queue is full, nothing else waits
(R40, R41). DEDUCED (log entry 6): a read of CMD is not a push and does not wait. -/
def hostReady (req : HostReq) (s : State) : Bool :=
  match req with
  | .read addr =>
    match hostReg addr with
    | .scal _ => !s.busy
    | .bufw _ => !s.busy
    | _ => true
  | .write addr _ =>
    match hostReg addr with
    | .cmd => decide (s.cmdq.length < Config.cmdqDepth)
    | .scal _ => !s.busy
    | .bufw _ => !s.busy
    | _ => true

/-- `h_err`: only a reserved offset (R42). -/
def hostError (addr : BitVec 10) : Bool := hostReg addr == .reserved

/-- What a read returns; write-only registers and reserved offsets read 0 (R32, R34, R35, R39, R41, R42). -/
def hostRead (addr : BitVec 10) (s : State) : Word :=
  match hostReg addr with
  | .cmd => 0#32
  | .status => s.status
  | .ctrl => 0#32
  | .ien => s.ien.setWidth 32
  | .errcmd => s.errCmd
  | .erridx => s.errIdx
  | .ccnt => s.ccnt
  | .id => Config.idValue
  | .scal i => s.getScal i
  | .bufw w => s.bufWord w
  | .reserved => 0#32

/-- A write of CTRL: SRST wins, else CLRERR, else nothing; bits 31:2 are ignored (R34, R318). -/
def writeCtrl (v : Word) (s : State) : State :=
  if v.getLsbD 1 then resetBlock s
  else if v.getLsbD 0 then clearError s
  else s

/-- What a write does; read-only registers and reserved offsets ignore it (R34, R35, R40, R41, R42, R67). -/
def hostWrite (addr : BitVec 10) (v : Word) (s : State) : State :=
  match hostReg addr with
  | .cmd => { s with cmdq := s.cmdq ++ [v] }
  | .status => s
  | .ctrl => writeCtrl v s
  | .ien => { s with ien := v.setWidth 2 }
  | .errcmd => s
  | .erridx => s
  | .ccnt => s
  | .id => s
  | .scal i => s.setScal i v
  | .bufw w => s.setBufWord w v
  | .reserved => s

/-- A transaction that completes, with the answer on the port (R38). -/
def serve (req : HostReq) (s : State) : State :=
  match req with
  | .read addr => { s with hostReply := .read (hostRead addr s) (hostError addr) }
  | .write addr v => { hostWrite addr v s with hostReply := .wrote (hostError addr) }

/-- The port's turn: the transaction at the head completes, or is held and stays at the head (R38, R70 c). -/
def hostStep (s : State) : State :=
  match s.hostReqs with
  | [] => s
  | req :: rest =>
    if hostReady req s then serve req { s with hostReqs := rest }
    else { s with hostReply := .held }

/-- Whose turn it is, and the state with that turn taken off. With none scheduled, a transaction that can complete does so,
else the sequencer moves. DESIGN CHOICE (log entry 3). -/
def nextTurn (s : State) : Turn × State :=
  match s.turns with
  | t :: ts => (t, { s with turns := ts })
  | [] =>
    match s.hostReqs with
    | [] => (.sequencer, s)
    | req :: _ => if hostReady req s then (.host, s) else (.sequencer, s)

end Sys2Proof.Machine
end

