-- ==== Sys2Proof/Machine/Step.lean ====
section
/-! DEFINITION. One step of the machine: whose turn it is, and what that agent does. -/

namespace Sys2Proof.Machine

/-- The word in execution is run: the command it selects, or ILLEGAL_COMMAND when it selects none (R36, R97, R311). -/
def runWord (w : Word) (s : State) : Host.Outcome State Fault Refusal :=
  match decode w with
  | .ok i => exec i s
  | .error _ => .next (errorEntry .illegalCommand w s)

/-- The sequencer's turn (R36, R37): nothing to run leaves the state as it is (R352). -/
def sequencerStep (s : State) : Host.Outcome State Fault Refusal :=
  match fetch s with
  | none => .next s
  | some (w, t) => runWord w t

/-- One step. -/
def step (s : State) : Host.Outcome State Fault Refusal :=
  match nextTurn s with
  | (.sequencer, t) => sequencerStep t
  | (.pop, t) => .next (popOnly t)
  | (.host, t) => .next (hostStep t)
  | (.hardReset, t) => .next (hardReset t)
  | (.xofPace n, t) => .next { t with xofPace := n }

/-- `s` with a command word, numbered as spec/opcode_table.json numbers it, where the next step takes its command. -/
def State.withFetchWord (s : State) (nbits w : Nat) : State := placeWord s (BitVec.ofNat 32 (w % 2 ^ nbits))

end Sys2Proof.Machine
end

