-- ==== Sys2Proof/Safety.lean ====
section
/-! DEFINITION. The terms in which claims are made: what a command that retires, fails or waits changes and leaves alone,
which commands may write what, and the invariant of the machine. -/

/-- Every coefficient is in [0, q) (R26). -/
abbrev Sys2Proof.Poly.canonical (p : Sys2Proof.Poly) : Prop := ∀ j, j < 256 → p.coeff j < Sys2Proof.Config.q

namespace Sys2Proof

/-! ## Which command may write what (R22, R27, R30, R63, R310, R314) -/

/-- The scalars that a command may write (R22). -/
def Instr.mayWriteScal : Instr → SReg → Bool
  | .nop, _ => false
  | .zeroize, _ => true
  | .bzero, _ => false
  | .sli d _, r => r == d
  | .smulw d _ _, r => r == d
  | .fadd d _ _, r => r == d
  | .fsub d _ _, r => r == d
  | .fmul d _ _, r => r == d
  | .csubq d _, r => r == d
  | .bred d _, r => r == d
  | .mred d _, r => r == d
  | .cget d _ _, r => r == d
  | .cset _ _ _, _ => false
  | .ldb d _, r => r == d
  | .stb _ _, _ => false
  | .pmov _ _, _ => false
  | .padd _ _ _, _ => false
  | .psub _ _ _, _ => false
  | .ntt _ _, _ => false
  | .intt _ _, _ => false
  | .pmul _ _ _, _ => false
  | .pmac _ _ _, _ => false
  | .pzero _, _ => false
  | .samplentt _, _ => false
  | .cbd _ _, _ => false
  | .prfcbd _ _, _ => false
  | .encode _ _, _ => false
  | .decode _ _, _ => false
  | .compress _ _ _, _ => false
  | .decompress _ _ _, _ => false

/-- The polynomial registers that a command may write (R27). -/
def Instr.mayWritePoly : Instr → PReg → Bool
  | .nop, _ => false
  | .zeroize, _ => true
  | .bzero, _ => false
  | .sli _ _, _ => false
  | .smulw _ _ _, _ => false
  | .fadd _ _ _, _ => false
  | .fsub _ _ _, _ => false
  | .fmul _ _ _, _ => false
  | .csubq _ _, _ => false
  | .bred _ _, _ => false
  | .mred _ _, _ => false
  | .cget _ _ _, _ => false
  | .cset d _ _, r => r == d
  | .ldb _ _, _ => false
  | .stb _ _, _ => false
  | .pmov d _, r => r == d
  | .padd d _ _, r => r == d
  | .psub d _ _, r => r == d
  | .ntt d _, r => r == d
  | .intt d _, r => r == d
  | .pmul d _ _, r => r == d
  | .pmac d _ _, r => r == d
  | .pzero d, r => r == d
  | .samplentt d, r => r == d
  | .cbd d _, r => r == d
  | .prfcbd d _, r => r == d
  | .encode _ _, _ => false
  | .decode d _, r => r == d
  | .compress d _ _, r => r == d
  | .decompress d _ _, r => r == d

/-- The bytes of BUF that a command may write (R63). -/
def Instr.mayWriteBuf : Instr → Nat → Bool
  | .nop, _ => false
  | .zeroize, a => decide (a < Config.bufLen)
  | .bzero, a => decide (a < Config.bufLen)
  | .sli _ _, _ => false
  | .smulw _ _ _, _ => false
  | .fadd _ _ _, _ => false
  | .fsub _ _ _, _ => false
  | .fmul _ _ _, _ => false
  | .csubq _ _, _ => false
  | .bred _ _, _ => false
  | .mred _ _, _ => false
  | .cget _ _ _, _ => false
  | .cset _ _ _, _ => false
  | .ldb _ _, _ => false
  | .stb _ addr, a => a == addr.toNat
  | .pmov _ _, _ => false
  | .padd _ _ _, _ => false
  | .psub _ _ _, _ => false
  | .ntt _ _, _ => false
  | .intt _ _, _ => false
  | .pmul _ _ _, _ => false
  | .pmac _ _ _, _ => false
  | .pzero _, _ => false
  | .samplentt _, _ => false
  | .cbd _ _, _ => false
  | .prfcbd _ _, _ => false
  | .encode _ d, a => decide (a < 32 * d.toNat)
  | .decode _ _, _ => false
  | .compress _ _ _, _ => false
  | .decompress _ _ _, _ => false

/-- The commands that read a scalar (R22). -/
def Instr.readsScal : Instr → Bool
  | .nop => false
  | .zeroize => false
  | .bzero => false
  | .sli _ _ => false
  | .smulw _ _ _ => true
  | .fadd _ _ _ => true
  | .fsub _ _ _ => true
  | .fmul _ _ _ => true
  | .csubq _ _ => true
  | .bred _ _ => true
  | .mred _ _ => true
  | .cget _ _ _ => false
  | .cset _ _ _ => true
  | .ldb _ _ => false
  | .stb _ _ => true
  | .pmov _ _ => false
  | .padd _ _ _ => false
  | .psub _ _ _ => false
  | .ntt _ _ => false
  | .intt _ _ => false
  | .pmul _ _ _ => false
  | .pmac _ _ _ => false
  | .pzero _ => false
  | .samplentt _ => false
  | .cbd _ _ => false
  | .prfcbd _ _ => false
  | .encode _ _ => false
  | .decode _ _ => false
  | .compress _ _ _ => false
  | .decompress _ _ _ => false

/-- The one error that a legal command can raise; none for the commands of R314 (R310, R312, R313, R314). -/
def Instr.errorOf : Instr → Option Machine.ErrCode
  | .nop => none
  | .zeroize => none
  | .bzero => none
  | .sli _ _ => none
  | .smulw _ _ _ => none
  | .fadd _ _ _ => some .operandRange
  | .fsub _ _ _ => some .operandRange
  | .fmul _ _ _ => some .operandRange
  | .csubq _ _ => none
  | .bred _ _ => none
  | .mred _ _ => some .operandRange
  | .cget _ _ _ => none
  | .cset _ _ _ => some .operandRange
  | .ldb _ _ => none
  | .stb _ _ => none
  | .pmov _ _ => none
  | .padd _ _ _ => none
  | .psub _ _ _ => none
  | .ntt _ _ => none
  | .intt _ _ => none
  | .pmul _ _ _ => none
  | .pmac _ _ _ => none
  | .pzero _ => none
  | .samplentt _ => none
  | .cbd _ _ => none
  | .prfcbd _ _ => none
  | .encode _ _ => some .invalidCoefficient
  | .decode _ _ => none
  | .compress _ _ _ => none
  | .decompress _ _ _ => some .operandRange

/-- The commands that use the XOF port (R44). -/
def Instr.usesXof : Instr → Bool
  | .nop => false
  | .zeroize => false
  | .bzero => false
  | .sli _ _ => false
  | .smulw _ _ _ => false
  | .fadd _ _ _ => false
  | .fsub _ _ _ => false
  | .fmul _ _ _ => false
  | .csubq _ _ => false
  | .bred _ _ => false
  | .mred _ _ => false
  | .cget _ _ _ => false
  | .cset _ _ _ => false
  | .ldb _ _ => false
  | .stb _ _ => false
  | .pmov _ _ => false
  | .padd _ _ _ => false
  | .psub _ _ _ => false
  | .ntt _ _ => false
  | .intt _ _ => false
  | .pmul _ _ _ => false
  | .pmac _ _ _ => false
  | .pzero _ => false
  | .samplentt _ => true
  | .cbd _ _ => false
  | .prfcbd _ _ => true
  | .encode _ _ => false
  | .decode _ _ => false
  | .compress _ _ _ => false
  | .decompress _ _ _ => false

end Sys2Proof

namespace Sys2Proof.Machine

/-! ## Frames -/

/-- All scalars are as before. -/
def SameScalars (s t : State) : Prop := ∀ r, t.getScal r = s.getScal r

/-- All scalars but one are as before. -/
def SameScalarsBut (d : SReg) (s t : State) : Prop := ∀ r, r ≠ d → t.getScal r = s.getScal r

/-- All polynomial registers are as before. -/
def SamePolys (s t : State) : Prop := ∀ r, t.getPoly r = s.getPoly r

/-- All polynomial registers but one are as before. -/
def SamePolysBut (d : PReg) (s t : State) : Prop := ∀ r, r ≠ d → t.getPoly r = s.getPoly r

/-- Every byte of BUF reads as before. -/
def SameBuf (s t : State) : Prop := ∀ a, t.loadByte a = s.loadByte a

/-- What stands outside the block is as before. -/
structure SameOutside (s t : State) : Prop where
  turns : t.turns = s.turns
  hostReqs : t.hostReqs = s.hostReqs
  hostReply : t.hostReply = s.hostReply
  xofPace : t.xofPace = s.xofPace

/-- The command retired: CCNT advanced by one modulo 2^32, SEQ is IDLE, no XOF session is open; the error registers, IEN and
the queue are as before (R36). Scalars, polynomials and BUF are for the claim to say. -/
structure Retired (s t : State) : Prop where
  ccnt : t.ccnt = s.ccnt + 1#32
  seq : t.seq = .idle
  xof : t.xof = none
  err : t.err = s.err
  errCmd : t.errCmd = s.errCmd
  errIdx : t.errIdx = s.errIdx
  ien : t.ien = s.ien
  cmdq : t.cmdq = s.cmdq
  outside : SameOutside s t

/-- The command word `w` failed with `code`: error entry and nothing else (R316). -/
structure Failed (code : ErrCode) (w : Word) (s t : State) : Prop where
  scal : SameScalars s t
  poly : SamePolys s t
  buf : SameBuf s t
  err : t.err = code
  errCmd : t.errCmd = w
  errIdx : t.errIdx = s.ccnt
  ccnt : t.ccnt = s.ccnt
  seq : t.seq = .error
  xof : t.xof = none
  ien : t.ien = s.ien
  cmdq : t.cmdq = s.cmdq
  outside : SameOutside s t

/-- The command word `w` is still in execution, with an XOF session open on which `n` bytes were pulled, and has written
nothing (R45, R193, R322). -/
structure Waits (w : Word) (mode : XofMode) (msg : List Byte) (n : Nat) (s t : State) : Prop where
  scal : SameScalars s t
  poly : SamePolys s t
  buf : SameBuf s t
  seq : t.seq = .exec w
  xof : t.xof = some ⟨mode, msg, n⟩
  err : t.err = s.err
  errCmd : t.errCmd = s.errCmd
  errIdx : t.errIdx = s.errIdx
  ccnt : t.ccnt = s.ccnt
  ien : t.ien = s.ien
  cmdq : t.cmdq = s.cmdq
  outside : SameOutside s t

/-- A reset comes in the next step: the hardware reset, or a completed CTRL write with SRST (R34, R350). -/
def resetsNext (s : State) : Prop :=
  (nextTurn s).1 = .hardReset
    ∨ ((nextTurn s).1 = .host ∧ ∃ v rest, s.hostReqs = .write 2#10 v :: rest ∧ v.getLsbD 1 = true)

/-- The command in execution, on the session that it opens with `mode` on the first `len` bytes of BUF, hangs on: it stays
in EXEC on the same stream, nothing is written and nothing popped; a push may have landed behind it (R322). -/
structure HangsOn (mode : XofMode) (len : Nat) (s t : State) : Prop where
  seq : t.seq = s.seq
  scal : SameScalars s t
  poly : SamePolys s t
  buf : SameBuf s t
  ccnt : t.ccnt = s.ccnt
  err : t.err = s.err
  errCmd : t.errCmd = s.errCmd
  errIdx : t.errIdx = s.errIdx
  sessionMode : (sessionOf mode len t).mode = (sessionOf mode len s).mode
  sessionMsg : (sessionOf mode len t).msg = (sessionOf mode len s).msg
  pulledFrom : (sessionOf mode len s).pulled ≤ (sessionOf mode len t).pulled
  pulledTo : (sessionOf mode len t).pulled ≤ (sessionOf mode len s).pulled + s.xofPace
  cmdq : t.cmdq = s.cmdq ∨ ∃ w, t.cmdq = s.cmdq ++ [w]
  pace : t.xofPace = s.xofPace ∨ (nextTurn s).1 = .xofPace t.xofPace

/-! ## What one command does, in full -/

/-- `i` completes: it writes the integer v to one scalar and retires; every other register and BUF are as before. -/
def WritesScal (i : Instr) (sd : SReg) (v : Nat) (s : State) : Prop :=
  ∃ t, exec i s = .next t ∧ t.scalVal sd = v ∧ SameScalarsBut sd s t ∧ SamePolys s t ∧ SameBuf s t ∧ Retired s t

/-- `i` completes: it writes the 256 integers f 0 .. f 255 to one polynomial register and retires; every other register and
BUF are as before. -/
def WritesPoly (i : Instr) (pd : PReg) (f : Nat → Nat) (s : State) : Prop :=
  ∃ t, exec i s = .next t ∧ (∀ j, j < 256 → (t.getPoly pd).coeff j = f j) ∧ SamePolysBut pd s t ∧ SameScalars s t
    ∧ SameBuf s t ∧ Retired s t

/-- `i` completes: BUF reads as f and the command retires; scalars and polynomial registers are as before. -/
def WritesBuf (i : Instr) (f : Nat → Byte) (s : State) : Prop :=
  ∃ t, exec i s = .next t ∧ (∀ a, t.loadByte a = f a) ∧ SameScalars s t ∧ SamePolys s t ∧ Retired s t

/-- `i` fails with `code` and writes nothing else than the error registers. -/
def FailsWith (i : Instr) (code : ErrCode) (s : State) : Prop :=
  ∃ t, exec i s = .next t ∧ Failed code (encode i) s t

/-- The word w is the encoding of i, and decodes to it. -/
def Encodes (i : Instr) (w : Word) : Prop := encode i = w ∧ decode w = .ok i

/-! ## BUF as bits and host addresses -/

/-- Bit t of BytesToBits(BUF): bit (t mod 8) of byte t / 8 (R9, R62). -/
def State.bufBit (s : State) (t : Nat) : Bool := (s.loadByte (t / 8)).getLsbD (t % 8)

/-- The word indices of S0..S7 and BUFW0..BUFW95, whose accesses wait while BUSY = 1 (R39, R41). -/
def gatedIndex (n : Nat) : Prop := (8 ≤ n ∧ n < 16) ∨ (128 ≤ n ∧ n < 224)

/-- The word indices that name no register (R39, R42). -/
def reservedIndex (n : Nat) : Prop := (16 ≤ n ∧ n < 128) ∨ 224 ≤ n

/-! ## Reset -/

/-- Every piece of the block's state has its value of R47. -/
structure ResetValues (t : State) : Prop where
  scal : ∀ r, t.getScal r = 0#32
  poly : ∀ r j, j < 256 → (t.getPoly r).coeff j = 0
  buf : ∀ a, t.loadByte a = 0#8
  cmdq : t.cmdq = []
  seq : t.seq = .idle
  err : t.err = .none
  errCmd : t.errCmd = 0#32
  errIdx : t.errIdx = 0#32
  ccnt : t.ccnt = 0#32
  ien : t.ien = 0#2
  irq : t.irq = false
  xof : t.xof = none
  status : t.status = 0#32
  id : hostRead 7#10 t = 0x4B504131#32

/-! ## The invariant -/

/-- An open XOF session belongs to the SAMPLENTT or PRFCBD in execution, is on the bytes of BUF, and has not yet delivered
all that the command needs (R44, R45). -/
def SessionOk (s : State) : Prop :=
  ∀ x, s.xof = some x → ∃ w, s.seq = .exec w ∧
    ((∃ pd, decode w = .ok (.samplentt pd) ∧ x.mode = .shake128 ∧ x.msg = s.bufRegion 34
        ∧ sampleNttDone (machineXof .shake128 x.msg) x.pulled = false)
      ∨ (∃ pd eta, decode w = .ok (.prfcbd pd eta) ∧ x.mode = .shake256 ∧ x.msg = s.bufRegion 33
        ∧ x.pulled < 64 * eta.toNat))

/-- What holds at reset and is kept by every step. -/
structure Invariant (s : State) : Prop where
  /-- R26 -/
  poly : ∀ r, (s.getPoly r).canonical
  /-- the canonical form of BUF -/
  buf : s.buf.wf = true
  /-- R37 -/
  errState : s.seq = .error ↔ s.err ≠ .none
  /-- R31 -/
  queue : s.cmdq.length ≤ Config.cmdqDepth
  /-- R45 -/
  session : SessionOk s

end Sys2Proof.Machine
end

