-- ==== Sys2Proof/Certificates/Slice0/Obligations.lean ====
section
/-! DEFINITION. The statements about the machine, from the numbered rules of spec/. A statement about the XOF commands holds
for every XOF function X; `machineXof` is the one of Config. The fields `turns`, `hostReqs` and `xofPace`, by which a
statement says that an event happens, are the model's (log entries 3, 4 and 15). -/

open Sys2Proof Sys2Proof.Machine

/-! ## Reset and the invariant -/

/-- R47: the state after reset, after a hardware reset and after a soft reset. -/
def Obligations.ResetsGiveEveryResetValue : Prop :=
  ResetValues State.reset
  ∧ (∀ s ts, s.turns = .hardReset :: ts → ∃ t, step s = .next t ∧ ResetValues t)
  ∧ (∀ s ts v rest, s.turns = .host :: ts → s.hostReqs = .write 2#10 v :: rest → v.getLsbD 1 = true →
      ∃ t, step s = .next t ∧ ResetValues t)

/-- The invariant holds at reset (R26, R31, R37, R45 at the state of R47). -/
def Obligations.ResetMeetsTheInvariant : Prop := Invariant State.reset

/-- From every state that meets the invariant a step gives a state that meets it: canonical polynomials (R26), BUF in its
canonical form, ERROR exactly with an error code (R37), the queue within its depth (R31), and an open XOF session only
inside SAMPLENTT or PRFCBD (R45). -/
def Obligations.EveryStepKeepsTheInvariant : Prop := ∀ s t, Invariant s → step s = .next t → Invariant t

/-! ## Encoding -/

/-- Decoding the word of a well-formed command gives it back, for all thirty and every operand value. -/
def Obligations.DecodeOfEncodeIsTheCommand : Prop := ∀ i : Instr, i.wellFormed = true → decode (encode i) = .ok i

/-- A word that decodes is the word of its command, which is well formed: no bit is ignored. -/
def Obligations.EncodeOfDecodeIsTheWord : Prop :=
  ∀ (w : Word) (i : Instr), decode w = .ok i → i.wellFormed = true ∧ encode i = w

/-- R95: a word decodes exactly when a row of the table of R96 selects it by mask, match and range, and the row is that of
the command decoded and no other. -/
def Obligations.DecodeAgreesWithMaskAndMatch : Prop :=
  ∀ w : Word, ((∃ i, decode w = .ok i) ↔ ∃ r ∈ opcodeTable, r.selects w)
    ∧ ∀ i, decode w = .ok i → ∀ r ∈ opcodeTable, r.selects w ↔ r.mnemonic = i.mnemonic

/-- The example words of R101 decode to the commands written beside them. -/
def Obligations.ExampleWordsDecode : Prop :=
  decode 0x00000000#32 = .ok .nop ∧ decode 0x10000D01#32 = .ok (.sli 0 0x0D01#16)
  ∧ decode 0x12123000#32 = .ok (.fadd 1 2 3) ∧ decode 0x16440000#32 = .ok (.bred 4 4)
  ∧ decode 0x181200FF#32 = .ok (.cget 1 2 255#8) ∧ decode 0x19700001#32 = .ok (.cset 7 0 1#8)
  ∧ decode 0x1A30017F#32 = .ok (.ldb 3 383#9) ∧ decode 0x1B030000#32 = .ok (.stb 3 0#9)
  ∧ decode 0x23100000#32 = .ok (.ntt 1 0) ∧ decode 0x26201000#32 = .ok (.pmac 2 0 1)
  ∧ decode 0x30500000#32 = .ok (.samplentt 5) ∧ decode 0x31300002#32 = .ok (.cbd 3 2#4)
  ∧ decode 0x4002000C#32 = .ok (.encode 2 12#4) ∧ decode 0x4100000C#32 = .ok (.decode 0 12#4)
  ∧ decode 0x4210000A#32 = .ok (.compress 1 0 10#4)

/-! ## The sequencer -/

/-- When the sequencer has the turn and the word it takes (the head of the queue in IDLE, the word in execution in EXEC)
decodes to i, the step is exec of i at the state in which that word is in execution. In ERROR, or IDLE with an empty queue,
the sequencer's turn changes nothing. Whose turn it is, is data of the state (log entry 3). -/
def Obligations.StepRunsTheDecodedCommand : Prop :=
  ∀ (s t : State) (w : Word) (i : Instr), nextTurn s = (.sequencer, t) → decode w = .ok i →
    (∀ rest, t.seq = .idle → t.cmdq = w :: rest → step s = exec i { t with cmdq := rest, seq := .exec w })
    ∧ (t.seq = .exec w → step s = exec i t)
    ∧ ((t.seq = .idle ∧ t.cmdq = []) ∨ t.seq = .error → step s = .next t)

/-- R36: popping a command in one step and executing it in the next gives what doing both in one step gives (the model's
choice of log entry 3, which lets a host transaction fall between the two, changes no result of the sequencer). -/
def Obligations.PoppingFirstChangesNothing : Prop :=
  ∀ (s t : State) (ts : List Turn), s.turns = .pop :: .sequencer :: ts → step s = .next t →
    step t = step { s with turns := .sequencer :: ts }

/-- R311: a word that selects no command, popped, fails with ILLEGAL_COMMAND and no other effect; whether it is illegal
depends on the word alone. -/
def Obligations.IllegalWordFails : Prop :=
  ∀ (s t : State) (w : Word) (e : DecodeError) (rest : List Word), nextTurn s = (.sequencer, t) → t.seq = .idle →
    t.cmdq = w :: rest → decode w = .error e →
    ∃ u, step s = .next u ∧ Failed .illegalCommand w { t with cmdq := rest } u

/-- R93, R97, R172, R199: a command with an address from 384 on, a d outside 1..12 (ENCODE, DECODE) or 1..11 (COMPRESS,
DECOMPRESS), or an η other than 2 and 3 has no legal word. That exec of such a term, which no word decodes to, fails with
ILLEGAL_COMMAND whatever the registers hold is the model's choice (log entry 10, DESIGN CHOICE). -/
def Obligations.ImmediatesOutOfRangeAreIllegal : Prop :=
  ∀ (i : Instr) (s : State),
    (i.wellFormed = false ↔
      (∃ r addr, (i = .ldb r addr ∨ i = .stb r addr) ∧ 384 ≤ addr.toNat)
      ∨ (∃ r d, (i = .encode r d ∨ i = .decode r d) ∧ (d.toNat = 0 ∨ 13 ≤ d.toNat))
      ∨ (∃ r p d, (i = .compress r p d ∨ i = .decompress r p d) ∧ (d.toNat = 0 ∨ 12 ≤ d.toNat))
      ∨ (∃ r eta, (i = .cbd r eta ∨ i = .prfcbd r eta) ∧ eta.toNat ≠ 2 ∧ eta.toNat ≠ 3))
    ∧ (i.wellFormed = false → (∃ e, decode (encode i) = .error e) ∧ FailsWith i .illegalCommand s)

/-- The machine never stops: every command and every step answers a next state. It is the model's reading of R97, R316 and
R322 that nothing stops the machine (log entry 18, DEDUCED), and its choice that an ill-formed term fails with
ILLEGAL_COMMAND (log entry 10, DESIGN CHOICE). -/
def Obligations.EveryStepAnswersANextState : Prop :=
  (∀ (i : Instr) (s : State), ∃ t, exec i s = .next t) ∧ ∀ s : State, ∃ t, step s = .next t

/-! ## Field arithmetic -/

/-- R133, R134, R135: FADD, FSUB, FMUL on canonical operands write the sum, difference, product modulo q; on any other
operand they fail with OPERAND_RANGE. -/
def Obligations.FieldCommandsComputeModuloQ : Prop :=
  ∀ (s : State) (sd sa sb : SReg),
    (Encodes (.fadd sd sa sb) (formatR 0x12 sd sa sb 0) ∧ Encodes (.fsub sd sa sb) (formatR 0x13 sd sa sb 0)
      ∧ Encodes (.fmul sd sa sb) (formatR 0x14 sd sa sb 0))
    ∧ (s.scalVal sa < 3329 → s.scalVal sb < 3329 →
        WritesScal (.fadd sd sa sb) sd ((s.scalVal sa + s.scalVal sb) % 3329) s
        ∧ WritesScal (.fsub sd sa sb) sd (((s.scalVal sa : Int) - s.scalVal sb) % 3329).toNat s
        ∧ WritesScal (.fmul sd sa sb) sd (s.scalVal sa * s.scalVal sb % 3329) s)
    ∧ (3329 ≤ s.scalVal sa ∨ 3329 ≤ s.scalVal sb →
        FailsWith (.fadd sd sa sb) .operandRange s ∧ FailsWith (.fsub sd sa sb) .operandRange s
        ∧ FailsWith (.fmul sd sa sb) .operandRange s)

/-- R132, R136, R137: SMULW writes the product modulo 2^32, CSUBQ makes one conditional subtraction of q, BRED reduces
modulo q; all accept every 32-bit value. -/
def Obligations.ScalarReductionsAcceptEveryValue : Prop :=
  ∀ (s : State) (sd sa sb : SReg),
    Encodes (.smulw sd sa sb) (formatR 0x11 sd sa sb 0) ∧ Encodes (.csubq sd sa) (formatR 0x15 sd sa 0 0)
    ∧ Encodes (.bred sd sa) (formatR 0x16 sd sa 0 0)
    ∧ WritesScal (.smulw sd sa sb) sd (s.scalVal sa * s.scalVal sb % 2 ^ 32) s
    ∧ WritesScal (.csubq sd sa) sd (if 3329 ≤ s.scalVal sa then s.scalVal sa - 3329 else s.scalVal sa) s
    ∧ WritesScal (.bred sd sa) sd (s.scalVal sa % 3329) s

/-- R138: MRED writes a · 169 mod q, which is the r with r · 2^16 = a mod q, below q · 2^16; from there on it fails. -/
def Obligations.MontgomeryReductionDividesByR : Prop :=
  ∀ (s : State) (sd sa : SReg),
    Encodes (.mred sd sa) (formatR 0x17 sd sa 0 0)
    ∧ (s.scalVal sa < 218169344 → WritesScal (.mred sd sa) sd (s.scalVal sa * 169 % 3329) s
        ∧ (s.scalVal sa * 169 % 3329) * 2 ^ 16 % 3329 = s.scalVal sa % 3329)
    ∧ (218169344 ≤ s.scalVal sa → FailsWith (.mred sd sa) .operandRange s)

/-- R128: the reference Barrett datapath computes a mod q for every 32-bit a, with the remainder before the last
subtraction below 2q. -/
def Obligations.BarrettDatapathIsExact : Prop :=
  ∀ a, a < 2 ^ 32 → barrettDatapath a = a % 3329 ∧ a * 1290167 / 2 ^ 32 * 3329 ≤ a
    ∧ a - a * 1290167 / 2 ^ 32 * 3329 < 2 * 3329

/-- R130: the reference Montgomery datapath computes a · 169 mod q for every a below q · 2^16; its sum is a multiple of
2^16. -/
def Obligations.MontgomeryDatapathIsExact : Prop :=
  ∀ a, a < 218169344 → montgomeryDatapath a = a * 169 % 3329
    ∧ (a + a * 3327 % 2 ^ 16 * 3329) % 2 ^ 16 = 0 ∧ (a + a * 3327 % 2 ^ 16 * 3329) / 2 ^ 16 < 2 * 3329

/-! ## Moves, BUF bytes, control -/

/-- R255, R256: SLI writes its immediate, CGET one coefficient, both zero-extended; the coefficient of a canonical register
is canonical. -/
def Obligations.ScalarLoadsZeroExtend : Prop :=
  ∀ (s : State) (sd : SReg) (pa : PReg) (imm16 : BitVec 16) (idx : BitVec 8),
    Encodes (.sli sd imm16) (formatI 0x10 sd imm16.toNat) ∧ Encodes (.cget sd pa idx) (formatR 0x18 sd pa 0 idx.toNat)
    ∧ WritesScal (.sli sd imm16) sd imm16.toNat s
    ∧ WritesScal (.cget sd pa idx) sd ((s.getPoly pa).coeff idx.toNat) s
    ∧ ((s.getPoly pa).canonical → (s.getPoly pa).coeff idx.toNat < 3329)

/-- R257: CSET writes one coefficient and leaves the other 255; a scalar that is not canonical fails. -/
def Obligations.CoefficientWriteChecksTheScalar : Prop :=
  ∀ (s : State) (pd : PReg) (sa : SReg) (idx : BitVec 8),
    Encodes (.cset pd sa idx) (formatR 0x19 pd sa 0 idx.toNat)
    ∧ (s.scalVal sa < 3329 →
        WritesPoly (.cset pd sa idx) pd (fun j => if j = idx.toNat then s.scalVal sa else (s.getPoly pd).coeff j) s)
    ∧ (3329 ≤ s.scalVal sa → FailsWith (.cset pd sa idx) .operandRange s)

/-- R258, R259: LDB reads one byte zero-extended, STB writes the low byte of a scalar and no other byte. -/
def Obligations.ByteLoadsAndStores : Prop :=
  ∀ (s : State) (r : SReg) (addr : BitVec 9), s.buf.wf = true → addr.toNat < 384 →
    Encodes (.ldb r addr) (formatR 0x1A r 0 0 addr.toNat) ∧ Encodes (.stb r addr) (formatR 0x1B 0 r 0 addr.toNat)
    ∧ WritesScal (.ldb r addr) r (s.loadByte addr.toNat).toNat s
    ∧ WritesBuf (.stb r addr) (fun a => if a = addr.toNat then (s.getScal r).extractLsb' 0 8 else s.loadByte a) s

/-- R252, R253, R254: NOP only advances CCNT, BZERO clears BUF, ZEROIZE clears scalars, polynomials and BUF. -/
def Obligations.ControlCommandsClearWhatTheyName : Prop :=
  ∀ s : State,
    Encodes .nop 0x00000000#32 ∧ Encodes .zeroize 0x01000000#32 ∧ Encodes .bzero 0x02000000#32
    ∧ (∃ t, exec .nop s = .next t ∧ SameScalars s t ∧ SamePolys s t ∧ SameBuf s t ∧ Retired s t)
    ∧ (∃ t, exec .zeroize s = .next t ∧ (∀ r, t.getScal r = 0#32)
        ∧ (∀ r j, j < 256 → (t.getPoly r).coeff j = 0) ∧ (∀ a, t.loadByte a = 0#8) ∧ Retired s t)
    ∧ WritesBuf .bzero (fun _ => 0#8) s

/-! ## Polynomial arithmetic -/

/-- R210, R213: PMOV copies all 256 coefficients, PZERO writes zeros. -/
def Obligations.PolynomialMoveAndClear : Prop :=
  ∀ (s : State) (pd pa : PReg),
    Encodes (.pmov pd pa) (formatR 0x20 pd pa 0 0) ∧ Encodes (.pzero pd) (formatR 0x27 pd 0 0 0)
    ∧ WritesPoly (.pmov pd pa) pd (fun j => (s.getPoly pa).coeff j) s
    ∧ WritesPoly (.pzero pd) pd (fun _ => 0) s

/-- R211, R212: PADD and PSUB are coefficient-wise modulo q, whatever registers coincide. -/
def Obligations.PolynomialAddAndSubtract : Prop :=
  ∀ (s : State) (pd pa pb : PReg),
    Encodes (.padd pd pa pb) (formatR 0x21 pd pa pb 0) ∧ Encodes (.psub pd pa pb) (formatR 0x22 pd pa pb 0)
    ∧ WritesPoly (.padd pd pa pb) pd (fun j => ((s.getPoly pa).coeff j + (s.getPoly pb).coeff j) % 3329) s
    ∧ WritesPoly (.psub pd pa pb) pd
        (fun j => ((((s.getPoly pa).coeff j : Int) - (s.getPoly pb).coeff j) % 3329).toNat) s

/-- R214, R216: NTT writes the residues modulo X² − γ[i]: the sums over t < 128 of f[2t + e] · γ[i]^t at index 2i + e. The
seven layers of R215, by which the model computes it, are proved equal to this definition. -/
def Obligations.ForwardTransformGivesTheResidues : Prop :=
  ∀ (s : State) (pd pa : PReg),
    Encodes (.ntt pd pa) (formatR 0x23 pd pa 0 0)
    ∧ WritesPoly (.ntt pd pa) pd
        (fun j => (∑ t ∈ Finset.range 128, (s.getPoly pa).coeff (2 * t + j % 2) * gamma (j / 2) ^ t) % 3329) s

/-- R220 in closed form: INTT writes 128^-1 times the sums over i < 128 of g[2i + e] · γ[i]^-t at index 2t + e, γ[i] being a
256th root of unity. -/
def Obligations.InverseTransformSumsTheResidues : Prop :=
  ∀ (s : State) (pd pa : PReg),
    Encodes (.intt pd pa) (formatR 0x24 pd pa 0 0)
    ∧ WritesPoly (.intt pd pa) pd
        (fun j => (3303 * ∑ i ∈ Finset.range 128,
          (s.getPoly pa).coeff (2 * i + j % 2) * gamma i ^ (256 - j / 2)) % 3329) s

/-- R221: INTT after NTT, and NTT after INTT, give back every canonical polynomial. -/
def Obligations.TransformsAreInverse : Prop :=
  ∀ (s t u : State) (pa pb pc : PReg), (s.getPoly pa).canonical →
    (exec (.ntt pb pa) s = .next t → exec (.intt pc pb) t = .next u → u.getPoly pc = s.getPoly pa)
    ∧ (exec (.intt pb pa) s = .next t → exec (.ntt pc pb) t = .next u → u.getPoly pc = s.getPoly pa)

/-- R217: both transforms commute with PADD and PSUB, and the NTT with a scale modulo q. -/
def Obligations.TransformsAreLinear : Prop :=
  ∀ (f g : Poly) (c : Nat),
    nttPoly (addPoly f g) = addPoly (nttPoly f) (nttPoly g) ∧ nttPoly (subPoly f g) = subPoly (nttPoly f) (nttPoly g)
    ∧ nttPoly (scalePoly c f) = scalePoly c (nttPoly f)
    ∧ inttPoly (addPoly f g) = addPoly (inttPoly f) (inttPoly g)
    ∧ inttPoly (subPoly f g) = subPoly (inttPoly f) (inttPoly g)

/-- R223, R225: PMUL writes pair i as (a0·b0 + a1·b1·γ[i], a0·b1 + a1·b0) modulo q. -/
def Obligations.PointwiseProductIsModuloXSquaredMinusGamma : Prop :=
  ∀ (s : State) (pd pa pb : PReg),
    Encodes (.pmul pd pa pb) (formatR 0x25 pd pa pb 0)
    ∧ WritesPoly (.pmul pd pa pb) pd
        (fun j =>
          let a0 := (s.getPoly pa).coeff (2 * (j / 2))
          let a1 := (s.getPoly pa).coeff (2 * (j / 2) + 1)
          let b0 := (s.getPoly pb).coeff (2 * (j / 2))
          let b1 := (s.getPoly pb).coeff (2 * (j / 2) + 1)
          if j % 2 = 0 then (a0 * b0 + a1 * b1 * gamma (j / 2)) % 3329 else (a0 * b1 + a1 * b0) % 3329) s

/-- R228: PMAC adds the product of PMUL to its destination, and gives what PMUL followed by PADD gives. -/
def Obligations.MultiplyAccumulateIsMultiplyThenAdd : Prop :=
  ∀ (s t u : State) (pd pa pb px : PReg),
    Encodes (.pmac pd pa pb) (formatR 0x26 pd pa pb 0)
    ∧ WritesPoly (.pmac pd pa pb) pd
        (fun j =>
          let a0 := (s.getPoly pa).coeff (2 * (j / 2))
          let a1 := (s.getPoly pa).coeff (2 * (j / 2) + 1)
          let b0 := (s.getPoly pb).coeff (2 * (j / 2))
          let b1 := (s.getPoly pb).coeff (2 * (j / 2) + 1)
          ((s.getPoly pd).coeff j
            + if j % 2 = 0 then a0 * b0 + a1 * b1 * gamma (j / 2) else a0 * b1 + a1 * b0) % 3329) s
    ∧ (px ≠ pd → exec (.pmul px pa pb) s = .next t → exec (.padd pd pd px) t = .next u →
        WritesPoly (.pmac pd pa pb) pd (fun j => (u.getPoly pd).coeff j) s)

/-- R226: NTT, NTT, PMUL, INTT multiply in Z_q[X]/(X^256 + 1): schoolbook multiplication with X^256 = −1. -/
def Obligations.TransformedProductIsTheRingProduct : Prop :=
  ∀ (s s1 s2 s3 s4 : State) (pa pb pc pd : PReg), pc ≠ pb → pc ≠ pd →
    exec (.ntt pc pa) s = .next s1 → exec (.ntt pd pb) s1 = .next s2 → exec (.pmul pc pc pd) s2 = .next s3 →
    exec (.intt pc pc) s3 = .next s4 →
    ∀ k, k < 256 → ((s4.getPoly pc).coeff k : Int)
      = ((∑ i ∈ Finset.range 256, ∑ j ∈ Finset.range 256,
          if i + j = k then ((s.getPoly pa).coeff i * (s.getPoly pb).coeff j : Int)
          else if i + j = k + 256 then -((s.getPoly pa).coeff i * (s.getPoly pb).coeff j : Int) else 0) % 3329)

/-! ## Codecs -/

/-- R161, R164: ENCODE of coefficients below the bound writes bit j of coefficient i at bit i·d + j of BUF[0 .. 32d−1] and
leaves the other bytes; with some coefficient at or above the bound it fails with INVALID_COEFFICIENT and writes nothing. -/
def Obligations.EncodeWritesThePackedBits : Prop :=
  ∀ (s : State) (pa : PReg) (d : BitVec 4), s.buf.wf = true → 1 ≤ d.toNat → d.toNat ≤ 12 →
    Encodes (.encode pa d) (formatR 0x40 0 pa 0 d.toNat)
    ∧ ((∀ i, i < 256 → (s.getPoly pa).coeff i < if d.toNat = 12 then 3329 else 2 ^ d.toNat) →
      ∃ t, exec (.encode pa d) s = .next t
        ∧ (∀ i j, i < 256 → j < d.toNat → t.bufBit (i * d.toNat + j) = ((s.getPoly pa).coeff i).testBit j)
        ∧ (∀ a, 32 * d.toNat ≤ a → t.loadByte a = s.loadByte a)
        ∧ SameScalars s t ∧ SamePolys s t ∧ Retired s t)
    ∧ ((∃ i, i < 256 ∧ (if d.toNat = 12 then 3329 else 2 ^ d.toNat) ≤ (s.getPoly pa).coeff i) →
      FailsWith (.encode pa d) .invalidCoefficient s)

/-- R162, R167: DECODE reads coefficient i from bits i·d .. i·d + d − 1 of BUF, modulo q when d = 12, and never fails. -/
def Obligations.DecodeReadsThePackedBits : Prop :=
  ∀ (s : State) (pd : PReg) (d : BitVec 4), 1 ≤ d.toNat → d.toNat ≤ 12 →
    Encodes (.decode pd d) (formatR 0x41 pd 0 0 d.toNat)
    ∧ WritesPoly (.decode pd d) pd
        (fun i =>
          let v := ∑ j ∈ Finset.range d.toNat, (s.bufBit (i * d.toNat + j)).toNat * 2 ^ j
          if d.toNat = 12 then v % 3329 else v) s

/-- R163, first half: DECODE after ENCODE with the same d gives back every polynomial that ENCODE accepts. -/
def Obligations.DecodeAfterEncodeIsTheIdentity : Prop :=
  ∀ (s : State) (pa pd : PReg) (d : BitVec 4), s.buf.wf = true → 1 ≤ d.toNat → d.toNat ≤ 12 →
    (∀ i, i < 256 → (s.getPoly pa).coeff i < if d.toNat = 12 then 3329 else 2 ^ d.toNat) →
    ∃ t u, exec (.encode pa d) s = .next t ∧ exec (.decode pd d) t = .next u ∧ u.getPoly pd = s.getPoly pa

/-- R163, second half, and the modulus check of R168: ENCODE after DECODE never fails; it leaves BUF as it was for d < 12,
and for d = 12 exactly when every 12-bit field of BUF is below q. -/
def Obligations.EncodeAfterDecodeIsTheModulusCheck : Prop :=
  ∀ (s : State) (pd : PReg) (d : BitVec 4), s.buf.wf = true → 1 ≤ d.toNat → d.toNat ≤ 12 →
    ∃ t u, exec (.decode pd d) s = .next t ∧ exec (.encode pd d) t = .next u ∧ Retired t u
      ∧ (SameBuf s u ↔ (d.toNat = 12 →
          ∀ k, k < 256 → ∑ j ∈ Finset.range 12, (s.bufBit (12 * k + j)).toNat * 2 ^ j < 3329))

/-- R170, R173: COMPRESS writes the nearest integer to x · 2^d / q, modulo 2^d, for each coefficient. -/
def Obligations.CompressRoundsToNearest : Prop :=
  ∀ (s : State) (pd pa : PReg) (d : BitVec 4), 1 ≤ d.toNat → d.toNat ≤ 11 →
    Encodes (.compress pd pa d) (formatR 0x42 pd pa 0 d.toNat)
    ∧ WritesPoly (.compress pd pa d) pd
        (fun j => (⌊((s.getPoly pa).coeff j : ℚ) * 2 ^ d.toNat / 3329 + 1 / 2⌋).toNat % 2 ^ d.toNat) s

/-- R175, R176: DECOMPRESS writes the nearest integer to y · q / 2^d for coefficients below 2^d; a larger one fails with
OPERAND_RANGE before any write. -/
def Obligations.DecompressRoundsToNearest : Prop :=
  ∀ (s : State) (pd pa : PReg) (d : BitVec 4), 1 ≤ d.toNat → d.toNat ≤ 11 →
    Encodes (.decompress pd pa d) (formatR 0x43 pd pa 0 d.toNat)
    ∧ ((∀ i, i < 256 → (s.getPoly pa).coeff i < 2 ^ d.toNat) →
        WritesPoly (.decompress pd pa d) pd
          (fun j => (⌊((s.getPoly pa).coeff j : ℚ) * 3329 / 2 ^ d.toNat + 1 / 2⌋).toNat) s)
    ∧ ((∃ i, i < 256 ∧ 2 ^ d.toNat ≤ (s.getPoly pa).coeff i) → FailsWith (.decompress pd pa d) .operandRange s)

/-- R177: the centred difference between Decompress_d(Compress_d(x)) and x is at most the listed maximum for d, some x
attains it, and it is at most ⌈q / 2^(d+1)⌉, less by one exactly for d ≤ 7 and d = 9. -/
def Obligations.CompressionErrorIsBounded : Prop :=
  ∀ d bound, (d, bound) ∈ [(1, 832), (2, 416), (3, 208), (4, 104), (5, 52), (6, 26), (7, 13), (8, 7), (9, 3), (10, 2),
      (11, 1)] →
    (∀ x, x < 3329 →
      (((decompressCoeff d (compressCoeff d x) : Int) - x + 1664) % 3329 - 1664).natAbs ≤ bound)
    ∧ (∃ x, x < 3329 ∧
      (((decompressCoeff d (compressCoeff d x) : Int) - x + 1664) % 3329 - 1664).natAbs = bound)
    ∧ bound ≤ (3329 + 2 ^ (d + 1) - 1) / 2 ^ (d + 1)
    ∧ (bound + 1 = (3329 + 2 ^ (d + 1) - 1) / 2 ^ (d + 1) ↔ d ≤ 7 ∨ d = 9)

/-- R163, R177 and R312 together, the path of a ciphertext: COMPRESS then ENCODE with the same d < 12 never fails, and
DECODE then DECOMPRESS with that d never fails either. -/
def Obligations.CompressedPolynomialsAlwaysEncode : Prop :=
  ∀ (s : State) (pa pb pc pd : PReg) (d : BitVec 4), s.buf.wf = true → 1 ≤ d.toNat → d.toNat ≤ 11 →
    ∃ t u v x, exec (.compress pb pa d) s = .next t ∧ exec (.encode pb d) t = .next u ∧ exec (.decode pc d) u = .next v
      ∧ exec (.decompress pd pc d) v = .next x ∧ x.seq = .idle ∧ x.ccnt = s.ccnt + 4#32 ∧ x.err = s.err
      ∧ ∀ j, j < 256 → (x.getPoly pd).coeff j = decompressCoeff d.toNat (compressCoeff d.toNat ((s.getPoly pa).coeff j))

/-! ## Sampling -/

/-- R195, R196: CBD writes (x_i − y_i) mod q, x_i and y_i the sums of η consecutive bits of BUF. -/
def Obligations.BinomialSamplingOfBufferBits : Prop :=
  ∀ (s : State) (pd : PReg) (eta : BitVec 4), eta.toNat = 2 ∨ eta.toNat = 3 →
    Encodes (.cbd pd eta) (formatR 0x31 pd 0 0 eta.toNat)
    ∧ WritesPoly (.cbd pd eta) pd
        (fun i => (((∑ j ∈ Finset.range eta.toNat, (s.bufBit (2 * i * eta.toNat + j)).toNat : Int)
          - ∑ j ∈ Finset.range eta.toNat, (s.bufBit (2 * i * eta.toNat + eta.toNat + j)).toNat) % 3329).toNat) s

/-- R197, R198 for every XOF X: with an answering core PRFCBD applies SamplePolyCBD_η to the first 64η bytes of the
SHAKE-256 stream of BUF[0..32] and retires, BUF unchanged; with fewer bytes delivered it waits with those pulled. How many
bytes the core delivers in a step is the model's field xofPace (log entry 4), here any number. -/
def Obligations.PrfSamplingPullsSixtyFourEtaBytes : Prop :=
  ∀ (X : Xof) (s : State) (pd : PReg) (eta : BitVec 4), eta.toNat = 2 ∨ eta.toNat = 3 → s.xof = none →
    exec (.prfcbd pd eta) s = .next (prfcbdWith machineXof pd eta s)
    ∧ Encodes (.prfcbd pd eta) (formatR 0x32 pd 0 0 eta.toNat)
    ∧ (64 * eta.toNat ≤ s.xofPace →
        let b : Nat → Bool := fun t => (X .shake256 ((List.range 33).map s.loadByte) (t / 8)).getLsbD (t % 8)
        let t := prfcbdWith X pd eta s
        (∀ i, i < 256 → (t.getPoly pd).coeff i
          = (((∑ j ∈ Finset.range eta.toNat, (b (2 * i * eta.toNat + j)).toNat : Int)
            - ∑ j ∈ Finset.range eta.toNat, (b (2 * i * eta.toNat + eta.toNat + j)).toNat) % 3329).toNat)
        ∧ SamePolysBut pd s t ∧ SameScalars s t ∧ SameBuf s t ∧ Retired s t)
    ∧ (s.xofPace < 64 * eta.toNat →
        Waits (encode (.prfcbd pd eta)) .shake256 ((List.range 33).map s.loadByte) s.xofPace s (prfcbdWith X pd eta s))

/-- R190, R192 for every XOF X: when k blocks of the SHAKE-128 stream of BUF[0..33] hold 256 candidates below q and the
core delivers them, SAMPLENTT writes the first 256 accepted and retires; when it delivers no such k blocks, it waits. The
accepted values are, block by block, d1 = C0 + 256 · (C1 mod 16) and then d2 = ⌊C1 / 16⌋ + 16 · C2, each kept when below
q (R190, R191). How many bytes the core delivers in a step is the model's field xofPace (log entry 4), here any number. -/
def Obligations.RejectionSamplingWritesTheAccepted : Prop :=
  ∀ (X : Xof) (s : State) (pd : PReg) (k : Nat), s.xof = none →
    exec (.samplentt pd) s = .next (samplenttWith machineXof pd s)
    ∧ Encodes (.samplentt pd) (formatR 0x30 pd 0 0 0)
    ∧ (∀ stream : Nat → Byte, accepted stream 0 = [] ∧ ∀ m,
        let c0 := (stream (3 * m)).toNat
        let c1 := (stream (3 * m + 1)).toNat
        let c2 := (stream (3 * m + 2)).toNat
        let d1 := c0 + 256 * (c1 % 16)
        let d2 := c1 / 16 + 16 * c2
        accepted stream (m + 1)
          = accepted stream m ++ ((if d1 < 3329 then [d1] else []) ++ (if d2 < 3329 then [d2] else [])))
    ∧ (let stream := X .shake128 ((List.range 34).map s.loadByte)
       let t := samplenttWith X pd s
       (256 ≤ (accepted stream k).length → 3 * k ≤ s.xofPace →
          (∀ j, j < 256 → (accepted stream k)[j]? = some ((t.getPoly pd).coeff j))
          ∧ SamePolysBut pd s t ∧ SameScalars s t ∧ SameBuf s t ∧ Retired s t)
       ∧ ((∀ m, 3 * m ≤ s.xofPace → (accepted stream m).length < 256) →
          Waits (encode (.samplentt pd)) .shake128 ((List.range 34).map s.loadByte) s.xofPace s t))

/-- R193, R322: on a stream that never holds 256 candidates below q, SAMPLENTT never retires: after any number of sequencer
turns SEQ is EXEC and nothing is written, whatever the pace (log entry 4). From every state with a SAMPLENTT in EXEC whose
stream holds no 256 candidates in what was pulled and the core may deliver next (on such a stream, never), or a PRFCBD that
still lacks bytes after that (with a silent core, pace 0, as long as it is silent), every step of every agent that is not a
reset leaves the command in EXEC on the same stream, with nothing written. -/
def Obligations.RejectionSamplingHangsOnPoorStreams : Prop :=
  (∀ (X : Xof) (s : State) (pd : PReg) (n : Nat), s.xof = none →
    (∀ k, (accepted (X .shake128 ((List.range 34).map s.loadByte)) k).length < 256) →
    Waits (encode (.samplentt pd)) .shake128 ((List.range 34).map s.loadByte) ((n + 1) * s.xofPace) s
      ((samplenttWith X pd)^[n + 1] s))
  ∧ (∀ (s t : State) (pd : PReg), s.seq = .exec (encode (.samplentt pd)) →
    (∀ m, 3 * m ≤ (sessionOf .shake128 34 s).pulled + s.xofPace →
      (accepted (machineXof (sessionOf .shake128 34 s).mode (sessionOf .shake128 34 s).msg) m).length < 256) →
    ¬ resetsNext s → step s = .next t → HangsOn .shake128 34 s t)
  ∧ (∀ (s t : State) (pd : PReg) (eta : BitVec 4), s.seq = .exec (encode (.prfcbd pd eta)) →
    eta.toNat = 2 ∨ eta.toNat = 3 → (sessionOf .shake256 33 s).pulled + s.xofPace < 64 * eta.toNat →
    ¬ resetsNext s → step s = .next t → HangsOn .shake256 33 s t)

/-- R44, R45: a session goes on where it stopped. What the commands leave does not depend on how the bytes they pull are
spread over the sequencer's turns (log entry 4). -/
def Obligations.XofPaceDoesNotChangeTheResult : Prop :=
  ∀ (X : Xof) (s : State) (pd : PReg) (eta : BitVec 4) (a b : Nat),
    ((samplenttWith X pd { s with xofPace := a }).xof ≠ none →
      samplenttWith X pd { samplenttWith X pd { s with xofPace := a } with xofPace := b }
        = { samplenttWith X pd { s with xofPace := a + b } with xofPace := b })
    ∧ ((prfcbdWith X pd eta { s with xofPace := a }).xof ≠ none →
      prfcbdWith X pd eta { prfcbdWith X pd eta { s with xofPace := a } with xofPace := b }
        = { prfcbdWith X pd eta { s with xofPace := a + b } with xofPace := b })

/-- R63: DECODE, CBD, SAMPLENTT, PRFCBD and LDB depend on no byte of BUF outside their region, which for LDB is the one byte
at its address. -/
def Obligations.BufferCommandsReadOnlyTheirRegion : Prop :=
  ∀ (s : State) (m : Memory) (i : Instr) (lo hi : Nat) (t t' : State),
    ((∃ pd d, i = .decode pd d ∧ lo = 0 ∧ hi = 32 * d.toNat)
      ∨ (∃ pd eta, i = .cbd pd eta ∧ lo = 0 ∧ hi = 64 * eta.toNat)
      ∨ (∃ pd, i = .samplentt pd ∧ lo = 0 ∧ hi = 34) ∨ (∃ pd eta, i = .prfcbd pd eta ∧ lo = 0 ∧ hi = 33)
      ∨ (∃ sd addr, i = .ldb sd addr ∧ lo = addr.toNat ∧ hi = addr.toNat + 1)) →
    (∀ a, lo ≤ a → a < hi → m.read a = s.buf.read a) → exec i s = .next t → exec i { s with buf := m } = .next t' →
    t' = { t with buf := m }

/-! ## Errors -/

/-- R316: error entry writes nothing but ERR, ERRCMD, ERRIDX and SEQ and closes the XOF session; from then on BUSY = 0,
ERRF = 1, irq is up if IE_ERR = 1, the sequencer pops nothing, pushes are accepted while there is room, and the host may
reach S0..S7 and BUF. -/
def Obligations.ErrorEntryStopsTheBlock : Prop :=
  ∀ (code : ErrCode) (w v : Word) (s : State) (addr : BitVec 10), code ≠ .none →
    let t := errorEntry code w s
    Failed code w s t ∧ t.busy = false ∧ t.errFlag = true ∧ (t.ien.getLsbD 0 = true → t.irq = true)
    ∧ sequencerStep t = .next t ∧ popOnly t = t
    ∧ (hostReady (.write 0#10 v) t = true ↔ s.cmdq.length < Config.cmdqDepth)
    ∧ (gatedIndex addr.toNat → hostReady (.read addr) t = true ∧ hostReady (.write addr v) t = true)

/-- R310, R314, R318: a legal command ends retired, or failed with the one error of its row (INVALID_COEFFICIENT for ENCODE,
OPERAND_RANGE for FADD, FSUB, FMUL, MRED, CSET, DECOMPRESS; none for the commands of R314), or waiting on the XOF port. -/
def Obligations.LegalCommandRaisesOnlyItsError : Prop :=
  ∀ (i : Instr) (s : State), i.wellFormed = true → ∃ t, exec i s = .next t ∧
    (Retired s t ∨ (∃ code, i.errorOf = some code ∧ Failed code (encode i) s t)
      ∨ (i.usesXof = true ∧ ∃ mode msg n, Waits (encode i) mode msg n s t))

/-- R317: an error is precise. When a step enters the ERROR state, the word in ERRCMD is the command the sequencer took,
ERRIDX is the count of commands retired before, and every register and every byte of BUF is as before the step. -/
def Obligations.ErrorsArePrecise : Prop :=
  ∀ s t : State, step s = .next t → s.err = .none → t.err ≠ .none →
    (nextTurn s).1 = .sequencer
    ∧ ((s.seq = .exec t.errCmd ∧ t.cmdq = s.cmdq) ∨ (s.seq = .idle ∧ s.cmdq = t.errCmd :: t.cmdq))
    ∧ t.seq = .error ∧ t.errIdx = s.ccnt ∧ t.ccnt = s.ccnt ∧ SameScalars s t ∧ SamePolys s t ∧ SameBuf s t
    ∧ t.ien = s.ien ∧ t.xof = none

/-- R319: CLRERR in the ERROR state empties the queue, clears ERR and goes to IDLE; ERRCMD, ERRIDX, CCNT, the registers and
BUF keep their values; in any other state it has no effect (R34). -/
def Obligations.ClearErrorReturnsToIdle : Prop :=
  ∀ (s : State) (ts : List Turn) (v : Word) (rest : List HostReq),
    s.turns = .host :: ts → s.hostReqs = .write 2#10 v :: rest → v.getLsbD 1 = false → v.getLsbD 0 = true →
    (s.seq = .error → step s = .next { s with
      cmdq := [], err := .none, seq := .idle, turns := ts, hostReqs := rest, hostReply := .wrote false })
    ∧ (s.seq ≠ .error → step s = .next { s with turns := ts, hostReqs := rest, hostReply := .wrote false })

/-- R320, R37: the ERROR state is left only by a CTRL write with CLRERR or SRST, or by reset; until then nothing executes. -/
def Obligations.ErrorStateIsLeftOnlyByTheHost : Prop :=
  ∀ s t : State, step s = .next t → s.seq = .error →
    (t.seq = .error ∧ t.err = s.err ∧ t.errCmd = s.errCmd ∧ t.errIdx = s.errIdx ∧ t.ccnt = s.ccnt ∧ SamePolys s t)
    ∨ (t.seq = .idle ∧ t.err = .none ∧ t.cmdq = []
      ∧ ((nextTurn s).1 = .hardReset ∨ ((nextTurn s).1 = .host ∧ ∃ v rest, s.hostReqs = .write 2#10 v :: rest
          ∧ (v.getLsbD 0 = true ∨ v.getLsbD 1 = true))))

/-! ## Whole-machine rules -/

/-- R22, R27, R30, R63: a command writes no scalar, no polynomial register and no byte of BUF but those that these rules
list for it; in particular a command that fails writes none. -/
def Obligations.CommandsWriteOnlyTheirDestinations : Prop :=
  ∀ (i : Instr) (s t : State), s.buf.wf = true → exec i s = .next t →
    (∀ r, i.mayWriteScal r = false → t.getScal r = s.getScal r)
    ∧ (∀ r, i.mayWritePoly r = false → t.getPoly r = s.getPoly r)
    ∧ (∀ a, i.mayWriteBuf a = false → t.loadByte a = s.loadByte a)
    ∧ t.ien = s.ien ∧ t.cmdq = s.cmdq ∧ SameOutside s t

/-- R22: the commands that R22 does not list as readers of scalars do not depend on any: with other scalars the polynomial
registers, BUF and every control register come out the same. -/
def Obligations.OtherCommandsReadNoScalar : Prop :=
  ∀ (i : Instr) (s t t' : State) (v : Vector Word 8), i.readsScal = false → exec i s = .next t →
    exec i { s with scal := v } = .next t' → t' = { t with scal := t'.scal }

/-- R23, R331: no command reads CCNT: with another count the same happens, but for CCNT and ERRIDX. -/
def Obligations.NoCommandReadsTheCount : Prop :=
  ∀ (i : Instr) (s t t' : State) (c : Word), exec i s = .next t → exec i { s with ccnt := c } = .next t' →
    t' = { t with ccnt := t'.ccnt, errIdx := t'.errIdx }

/-- R23, R36: CCNT changes only when a command retires in the sequencer's turn, by one modulo 2^32, or by a reset to 0. -/
def Obligations.CountAdvancesOnlyByRetirement : Prop :=
  ∀ s t : State, step s = .next t → t.ccnt ≠ s.ccnt →
    ((nextTurn s).1 = .sequencer ∧ t.ccnt = s.ccnt + 1#32 ∧ t.seq = .idle)
    ∨ (((nextTurn s).1 = .hardReset ∨ (nextTurn s).1 = .host) ∧ ResetValues t)

/-- R31, R73: the queue is first-in first-out. In a step it is unchanged, loses its head to the sequencer, gains the word
of a CMD write at its tail while there was room, or is emptied by a reset or by a CTRL write with SRST or, in ERROR,
CLRERR (R34). -/
def Obligations.QueueIsFirstInFirstOut : Prop :=
  ∀ s t : State, step s = .next t →
    t.cmdq = s.cmdq
    ∨ (((nextTurn s).1 = .sequencer ∨ (nextTurn s).1 = .pop) ∧ s.seq = .idle ∧ ∃ w, s.cmdq = w :: t.cmdq)
    ∨ ((nextTurn s).1 = .host ∧ s.cmdq.length < Config.cmdqDepth
        ∧ ∃ w rest, s.hostReqs = .write 0#10 w :: rest ∧ t.cmdq = s.cmdq ++ [w])
    ∨ ((nextTurn s).1 = .hardReset ∧ t.cmdq = [])
    ∨ ((nextTurn s).1 = .host ∧ t.cmdq = [] ∧ ∃ v rest, s.hostReqs = .write 2#10 v :: rest
        ∧ (v.getLsbD 1 = true ∨ (v.getLsbD 0 = true ∧ s.seq = .error)))

/-! ## The host port -/

/-- R32, R33, R43: the fields of STATUS, bit by bit, what BUSY and idle are, and irq = (IE_ERR and ERR ≠ 0) or (IE_IDLE and
BUSY = 0). STATUS is at word index 1, a write of it is ignored; the sequencer changes ERR by error entry only, and the host
by SRST and CLRERR only. -/
def Obligations.StatusAndInterruptShowTheState : Prop :=
  ∀ s : State,
    s.status.getLsbD 0 = s.busy ∧ (s.status.getLsbD 1 = true ↔ s.cmdq.length = Config.cmdqDepth)
    ∧ (s.status.getLsbD 2 = true ↔ s.err ≠ .none) ∧ s.status.getLsbD 3 = false
    ∧ (s.status.extractLsb' 4 4 = match s.err with
        | .none => 0#4
        | .invalidCoefficient => 1#4
        | .illegalCommand => 2#4
        | .operandRange => 3#4)
    ∧ (s.status.extractLsb' 8 8).toNat = min s.cmdq.length 255 ∧ s.status.extractLsb' 16 16 = 0#16
    ∧ (s.busy = true ↔ (∃ w, s.seq = .exec w) ∨ (s.seq = .idle ∧ s.cmdq ≠ []))
    ∧ (s.isIdle = true ↔ s.busy = false ∧ s.err = .none)
    ∧ (s.irq = true ↔ (s.ien.getLsbD 0 = true ∧ s.err ≠ .none) ∨ (s.ien.getLsbD 1 = true ∧ s.busy = false))
    ∧ hostRead 1#10 s = s.status ∧ (∀ v, hostWrite 1#10 v s = s)
    ∧ (∀ t, sequencerStep s = .next t → t.err ≠ s.err → t.seq = .error ∧ t.err ≠ .none ∧ t.errIdx = s.ccnt)
    ∧ (∀ addr v, (hostWrite addr v s).err ≠ s.err →
        (hostWrite addr v s).err = .none ∧ addr.toNat = 2 ∧ (v.getLsbD 1 = true ∨ (v.getLsbD 0 = true ∧ s.seq = .error)))
    ∧ (hardReset s).err = .none

/-- R39, R67: a read that is not held completes, returns the register at its word index (four bytes of BUF little-endian,
R61; 0 with h_err at a reserved index, R42), and changes nothing of the block. -/
def Obligations.HostReadsReturnTheRegister : Prop :=
  ∀ (s : State) (ts : List Turn) (addr : BitVec 10) (rest : List HostReq),
    s.turns = .host :: ts → s.hostReqs = .read addr :: rest → (gatedIndex addr.toNat → s.busy = false) →
    ∃ v e, step s = .next { s with turns := ts, hostReqs := rest, hostReply := .read v e }
      ∧ (e = true ↔ reservedIndex addr.toNat)
      ∧ (addr.toNat = 0 ∨ addr.toNat = 2 ∨ reservedIndex addr.toNat → v = 0#32)
      ∧ (addr.toNat = 1 → v = s.status) ∧ (addr.toNat = 3 → v.toNat = s.ien.toNat)
      ∧ (addr.toNat = 4 → v = s.errCmd) ∧ (addr.toNat = 5 → v = s.errIdx) ∧ (addr.toNat = 6 → v = s.ccnt)
      ∧ (addr.toNat = 7 → v = 0x4B504131#32)
      ∧ (∀ r : SReg, addr.toNat = 8 + r.val → v = s.getScal r)
      ∧ (∀ w, w < 96 → addr.toNat = 128 + w → v.toNat = (s.loadByte (4 * w)).toNat
          + 2 ^ 8 * (s.loadByte (4 * w + 1)).toNat + 2 ^ 16 * (s.loadByte (4 * w + 2)).toNat
          + 2 ^ 24 * (s.loadByte (4 * w + 3)).toNat)

/-- R34, R35, R39, R42: a write of a read-only register or of a reserved index changes nothing of the block, nor does a CTRL
write with bits 1 and 0 clear; bits 31:2 of a CTRL write are ignored; IEN takes bits 1:0; a scalar takes all 32 bits when
BUSY = 0 (R41). -/
def Obligations.HostWritesOfRegisters : Prop :=
  ∀ (s : State) (ts : List Turn) (addr : BitVec 10) (v : Word) (rest : List HostReq),
    s.turns = .host :: ts → s.hostReqs = .write addr v :: rest →
    ((addr.toNat = 1 ∨ addr.toNat = 4 ∨ addr.toNat = 5 ∨ addr.toNat = 6 ∨ addr.toNat = 7) →
      step s = .next { s with turns := ts, hostReqs := rest, hostReply := .wrote false })
    ∧ (reservedIndex addr.toNat → step s = .next { s with turns := ts, hostReqs := rest, hostReply := .wrote true })
    ∧ (addr.toNat = 2 → v.getLsbD 1 = false → v.getLsbD 0 = false →
      step s = .next { s with turns := ts, hostReqs := rest, hostReply := .wrote false })
    ∧ (addr.toNat = 2 → ∀ v' : Word, v'.extractLsb' 0 2 = v.extractLsb' 0 2 →
      step { s with hostReqs := .write addr v' :: rest } = step s)
    ∧ (addr.toNat = 3 → step s = .next { s with
        ien := v.extractLsb' 0 2, turns := ts, hostReqs := rest, hostReply := .wrote false })
    ∧ (∀ r : SReg, addr.toNat = 8 + r.val → s.busy = false →
        ∃ t : State, step s = .next { t with turns := ts, hostReqs := rest, hostReply := .wrote false }
          ∧ t = { s with scal := t.scal } ∧ t.getScal r = v ∧ SameScalarsBut r s t)

/-- R61: a write of buffer word w when BUSY = 0 puts byte t of the value at BUF[4w + t] and changes no other byte and nothing
else of the block. -/
def Obligations.HostWritesBufferWordsLittleEndian : Prop :=
  ∀ (s : State) (ts : List Turn) (addr : BitVec 10) (v : Word) (rest : List HostReq) (w : Nat), s.buf.wf = true →
    s.turns = .host :: ts → s.hostReqs = .write addr v :: rest → w < 96 → addr.toNat = 128 + w → s.busy = false →
    ∃ t : State, step s = .next { t with turns := ts, hostReqs := rest, hostReply := .wrote false }
      ∧ t = { s with buf := t.buf } ∧ (∀ k, k < 4 → t.loadByte (4 * w + k) = v.extractLsb' (8 * k) 8)
      ∧ (∀ a, a < 4 * w ∨ 4 * w + 4 ≤ a → t.loadByte a = s.loadByte a)

/-- R40: a write of CMD completes only while QLEN < CMDQ_DEPTH and appends the word at the tail, in every sequencer state;
while the queue is full it is held and nothing changes. -/
def Obligations.PushesWaitForRoom : Prop :=
  ∀ (s : State) (ts : List Turn) (v : Word) (rest : List HostReq),
    s.turns = .host :: ts → s.hostReqs = .write 0#10 v :: rest →
    (s.cmdq.length < Config.cmdqDepth → step s = .next { s with
      cmdq := s.cmdq ++ [v], turns := ts, hostReqs := rest, hostReply := .wrote false })
    ∧ (Config.cmdqDepth ≤ s.cmdq.length → step s = .next { s with turns := ts, hostReply := .held })

/-- R41: while BUSY = 1 an access to S0..S7 or to the buffer window is held: the transaction stays outstanding and nothing of
the block changes. -/
def Obligations.GatedAccessesWaitWhileBusy : Prop :=
  ∀ (s : State) (ts : List Turn) (req : HostReq) (addr : BitVec 10) (v : Word) (rest : List HostReq),
    s.turns = .host :: ts → s.hostReqs = req :: rest → req = .read addr ∨ req = .write addr v → s.busy = true →
    gatedIndex addr.toNat → step s = .next { s with turns := ts, hostReply := .held }
end

