-- ==== Sys2Proof/Laws/Decode.lean ====
section
/-! SUPPORT. The fields of a word that a format builds are the fields it was built from. -/

namespace Sys2Proof

section formatR
variable {op rd ra rb imm : Nat} (hop : op < 256) (hrd : rd < 16) (hra : ra < 16) (hrb : rb < 16) (himm : imm < 4096)
include hop hrd hra hrb himm

theorem toNat_formatR :
    (formatR op rd ra rb imm).toNat = op * 2 ^ 24 + rd * 2 ^ 20 + ra * 2 ^ 16 + rb * 2 ^ 12 + imm := by
  rw [formatR, BitVec.toNat_ofNat]
  omega

theorem opField_formatR : opField (formatR op rd ra rb imm) = op := by
  rw [opField, toNat_formatR hop hrd hra hrb himm]
  omega

theorem rdField_formatR : rdField (formatR op rd ra rb imm) = rd := by
  rw [rdField, toNat_formatR hop hrd hra hrb himm]
  omega

theorem raField_formatR : raField (formatR op rd ra rb imm) = ra := by
  rw [raField, toNat_formatR hop hrd hra hrb himm]
  omega

theorem rbField_formatR : rbField (formatR op rd ra rb imm) = rb := by
  rw [rbField, toNat_formatR hop hrd hra hrb himm]
  omega

theorem imm12Field_formatR : imm12Field (formatR op rd ra rb imm) = imm := by
  rw [imm12Field, toNat_formatR hop hrd hra hrb himm]
  omega

end formatR

section formatI
variable {op rd imm : Nat} (hop : op < 256) (hrd : rd < 16) (himm : imm < 65536)
include hop hrd himm

theorem toNat_formatI : (formatI op rd imm).toNat = op * 2 ^ 24 + rd * 2 ^ 20 + imm := by
  rw [formatI, BitVec.toNat_ofNat]
  omega

theorem opField_formatI : opField (formatI op rd imm) = op := by
  rw [opField, toNat_formatI hop hrd himm]
  omega

theorem rdField_formatI : rdField (formatI op rd imm) = rd := by
  rw [rdField, toNat_formatI hop hrd himm]
  omega

theorem raField_formatI : raField (formatI op rd imm) = 0 := by
  rw [raField, toNat_formatI hop hrd himm]
  omega

theorem imm16Field_formatI : imm16Field (formatI op rd imm) = imm := by
  rw [imm16Field, toNat_formatI hop hrd himm]
  omega

end formatI

/-- Five fields make a word (R91): a word is the format R word of its fields. -/
theorem formatR_fields (w : Word) :
    formatR (opField w) (rdField w) (raField w) (rbField w) (imm12Field w) = w := by
  apply BitVec.eq_of_toNat_eq
  rw [formatR, BitVec.toNat_ofNat, opField, rdField, raField, rbField, imm12Field]
  have := w.isLt
  omega

@[simp] theorem regNumber_val (r : Fin 8) : regNumber r.val = .ok r := by
  simp [regNumber]

@[simp] theorem unused_zero : unused 0 = .ok () := rfl

@[simp] theorem immBits_toNat {k : Nat} (v : BitVec k) : immBits k v.toNat = .ok v := by
  simp [immBits, v.isLt]

theorem inRange_of_wellFormed {i : Instr} (h : i.wellFormed = true) : inRange i = .ok i := if_pos h

end Sys2Proof
end

