-- ==== Sys2Proof/Laws/State.lean ====
section
/-! SUPPORT. Every field after every named update of the state, and the registers read back. -/

namespace Sys2Proof.Machine

/-! ## setScal -/

@[simp] theorem setScal_scal (s : State) (i : SReg) (v : Word) : (s.setScal i v).scal = s.scal.set i v := rfl
@[simp] theorem setScal_poly (s : State) (i : SReg) (v : Word) : (s.setScal i v).poly = s.poly := rfl
@[simp] theorem setScal_buf (s : State) (i : SReg) (v : Word) : (s.setScal i v).buf = s.buf := rfl
@[simp] theorem setScal_cmdq (s : State) (i : SReg) (v : Word) : (s.setScal i v).cmdq = s.cmdq := rfl
@[simp] theorem setScal_seq (s : State) (i : SReg) (v : Word) : (s.setScal i v).seq = s.seq := rfl
@[simp] theorem setScal_err (s : State) (i : SReg) (v : Word) : (s.setScal i v).err = s.err := rfl
@[simp] theorem setScal_errCmd (s : State) (i : SReg) (v : Word) : (s.setScal i v).errCmd = s.errCmd := rfl
@[simp] theorem setScal_errIdx (s : State) (i : SReg) (v : Word) : (s.setScal i v).errIdx = s.errIdx := rfl
@[simp] theorem setScal_ccnt (s : State) (i : SReg) (v : Word) : (s.setScal i v).ccnt = s.ccnt := rfl
@[simp] theorem setScal_ien (s : State) (i : SReg) (v : Word) : (s.setScal i v).ien = s.ien := rfl
@[simp] theorem setScal_xof (s : State) (i : SReg) (v : Word) : (s.setScal i v).xof = s.xof := rfl
@[simp] theorem setScal_turns (s : State) (i : SReg) (v : Word) : (s.setScal i v).turns = s.turns := rfl
@[simp] theorem setScal_hostReqs (s : State) (i : SReg) (v : Word) : (s.setScal i v).hostReqs = s.hostReqs := rfl
@[simp] theorem setScal_hostReply (s : State) (i : SReg) (v : Word) : (s.setScal i v).hostReply = s.hostReply := rfl
@[simp] theorem setScal_xofPace (s : State) (i : SReg) (v : Word) : (s.setScal i v).xofPace = s.xofPace := rfl

/-! ## setPoly -/

@[simp] theorem setPoly_scal (s : State) (i : PReg) (f : Poly) : (s.setPoly i f).scal = s.scal := rfl
@[simp] theorem setPoly_poly (s : State) (i : PReg) (f : Poly) : (s.setPoly i f).poly = s.poly.set i f := rfl
@[simp] theorem setPoly_buf (s : State) (i : PReg) (f : Poly) : (s.setPoly i f).buf = s.buf := rfl
@[simp] theorem setPoly_cmdq (s : State) (i : PReg) (f : Poly) : (s.setPoly i f).cmdq = s.cmdq := rfl
@[simp] theorem setPoly_seq (s : State) (i : PReg) (f : Poly) : (s.setPoly i f).seq = s.seq := rfl
@[simp] theorem setPoly_err (s : State) (i : PReg) (f : Poly) : (s.setPoly i f).err = s.err := rfl
@[simp] theorem setPoly_errCmd (s : State) (i : PReg) (f : Poly) : (s.setPoly i f).errCmd = s.errCmd := rfl
@[simp] theorem setPoly_errIdx (s : State) (i : PReg) (f : Poly) : (s.setPoly i f).errIdx = s.errIdx := rfl
@[simp] theorem setPoly_ccnt (s : State) (i : PReg) (f : Poly) : (s.setPoly i f).ccnt = s.ccnt := rfl
@[simp] theorem setPoly_ien (s : State) (i : PReg) (f : Poly) : (s.setPoly i f).ien = s.ien := rfl
@[simp] theorem setPoly_xof (s : State) (i : PReg) (f : Poly) : (s.setPoly i f).xof = s.xof := rfl
@[simp] theorem setPoly_turns (s : State) (i : PReg) (f : Poly) : (s.setPoly i f).turns = s.turns := rfl
@[simp] theorem setPoly_hostReqs (s : State) (i : PReg) (f : Poly) : (s.setPoly i f).hostReqs = s.hostReqs := rfl
@[simp] theorem setPoly_hostReply (s : State) (i : PReg) (f : Poly) : (s.setPoly i f).hostReply = s.hostReply := rfl
@[simp] theorem setPoly_xofPace (s : State) (i : PReg) (f : Poly) : (s.setPoly i f).xofPace = s.xofPace := rfl

/-! ## storeByte -/

@[simp] theorem storeByte_scal (s : State) (a : Nat) (v : Byte) : (s.storeByte a v).scal = s.scal := rfl
@[simp] theorem storeByte_poly (s : State) (a : Nat) (v : Byte) : (s.storeByte a v).poly = s.poly := rfl
@[simp] theorem storeByte_buf (s : State) (a : Nat) (v : Byte) : (s.storeByte a v).buf = s.buf.write a v := rfl
@[simp] theorem storeByte_cmdq (s : State) (a : Nat) (v : Byte) : (s.storeByte a v).cmdq = s.cmdq := rfl
@[simp] theorem storeByte_seq (s : State) (a : Nat) (v : Byte) : (s.storeByte a v).seq = s.seq := rfl
@[simp] theorem storeByte_err (s : State) (a : Nat) (v : Byte) : (s.storeByte a v).err = s.err := rfl
@[simp] theorem storeByte_errCmd (s : State) (a : Nat) (v : Byte) : (s.storeByte a v).errCmd = s.errCmd := rfl
@[simp] theorem storeByte_errIdx (s : State) (a : Nat) (v : Byte) : (s.storeByte a v).errIdx = s.errIdx := rfl
@[simp] theorem storeByte_ccnt (s : State) (a : Nat) (v : Byte) : (s.storeByte a v).ccnt = s.ccnt := rfl
@[simp] theorem storeByte_ien (s : State) (a : Nat) (v : Byte) : (s.storeByte a v).ien = s.ien := rfl
@[simp] theorem storeByte_xof (s : State) (a : Nat) (v : Byte) : (s.storeByte a v).xof = s.xof := rfl
@[simp] theorem storeByte_turns (s : State) (a : Nat) (v : Byte) : (s.storeByte a v).turns = s.turns := rfl
@[simp] theorem storeByte_hostReqs (s : State) (a : Nat) (v : Byte) : (s.storeByte a v).hostReqs = s.hostReqs := rfl
@[simp] theorem storeByte_hostReply (s : State) (a : Nat) (v : Byte) : (s.storeByte a v).hostReply = s.hostReply := rfl
@[simp] theorem storeByte_xofPace (s : State) (a : Nat) (v : Byte) : (s.storeByte a v).xofPace = s.xofPace := rfl

/-! ## storeRegion -/

@[simp] theorem storeRegion_scal (s : State) (bs : List Byte) : (s.storeRegion bs).scal = s.scal := rfl
@[simp] theorem storeRegion_poly (s : State) (bs : List Byte) : (s.storeRegion bs).poly = s.poly := rfl
@[simp] theorem storeRegion_buf (s : State) (bs : List Byte) : (s.storeRegion bs).buf = s.buf.writeBytes 0 bs := rfl
@[simp] theorem storeRegion_cmdq (s : State) (bs : List Byte) : (s.storeRegion bs).cmdq = s.cmdq := rfl
@[simp] theorem storeRegion_seq (s : State) (bs : List Byte) : (s.storeRegion bs).seq = s.seq := rfl
@[simp] theorem storeRegion_err (s : State) (bs : List Byte) : (s.storeRegion bs).err = s.err := rfl
@[simp] theorem storeRegion_errCmd (s : State) (bs : List Byte) : (s.storeRegion bs).errCmd = s.errCmd := rfl
@[simp] theorem storeRegion_errIdx (s : State) (bs : List Byte) : (s.storeRegion bs).errIdx = s.errIdx := rfl
@[simp] theorem storeRegion_ccnt (s : State) (bs : List Byte) : (s.storeRegion bs).ccnt = s.ccnt := rfl
@[simp] theorem storeRegion_ien (s : State) (bs : List Byte) : (s.storeRegion bs).ien = s.ien := rfl
@[simp] theorem storeRegion_xof (s : State) (bs : List Byte) : (s.storeRegion bs).xof = s.xof := rfl
@[simp] theorem storeRegion_turns (s : State) (bs : List Byte) : (s.storeRegion bs).turns = s.turns := rfl
@[simp] theorem storeRegion_hostReqs (s : State) (bs : List Byte) : (s.storeRegion bs).hostReqs = s.hostReqs := rfl
@[simp] theorem storeRegion_hostReply (s : State) (bs : List Byte) : (s.storeRegion bs).hostReply = s.hostReply := rfl
@[simp] theorem storeRegion_xofPace (s : State) (bs : List Byte) : (s.storeRegion bs).xofPace = s.xofPace := rfl

/-! ## retire -/

@[simp] theorem retire_scal (s : State) : (retire s).scal = s.scal := rfl
@[simp] theorem retire_poly (s : State) : (retire s).poly = s.poly := rfl
@[simp] theorem retire_buf (s : State) : (retire s).buf = s.buf := rfl
@[simp] theorem retire_cmdq (s : State) : (retire s).cmdq = s.cmdq := rfl
@[simp] theorem retire_seq (s : State) : (retire s).seq = .idle := rfl
@[simp] theorem retire_err (s : State) : (retire s).err = s.err := rfl
@[simp] theorem retire_errCmd (s : State) : (retire s).errCmd = s.errCmd := rfl
@[simp] theorem retire_errIdx (s : State) : (retire s).errIdx = s.errIdx := rfl
@[simp] theorem retire_ccnt (s : State) : (retire s).ccnt = s.ccnt + 1#32 := rfl
@[simp] theorem retire_ien (s : State) : (retire s).ien = s.ien := rfl
@[simp] theorem retire_xof (s : State) : (retire s).xof = none := rfl
@[simp] theorem retire_turns (s : State) : (retire s).turns = s.turns := rfl
@[simp] theorem retire_hostReqs (s : State) : (retire s).hostReqs = s.hostReqs := rfl
@[simp] theorem retire_hostReply (s : State) : (retire s).hostReply = s.hostReply := rfl
@[simp] theorem retire_xofPace (s : State) : (retire s).xofPace = s.xofPace := rfl

/-! ## errorEntry -/

@[simp] theorem errorEntry_scal (code : ErrCode) (w : Word) (s : State) : (errorEntry code w s).scal = s.scal := rfl
@[simp] theorem errorEntry_poly (code : ErrCode) (w : Word) (s : State) : (errorEntry code w s).poly = s.poly := rfl
@[simp] theorem errorEntry_buf (code : ErrCode) (w : Word) (s : State) : (errorEntry code w s).buf = s.buf := rfl
@[simp] theorem errorEntry_cmdq (code : ErrCode) (w : Word) (s : State) : (errorEntry code w s).cmdq = s.cmdq := rfl
@[simp] theorem errorEntry_seq (code : ErrCode) (w : Word) (s : State) : (errorEntry code w s).seq = .error := rfl
@[simp] theorem errorEntry_err (code : ErrCode) (w : Word) (s : State) : (errorEntry code w s).err = code := rfl
@[simp] theorem errorEntry_errCmd (code : ErrCode) (w : Word) (s : State) : (errorEntry code w s).errCmd = w := rfl
@[simp] theorem errorEntry_errIdx (code : ErrCode) (w : Word) (s : State) : (errorEntry code w s).errIdx = s.ccnt := rfl
@[simp] theorem errorEntry_ccnt (code : ErrCode) (w : Word) (s : State) : (errorEntry code w s).ccnt = s.ccnt := rfl
@[simp] theorem errorEntry_ien (code : ErrCode) (w : Word) (s : State) : (errorEntry code w s).ien = s.ien := rfl
@[simp] theorem errorEntry_xof (code : ErrCode) (w : Word) (s : State) : (errorEntry code w s).xof = none := rfl
@[simp] theorem errorEntry_turns (code : ErrCode) (w : Word) (s : State) : (errorEntry code w s).turns = s.turns := rfl
@[simp] theorem errorEntry_hostReqs (code : ErrCode) (w : Word) (s : State) : (errorEntry code w s).hostReqs = s.hostReqs := rfl
@[simp] theorem errorEntry_hostReply (code : ErrCode) (w : Word) (s : State) : (errorEntry code w s).hostReply = s.hostReply := rfl
@[simp] theorem errorEntry_xofPace (code : ErrCode) (w : Word) (s : State) : (errorEntry code w s).xofPace = s.xofPace := rfl

@[simp] theorem setScalVal_eq (s : State) (i : SReg) (v : Nat) :
    s.setScalVal i v = s.setScal i (BitVec.ofNat 32 v) := rfl

/-! ## Registers read back -/

theorem getScal_setScal (s : State) (i r : SReg) (v : Word) :
    (s.setScal i v).getScal r = if r = i then v else s.getScal r := by
  simp only [State.getScal, State.setScal, Vector.get_eq_getElem, Vector.getElem_set, Fin.ext_iff, eq_comm]

@[simp] theorem getScal_setScal_same (s : State) (i : SReg) (v : Word) : (s.setScal i v).getScal i = v := by
  simp [getScal_setScal]

theorem getScal_setScal_of_ne (s : State) (v : Word) {i r : SReg} (h : r ≠ i) :
    (s.setScal i v).getScal r = s.getScal r := by
  simp [getScal_setScal, h]

theorem getPoly_setPoly (s : State) (i r : PReg) (f : Poly) :
    (s.setPoly i f).getPoly r = if r = i then f else s.getPoly r := by
  simp only [State.getPoly, State.setPoly, Vector.get_eq_getElem, Vector.getElem_set, Fin.ext_iff, eq_comm]

@[simp] theorem getPoly_setPoly_same (s : State) (i : PReg) (f : Poly) : (s.setPoly i f).getPoly i = f := by
  simp [getPoly_setPoly]

theorem getPoly_setPoly_of_ne (s : State) (f : Poly) {i r : PReg} (h : r ≠ i) :
    (s.setPoly i f).getPoly r = s.getPoly r := by
  simp [getPoly_setPoly, h]

@[simp] theorem getPoly_setScal (s : State) (i : SReg) (v : Word) (r : PReg) : (s.setScal i v).getPoly r = s.getPoly r := rfl
@[simp] theorem loadByte_setScal (s : State) (i : SReg) (v : Word) (a : Nat) : (s.setScal i v).loadByte a = s.loadByte a := rfl
@[simp] theorem bufRegion_setScal (s : State) (i : SReg) (v : Word) (len : Nat) : (s.setScal i v).bufRegion len = s.bufRegion len := rfl
@[simp] theorem getScal_setPoly (s : State) (i : PReg) (f : Poly) (r : SReg) : (s.setPoly i f).getScal r = s.getScal r := rfl
@[simp] theorem scalVal_setPoly (s : State) (i : PReg) (f : Poly) (r : SReg) : (s.setPoly i f).scalVal r = s.scalVal r := rfl
@[simp] theorem loadByte_setPoly (s : State) (i : PReg) (f : Poly) (a : Nat) : (s.setPoly i f).loadByte a = s.loadByte a := rfl
@[simp] theorem bufRegion_setPoly (s : State) (i : PReg) (f : Poly) (len : Nat) : (s.setPoly i f).bufRegion len = s.bufRegion len := rfl
@[simp] theorem getScal_storeByte (s : State) (a : Nat) (v : Byte) (r : SReg) : (s.storeByte a v).getScal r = s.getScal r := rfl
@[simp] theorem scalVal_storeByte (s : State) (a : Nat) (v : Byte) (r : SReg) : (s.storeByte a v).scalVal r = s.scalVal r := rfl
@[simp] theorem getPoly_storeByte (s : State) (a : Nat) (v : Byte) (r : PReg) : (s.storeByte a v).getPoly r = s.getPoly r := rfl
@[simp] theorem getScal_storeRegion (s : State) (bs : List Byte) (r : SReg) : (s.storeRegion bs).getScal r = s.getScal r := rfl
@[simp] theorem scalVal_storeRegion (s : State) (bs : List Byte) (r : SReg) : (s.storeRegion bs).scalVal r = s.scalVal r := rfl
@[simp] theorem getPoly_storeRegion (s : State) (bs : List Byte) (r : PReg) : (s.storeRegion bs).getPoly r = s.getPoly r := rfl
@[simp] theorem getScal_retire (s : State) (r : SReg) : (retire s).getScal r = s.getScal r := rfl
@[simp] theorem scalVal_retire (s : State) (r : SReg) : (retire s).scalVal r = s.scalVal r := rfl
@[simp] theorem getPoly_retire (s : State) (r : PReg) : (retire s).getPoly r = s.getPoly r := rfl
@[simp] theorem loadByte_retire (s : State) (a : Nat) : (retire s).loadByte a = s.loadByte a := rfl
@[simp] theorem bufRegion_retire (s : State) (len : Nat) : (retire s).bufRegion len = s.bufRegion len := rfl
@[simp] theorem getScal_errorEntry (code : ErrCode) (w : Word) (s : State) (r : SReg) : (errorEntry code w s).getScal r = s.getScal r := rfl
@[simp] theorem scalVal_errorEntry (code : ErrCode) (w : Word) (s : State) (r : SReg) : (errorEntry code w s).scalVal r = s.scalVal r := rfl
@[simp] theorem getPoly_errorEntry (code : ErrCode) (w : Word) (s : State) (r : PReg) : (errorEntry code w s).getPoly r = s.getPoly r := rfl
@[simp] theorem loadByte_errorEntry (code : ErrCode) (w : Word) (s : State) (a : Nat) : (errorEntry code w s).loadByte a = s.loadByte a := rfl
@[simp] theorem bufRegion_errorEntry (code : ErrCode) (w : Word) (s : State) (len : Nat) : (errorEntry code w s).bufRegion len = s.bufRegion len := rfl

/-! ## Reset -/

@[simp] theorem getScal_reset (r : SReg) : State.reset.getScal r = 0#32 := by
  simp [State.getScal, State.reset, Vector.get_eq_getElem]

@[simp] theorem getPoly_reset (r : PReg) : State.reset.getPoly r = Poly.zero := by
  simp [State.getPoly, State.reset, Vector.get_eq_getElem]

@[simp] theorem loadByte_reset (a : Nat) : State.reset.loadByte a = 0#8 := rfl

end Sys2Proof.Machine
end

