-- ==== Sys2Proof/Laws/Memory.lean ====
section
/-! SUPPORT. The laws of BUF: read after write, what a write leaves alone, and that every memory operation keeps the
canonical form. -/

namespace Sys2Proof.Machine

@[simp] theorem Memory.wfFrom_nil (lo : Nat) : Memory.wfFrom lo [] = true := rfl

theorem Memory.wfFrom_cons {lo a : Nat} {v : Byte} {m : Memory} :
    Memory.wfFrom lo ((a, v) :: m) = true ↔ lo ≤ a ∧ a < Config.bufLen ∧ v ≠ 0#8 ∧ Memory.wfFrom (a + 1) m = true := by
  simp [Memory.wfFrom, and_assoc]

theorem Memory.wfFrom_mono {lo lo' : Nat} (h : lo' ≤ lo) {m : Memory} (hm : Memory.wfFrom lo m = true) :
    Memory.wfFrom lo' m = true := by
  cases m with
  | nil => rfl
  | cons c m =>
    obtain ⟨a, v⟩ := c
    rw [Memory.wfFrom_cons] at *
    exact ⟨by omega, hm.2⟩

/-- Below the first possible address every byte is 0. -/
theorem Memory.read_of_lt {lo : Nat} {m : Memory} (hm : Memory.wfFrom lo m = true) {a : Nat} (h : a < lo) :
    m.read a = 0#8 := by
  induction m generalizing lo with
  | nil => rfl
  | cons c m ih =>
    obtain ⟨b, v⟩ := c
    rw [Memory.wfFrom_cons] at hm
    rw [Memory.read, if_neg (by omega), ih hm.2.2.2 (by omega)]

/-- Read after write, in a memory of canonical form. -/
theorem Memory.read_write_from {lo : Nat} {m : Memory} (hm : Memory.wfFrom lo m = true) (a b : Nat) (v : Byte) :
    (m.write a v).read b = if b = a then v else m.read b := by
  induction m generalizing lo with
  | nil =>
    by_cases hv : v = 0#8 <;> by_cases hb : b = a <;> simp [Memory.write, Memory.read, hv, hb]
  | cons c m ih =>
    obtain ⟨x, u⟩ := c
    rw [Memory.wfFrom_cons] at hm
    obtain ⟨hlo, -, -, hm'⟩ := hm
    rcases Nat.lt_trichotomy a x with h | h | h
    · by_cases hv : v = 0#8
      · have hzero : Memory.read ((x, u) :: m) a = 0#8 := by
          rw [Memory.read, if_neg (by omega), Memory.read_of_lt hm' (by omega)]
        by_cases hb : b = a
        · simp [Memory.write, h, hv, hb, hzero]
        · simp [Memory.write, h, hv, hb]
      · by_cases hb : b = a <;> simp [Memory.write, h, hv, hb, Memory.read]
    · subst h
      by_cases hv : v = 0#8
      · by_cases hb : b = a
        · simp [Memory.write, hv, hb, Memory.read_of_lt hm' (Nat.lt_succ_self a)]
        · simp [Memory.write, hv, hb, Memory.read]
      · by_cases hb : b = a <;> simp [Memory.write, hv, hb, Memory.read]
    · have h1 : ¬ a < x := by omega
      have h2 : ¬ a = x := by omega
      by_cases hb : b = x
      · have : ¬ b = a := by omega
        simp [Memory.write, h1, h2, Memory.read, hb, Ne.symm h2]
      · simp [Memory.write, h1, h2, Memory.read, hb, ih hm']

theorem Memory.read_write {m : Memory} (hm : m.wf = true) (a b : Nat) (v : Byte) :
    (m.write a v).read b = if b = a then v else m.read b := Memory.read_write_from hm a b v

/-- What a write leaves alone needs no canonical form. -/
theorem Memory.read_write_of_ne (m : Memory) {a b : Nat} (v : Byte) (h : b ≠ a) : (m.write a v).read b = m.read b := by
  induction m with
  | nil => by_cases hv : v = 0#8 <;> simp [Memory.write, Memory.read, hv, h]
  | cons c m ih =>
    obtain ⟨x, u⟩ := c
    unfold Memory.write
    split_ifs <;> simp_all [Memory.read]

theorem Memory.wfFrom_write {lo : Nat} {m : Memory} (hm : Memory.wfFrom lo m = true) {a : Nat} (v : Byte)
    (hlo : lo ≤ a) (ha : a < Config.bufLen) : Memory.wfFrom lo (m.write a v) = true := by
  induction m generalizing lo with
  | nil =>
    by_cases hv : v = 0#8
    · simp [Memory.write, hv]
    · simp [Memory.write, hv, Memory.wfFrom_cons, hlo, ha]
  | cons c m ih =>
    obtain ⟨x, u⟩ := c
    have hm0 := hm
    rw [Memory.wfFrom_cons] at hm
    obtain ⟨h1, h2, h3, h4⟩ := hm
    unfold Memory.write
    split_ifs with hax hv hax' hv
    · exact hm0
    · rw [Memory.wfFrom_cons, Memory.wfFrom_cons]
      exact ⟨hlo, ha, hv, by omega, h2, h3, h4⟩
    · exact Memory.wfFrom_mono (by omega) h4
    · rw [Memory.wfFrom_cons]
      exact ⟨hlo, ha, hv, Memory.wfFrom_mono (by omega) h4⟩
    · rw [Memory.wfFrom_cons]
      exact ⟨h1, h2, h3, ih h4 (by omega)⟩

/-- A write inside BUF keeps the canonical form. -/
theorem Memory.wf_write {m : Memory} (hm : m.wf = true) {a : Nat} (v : Byte) (ha : a < Config.bufLen) :
    (m.write a v).wf = true := Memory.wfFrom_write hm v (Nat.zero_le a) ha

/-- Writing a byte string inside BUF keeps the canonical form. -/
theorem Memory.wf_writeBytes {m : Memory} (hm : m.wf = true) (a : Nat) (bs : List Byte)
    (ha : a + bs.length ≤ Config.bufLen) : (m.writeBytes a bs).wf = true := by
  induction bs generalizing m a with
  | nil => exact hm
  | cons b bs ih =>
    rw [List.length_cons] at ha
    exact ih (Memory.wf_write hm b (by omega)) (a + 1) (by omega)

/-- Read after a byte string was written. -/
theorem Memory.read_writeBytes {m : Memory} (hm : m.wf = true) (a : Nat) (bs : List Byte)
    (ha : a + bs.length ≤ Config.bufLen) (b : Nat) :
    (m.writeBytes a bs).read b = if a ≤ b ∧ b < a + bs.length then bs.getD (b - a) 0#8 else m.read b := by
  induction bs generalizing m a with
  | nil =>
    rw [Memory.writeBytes, List.length_nil, if_neg (by omega)]
  | cons c bs ih =>
    rw [List.length_cons] at ha
    rw [Memory.writeBytes, ih (Memory.wf_write hm c (by omega)) (a + 1) (by omega), Memory.read_write hm]
    simp only [List.length_cons]
    by_cases h : b = a
    · subst h
      rw [if_neg (by omega), if_pos rfl, if_pos (by omega), Nat.sub_self]
      rfl
    · rw [if_neg h]
      by_cases h2 : a + 1 ≤ b ∧ b < a + 1 + bs.length
      · rw [if_pos h2, if_pos (by omega), show b - a = (b - (a + 1)) + 1 by omega, List.getD_cons_succ]
      · rw [if_neg h2, if_neg (by omega)]

theorem Memory.wf_nil : Memory.wf [] = true := rfl

theorem Memory.wf_reset : State.reset.buf.wf = true := rfl

@[simp] theorem Memory.length_readBytes (m : Memory) (a n : Nat) : (m.readBytes a n).length = n := by
  simp [Memory.readBytes]

theorem Memory.getD_readBytes (m : Memory) (a : Nat) {n k : Nat} (h : k < n) :
    (m.readBytes a n).getD k 0#8 = m.read (a + k) := by
  simp [Memory.readBytes, List.getD, h]

/-- Two memories of canonical form that read the same at every address are the same list. -/
theorem Memory.ext_from {lo : Nat} {m m' : Memory} (hm : Memory.wfFrom lo m = true) (hm' : Memory.wfFrom lo m' = true)
    (h : ∀ a, m.read a = m'.read a) : m = m' := by
  induction m generalizing lo m' with
  | nil =>
    cases m' with
    | nil => rfl
    | cons c m' =>
      obtain ⟨a, v⟩ := c
      rw [Memory.wfFrom_cons] at hm'
      exact absurd (by simpa [Memory.read] using (h a).symm) hm'.2.2.1
  | cons c m ih =>
    obtain ⟨a, v⟩ := c
    cases m' with
    | nil =>
      rw [Memory.wfFrom_cons] at hm
      exact absurd (by simpa [Memory.read] using h a) hm.2.2.1
    | cons c' m' =>
      obtain ⟨a', v'⟩ := c'
      rw [Memory.wfFrom_cons] at hm hm'
      obtain ⟨-, -, hv, hm⟩ := hm
      obtain ⟨-, -, hv', hm'⟩ := hm'
      have haa : a = a' := by
        rcases Nat.lt_trichotomy a a' with hlt | heq | hgt
        · have := h a
          rw [Memory.read, if_pos rfl, Memory.read, if_neg (by omega), Memory.read_of_lt hm' (by omega)] at this
          exact absurd this hv
        · exact heq
        · have := (h a').symm
          rw [Memory.read, if_pos rfl, Memory.read, if_neg (by omega), Memory.read_of_lt hm (by omega)] at this
          exact absurd this hv'
      subst haa
      have hvv : v = v' := by simpa [Memory.read] using h a
      subst hvv
      have htail : m = m' := by
        refine ih hm hm' fun b => ?_
        have hb := h b
        by_cases hba : b = a
        · subst hba
          rw [Memory.read_of_lt hm (by omega), Memory.read_of_lt hm' (by omega)]
        · simpa [Memory.read, hba] using hb
      rw [htail]

/-- Equal reads are equal memories: the canonical form makes the list unique. -/
theorem Memory.ext_read {m m' : Memory} (hm : m.wf = true) (hm' : m'.wf = true) (h : ∀ a, m.read a = m'.read a) :
    m = m' := Memory.ext_from hm hm' h

/-! ## The state's view of BUF -/

theorem loadByte_storeByte {s : State} (hs : s.buf.wf = true) (a b : Nat) (v : Byte) :
    (s.storeByte a v).loadByte b = if b = a then v else s.loadByte b := Memory.read_write hs a b v

theorem loadByte_storeRegion {s : State} (hs : s.buf.wf = true) (bs : List Byte) (h : bs.length ≤ Config.bufLen)
    (b : Nat) : (s.storeRegion bs).loadByte b = if b < bs.length then bs.getD b 0#8 else s.loadByte b := by
  simpa [State.storeRegion, State.loadByte] using Memory.read_writeBytes hs 0 bs (by omega) b

theorem getD_bufRegion (s : State) {n k : Nat} (h : k < n) : (s.bufRegion n).getD k 0#8 = s.loadByte k := by
  simpa [State.bufRegion, State.loadByte] using Memory.getD_readBytes s.buf 0 h

end Sys2Proof.Machine
end

