-- ==== Sys2Proof/Laws/Poly.lean ====
section
/-! SUPPORT. Coefficients: what `ofFn` and `setCoeff` leave at each index, extensionality, and the check of all 256. -/

namespace Sys2Proof

theorem Poly.coeff_eq_getElem (p : Poly) {j : Nat} (h : j < 256) : p.coeff j = (p[j]).toNat := by
  simp [Poly.coeff, List.getD, h]

@[simp] theorem Poly.coeff_of_le (p : Poly) {j : Nat} (h : 256 ≤ j) : p.coeff j = 0 := by
  simp [Poly.coeff, List.getD, h]

theorem Poly.coeff_lt (p : Poly) (j : Nat) : p.coeff j < 4096 := (p.toArray.toList.getD j 0#12).isLt

/-- A coefficient of `ofFn` is the given integer in 12 bits. -/
theorem Poly.coeff_ofFn (f : Nat → Nat) {j : Nat} (h : j < 256) : (Poly.ofFn f).coeff j = f j % 4096 := by
  simp [Poly.coeff, Poly.ofFn, List.getD, h]

/-- A coefficient of `ofFn` is the given integer when it fits 12 bits. -/
theorem Poly.coeff_ofFn_of_lt (f : Nat → Nat) {j : Nat} (h : j < 256) (hf : f j < 4096) :
    (Poly.ofFn f).coeff j = f j := by
  rw [Poly.coeff_ofFn f h, Nat.mod_eq_of_lt hf]

theorem Poly.ext_coeff {p r : Poly} (h : ∀ j, j < 256 → p.coeff j = r.coeff j) : p = r := by
  apply Vector.ext
  intro j hj
  apply BitVec.eq_of_toNat_eq
  rw [← Poly.coeff_eq_getElem p hj, ← Poly.coeff_eq_getElem r hj, h j hj]

@[simp] theorem Poly.coeff_zero (j : Nat) : Poly.zero.coeff j = 0 := by
  rcases Nat.lt_or_ge j 256 with h | h
  · rw [Poly.coeff_eq_getElem _ h, Poly.zero, Vector.getElem_replicate]
    rfl
  · exact Poly.coeff_of_le _ h

/-- `setCoeff` writes one coefficient and leaves the others. -/
theorem Poly.coeff_setCoeff (p : Poly) {j v : Nat} (k : Nat) (hj : j < 256) (hv : v < 4096) :
    (p.setCoeff j v).coeff k = if k = j then v else p.coeff k := by
  rcases Nat.lt_or_ge k 256 with h | h
  · rw [Poly.setCoeff, Poly.coeff_ofFn_of_lt _ h]
    split
    · exact hv
    · exact p.coeff_lt k
  · rw [Poly.coeff_of_le _ h, Poly.coeff_of_le _ h, if_neg (by omega)]

theorem Poly.allBelow_iff (p : Poly) (m : Nat) : p.allBelow m = true ↔ ∀ j, j < 256 → p.coeff j < m := by
  simp only [Poly.allBelow, List.all_eq_true, decide_eq_true_eq, List.mem_iff_getElem]
  constructor
  · intro h j hj
    rw [Poly.coeff_eq_getElem p hj]
    exact h _ ⟨j, by simpa using hj, by simp⟩
  · rintro h _ ⟨j, hj, rfl⟩
    have hj' : j < 256 := by simpa using hj
    have := h j hj'
    rw [Poly.coeff_eq_getElem p hj'] at this
    simpa using this

/-- A polynomial given by values below q is canonical. -/
theorem Poly.canonical_ofFn (f : Nat → Nat) (h : ∀ j, j < 256 → f j < Config.q) : (Poly.ofFn f).canonical := by
  intro j hj
  rw [Poly.coeff_ofFn f hj]
  have := h j hj
  omega

end Sys2Proof
end

