-- ==== Sys2Proof/Laws/Ops.lean ====
section
/-! SUPPORT. What each shared operation of the machine can do, said once: retiring, failing, waiting on the XOF port, and the
shapes that the commands have. -/

namespace Sys2Proof.Machine

/-! ## Retire and error entry -/

/-- A command that only touched scalars, polynomials and BUF before it retired has retired. -/
theorem retired_retire (s : State) (sc : Vector Word 8) (po : Vector Poly 8) (bu : Memory) :
    Retired s (retire { s with scal := sc, poly := po, buf := bu }) :=
  ⟨rfl, rfl, rfl, rfl, rfl, rfl, rfl, rfl, ⟨rfl, rfl, rfl, rfl⟩⟩

theorem failed_errorEntry (code : ErrCode) (w : Word) (s : State) : Failed code w s (errorEntry code w s) :=
  ⟨fun _ => rfl, fun _ => rfl, fun _ => rfl, rfl, rfl, rfl, rfl, rfl, rfl, rfl, rfl, ⟨rfl, rfl, rfl, rfl⟩⟩

theorem waits_exec (w : Word) (x : XofSession) (s : State) :
    Waits w x.mode x.msg x.pulled s { s with seq := .exec w, xof := some x } :=
  ⟨fun _ => rfl, fun _ => rfl, fun _ => rfl, rfl, rfl, rfl, rfl, rfl, rfl, rfl, rfl, ⟨rfl, rfl, rfl, rfl⟩⟩

/-! ## The shapes of a command -/

theorem writesScal_of {i : Instr} {s : State} {sd : SReg} {v : Nat}
    (h : exec i s = .next (retire (s.setScalVal sd v))) (hv : v < 2 ^ 32) : WritesScal i sd v s := by
  refine ⟨_, h, ?_, fun r hr => getScal_setScal_of_ne s _ hr, fun _ => rfl, fun _ => rfl, retired_retire s _ _ _⟩
  simpa [State.scalVal] using hv

theorem writesPoly_of {i : Instr} {s : State} {pd : PReg} {f : Poly} {g : Nat → Nat}
    (h : exec i s = .next (retire (s.setPoly pd f))) (hf : ∀ j, j < 256 → f.coeff j = g j) : WritesPoly i pd g s :=
  ⟨_, h, by simpa using hf, fun r hr => getPoly_setPoly_of_ne s _ hr, fun _ => rfl, fun _ => rfl,
    retired_retire s _ _ _⟩

theorem failsWith_of {i : Instr} {s : State} {code : ErrCode} (h : exec i s = .next (errorEntry code (encode i) s)) :
    FailsWith i code s := ⟨_, h, failed_errorEntry _ _ _⟩

theorem ifLegal_of_wellFormed {i : Instr} (h : i.wellFormed = true) (s body : State) : ifLegal i s body = body := by
  rw [ifLegal, if_pos h]

theorem ifLegal_of_not_wellFormed {i : Instr} (h : i.wellFormed = false) (s body : State) :
    ifLegal i s body = errorEntry .illegalCommand (encode i) s := by
  rw [ifLegal, if_neg (by simp [h])]

theorem canonicalPair_eq_some {s : State} {sa sb : SReg} (ha : s.scalVal sa < Config.q) (hb : s.scalVal sb < Config.q) :
    canonicalPair s sa sb = some (s.scalVal sa, s.scalVal sb) := if_pos ⟨ha, hb⟩

theorem canonicalPair_eq_none {s : State} {sa sb : SReg} (h : ¬ (s.scalVal sa < Config.q ∧ s.scalVal sb < Config.q)) :
    canonicalPair s sa sb = none := if_neg h

/-- A field command on canonical operands writes f of them. -/
theorem fieldCommand_of_canonical {i : Instr} {f : Nat → Nat → Nat} {sd sa sb : SReg} {s : State}
    (ha : s.scalVal sa < Config.q) (hb : s.scalVal sb < Config.q) :
    fieldCommand i f sd sa sb s = retire (s.setScalVal sd (f (s.scalVal sa) (s.scalVal sb))) := by
  rw [fieldCommand, canonicalPair_eq_some ha hb]

/-- A field command on an operand that is not canonical fails. -/
theorem fieldCommand_of_not_canonical {i : Instr} {f : Nat → Nat → Nat} {sd sa sb : SReg} {s : State}
    (h : ¬ (s.scalVal sa < Config.q ∧ s.scalVal sb < Config.q)) :
    fieldCommand i f sd sa sb s = errorEntry .operandRange (encode i) s := by
  rw [fieldCommand, canonicalPair_eq_none h]

/-! ## The XOF port -/

theorem pullUntil_of_done {done : Nat → Bool} {n : Nat} (h : done n = true) (pace : Nat) : pullUntil done pace n = n := by
  cases pace <;> simp [pullUntil, h]

/-- The pulls start at n and are at most `pace`. -/
theorem pullUntil_bounds (done : Nat → Bool) (pace n : Nat) :
    n ≤ pullUntil done pace n ∧ pullUntil done pace n ≤ n + pace := by
  induction pace generalizing n with
  | zero => simp [pullUntil]
  | succ p ih =>
    rw [pullUntil]
    split
    · omega
    · have := ih (n + 1)
      omega

/-- Until the count that is enough, no smaller count was. -/
theorem not_done_below_pullUntil (done : Nat → Bool) (pace n : Nat) {k : Nat} (h1 : n ≤ k)
    (h2 : k < pullUntil done pace n) : done k = false := by
  induction pace generalizing n with
  | zero => simp [pullUntil] at h2; omega
  | succ p ih =>
    rw [pullUntil] at h2
    split at h2
    · omega
    · rename_i hd
      rcases Nat.eq_or_lt_of_le h1 with rfl | hlt
      · simpa using hd
      · exact ih (n + 1) hlt h2

/-- Either the pulls reach a count that is enough, or the whole pace is spent. -/
theorem pullUntil_done_or (done : Nat → Bool) (pace n : Nat) :
    done (pullUntil done pace n) = true ∨ pullUntil done pace n = n + pace := by
  induction pace generalizing n with
  | zero => simp [pullUntil]
  | succ p ih =>
    rw [pullUntil]
    split
    · exact .inl ‹_›
    · rcases ih (n + 1) with h | h
      · exact .inl h
      · exact .inr (by omega)

/-- A pace in two parts pulls what the two parts pull one after the other. -/
theorem pullUntil_add (done : Nat → Bool) (a b n : Nat) :
    pullUntil done (a + b) n = pullUntil done b (pullUntil done a n) := by
  induction a generalizing n with
  | zero => simp [pullUntil]
  | succ a ih =>
    rw [show a + 1 + b = (a + b) + 1 by omega, pullUntil, pullUntil]
    split
    · exact (pullUntil_of_done ‹_› b).symm
    · exact ih (n + 1)

/-- All that a command on the XOF port can do in a step: retire with its polynomial, or stay in execution. -/
theorem xofCommand_cases (xof : Xof) (i : Instr) (mode : XofMode) (len : Nat) (done : (Nat → Byte) → Nat → Bool)
    (result : (Nat → Byte) → Nat → Poly) (pd : PReg) (s : State) :
    ∃ x, x = sessionOf mode len s ∧ ∃ n, n = pullUntil (done (xof x.mode x.msg)) s.xofPace x.pulled ∧
      ((done (xof x.mode x.msg) n = true
          ∧ xofCommand xof i mode len done result pd s = retire (s.setPoly pd (result (xof x.mode x.msg) n)))
        ∨ (done (xof x.mode x.msg) n = false
          ∧ xofCommand xof i mode len done result pd s
            = { s with seq := .exec (encode i), xof := some { x with pulled := n } })) := by
  refine ⟨_, rfl, _, rfl, ?_⟩
  cases h : done (xof (sessionOf mode len s).mode (sessionOf mode len s).msg)
      (pullUntil (done (xof (sessionOf mode len s).mode (sessionOf mode len s).msg)) s.xofPace
        (sessionOf mode len s).pulled)
  · exact .inr ⟨rfl, by simp [xofCommand, h]⟩
  · exact .inl ⟨rfl, by simp [xofCommand, h]⟩

/-- A command on the XOF port by the session it opens or continues: the form to rewrite with, once for each session. -/
theorem xofCommand_eq {xof : Xof} {i : Instr} {mode : XofMode} {len : Nat} {done : (Nat → Byte) → Nat → Bool}
    {result : (Nat → Byte) → Nat → Poly} {pd : PReg} {s : State} {x : XofSession} (hx : sessionOf mode len s = x) :
    xofCommand xof i mode len done result pd s =
      if done (xof x.mode x.msg) (pullUntil (done (xof x.mode x.msg)) s.xofPace x.pulled)
      then retire (s.setPoly pd
        (result (xof x.mode x.msg) (pullUntil (done (xof x.mode x.msg)) s.xofPace x.pulled)))
      else { s with
        seq := .exec (encode i)
        xof := some { x with pulled := pullUntil (done (xof x.mode x.msg)) s.xofPace x.pulled } } := by
  subst hx
  rfl

theorem sessionOf_none {s : State} (h : s.xof = none) (mode : XofMode) (len : Nat) :
    sessionOf mode len s = ⟨mode, s.bufRegion len, 0⟩ := by
  simp [sessionOf, h]

theorem sessionOf_some {s : State} {x : XofSession} (h : s.xof = some x) (mode : XofMode) (len : Nat) :
    sessionOf mode len s = x := by
  simp [sessionOf, h]

theorem bufRegion_eq_map (s : State) (n : Nat) : s.bufRegion n = (List.range n).map s.loadByte := by
  simp only [State.bufRegion, Memory.readBytes, Nat.zero_add]
  rfl

/-- More blocks of a stream only add accepted values at the end. -/
theorem accepted_prefix (stream : Nat → Byte) {k m : Nat} (h : k ≤ m) : accepted stream k <+: accepted stream m := by
  induction h with
  | refl => exact List.prefix_rfl
  | step _ ih => exact ih.trans (List.prefix_append _ _)

/-- Every accepted candidate is below q. -/
theorem accepted_lt (stream : Nat → Byte) (k : Nat) : ∀ v ∈ accepted stream k, v < Config.q := by
  induction k with
  | zero => simp [accepted]
  | succ k ih =>
    intro v hv
    rw [accepted, List.mem_append] at hv
    rcases hv with hv | hv
    · exact ih v hv
    · exact of_decide_eq_true (List.mem_filter.mp hv).2

/-! ## Bit strings -/

theorem bitsValue_lt (b : Nat → Bool) (o n : Nat) : bitsValue b o n < 2 ^ n := by
  induction n with
  | zero => simp [bitsValue]
  | succ n ih =>
    rw [bitsValue, Nat.pow_succ]
    cases b (o + n) <;> simp <;> omega

/-- Bit j of the value of n bits from o on is bit o + j of the string. -/
theorem testBit_bitsValue (b : Nat → Bool) (o n j : Nat) (h : j < n) : (bitsValue b o n).testBit j = b (o + j) := by
  induction n with
  | zero => omega
  | succ n ih =>
    rw [bitsValue]
    have hlt := bitsValue_lt b o n
    cases hb : b (o + n)
    · simp only [Bool.toNat_false, Nat.zero_mul, Nat.add_zero]
      rcases Nat.lt_or_ge j n with hj | hj
      · exact ih hj
      · obtain rfl : j = n := by omega
        rw [hb, Nat.testBit_lt_two_pow hlt]
    · simp only [Bool.toNat_true, Nat.one_mul]
      rw [Nat.add_comm]
      rcases Nat.lt_or_ge j n with hj | hj
      · rw [Nat.testBit_two_pow_add_gt hj, ih hj]
      · obtain rfl : j = n := by omega
        rw [hb, Nat.testBit_two_pow_add_eq, Nat.testBit_lt_two_pow hlt]
        rfl

theorem bitCount_le (b : Nat → Bool) (o n : Nat) : bitCount b o n ≤ n := by
  induction n with
  | zero => simp [bitCount]
  | succ n ih => rw [bitCount]; cases b (o + n) <;> simp <;> omega

@[simp] theorem length_bitsToBytes (b : Nat → Bool) (len : Nat) : (bitsToBytes b len).length = len := by
  simp [bitsToBytes]

@[simp] theorem length_byteEncode (d : Nat) (f : Poly) : (byteEncode d f).length = 32 * d := length_bitsToBytes _ _

/-- Bit t of a packed string is bit t of the string (R10 after R9). -/
theorem bytesToBits_bitsToBytes (b : Nat → Bool) {len t : Nat} (h : t < 8 * len) :
    bytesToBits (bitsToBytes b len) t = b t := by
  have h1 : t / 8 < len := by omega
  have h2 : t % 8 < 8 := Nat.mod_lt _ (by omega)
  simp only [bytesToBits, bitsToBytes, List.getD, List.getElem?_map, List.getElem?_range h1, Option.map_some,
    Option.getD_some, BitVec.getLsbD_ofNat, h2, decide_true, Bool.true_and]
  rw [testBit_bitsValue _ _ _ _ h2]
  congr 1
  omega

/-! ## Arithmetic modulo q -/

theorem addMod_lt (a b : Nat) : addMod a b < Config.q := Nat.mod_lt _ (by decide)
theorem subMod_lt (a b : Nat) : subMod a b < Config.q := Nat.mod_lt _ (by decide)
theorem mulMod_lt (a b : Nat) : mulMod a b < Config.q := Nat.mod_lt _ (by decide)
theorem zetas_lt (i : Nat) : zetas i < Config.q := Nat.mod_lt _ (by decide)
theorem gamma_lt (i : Nat) : gamma i < Config.q := Nat.mod_lt _ (by decide)

theorem fieldAdd_eq {a b : Nat} (ha : a < Config.q) (hb : b < Config.q) : fieldAdd a b = (a + b) % Config.q := by
  simp only [Config.q] at *
  unfold fieldAdd csubq Config.q
  split_ifs <;> omega

theorem fieldSub_eq {a b : Nat} (ha : a < Config.q) (hb : b < Config.q) : fieldSub a b = subMod a b := by
  simp only [Config.q] at *
  unfold fieldSub csubq subMod Config.q
  split_ifs <;> omega

/-- A canonical coefficient of a polynomial whose values are residues. -/
theorem coeff_ofFn_residue (f : Nat → Nat) {j : Nat} (h : j < 256) (hf : f j < Config.q) :
    (Poly.ofFn f).coeff j = f j := Poly.coeff_ofFn_of_lt f h (by simp only [Config.q] at hf; omega)

/-! ## All that a command can do -/

/-- A command answers a next state, always: it retires having touched only scalars, polynomials and BUF; or it fails by
error entry; or it uses the XOF port and stays in execution. -/
theorem exec_cases (i : Instr) (s : State) : ∃ t, exec i s = .next t ∧
    ((∃ sc po bu, t = retire { s with scal := sc, poly := po, buf := bu })
      ∨ (∃ code, code ≠ .none ∧ t = errorEntry code (encode i) s)
      ∨ (i.usesXof = true ∧ ∃ x, t = { s with seq := .exec (encode i), xof := some x })) := by
  have hscal : ∀ sd v, ∃ sc po bu, retire (s.setScal sd v) = retire { s with scal := sc, poly := po, buf := bu } :=
    fun _ _ => ⟨_, _, _, rfl⟩
  have hpoly : ∀ pd f, ∃ sc po bu, retire (s.setPoly pd f) = retire { s with scal := sc, poly := po, buf := bu } :=
    fun _ _ => ⟨_, _, _, rfl⟩
  have hfield : ∀ (j : Instr) (f : Nat → Nat → Nat) (sd sa sb : SReg),
      (∃ sc po bu, fieldCommand j f sd sa sb s = retire { s with scal := sc, poly := po, buf := bu })
        ∨ (∃ code, code ≠ .none ∧ fieldCommand j f sd sa sb s = errorEntry code (encode j) s) := by
    intro j f sd sa sb
    by_cases h : s.scalVal sa < Config.q ∧ s.scalVal sb < Config.q
    · exact .inl (fieldCommand_of_canonical h.1 h.2 ▸ hscal _ _)
    · exact .inr ⟨.operandRange, by decide, fieldCommand_of_not_canonical h⟩
  have hlegal : ∀ (j : Instr) (body : State),
      ((∃ sc po bu, body = retire { s with scal := sc, poly := po, buf := bu })
        ∨ (∃ code, code ≠ .none ∧ body = errorEntry code (encode j) s)) →
      ((∃ sc po bu, ifLegal j s body = retire { s with scal := sc, poly := po, buf := bu })
        ∨ (∃ code, code ≠ .none ∧ ifLegal j s body = errorEntry code (encode j) s)) := by
    intro j body hb
    cases h : j.wellFormed
    · exact .inr ⟨.illegalCommand, by decide, ifLegal_of_not_wellFormed h s body⟩
    · rwa [ifLegal_of_wellFormed h]
  have hite : ∀ (j : Instr) (c : Prop) [Decidable c] (body : State) (code : ErrCode), code ≠ .none →
      (∃ sc po bu, body = retire { s with scal := sc, poly := po, buf := bu }) →
      ((∃ sc po bu, (if c then body else errorEntry code (encode j) s)
          = retire { s with scal := sc, poly := po, buf := bu })
        ∨ (∃ code', code' ≠ .none ∧ (if c then body else errorEntry code (encode j) s)
          = errorEntry code' (encode j) s)) := by
    intro j c _ body code hc hb
    by_cases h : c
    · rw [if_pos h]; exact .inl hb
    · rw [if_neg h]; exact .inr ⟨code, hc, rfl⟩
  have two : ∀ {j : Instr} {t : State},
      ((∃ sc po bu, t = retire { s with scal := sc, poly := po, buf := bu })
        ∨ (∃ code, code ≠ .none ∧ t = errorEntry code (encode j) s)) →
      ((∃ sc po bu, t = retire { s with scal := sc, poly := po, buf := bu })
        ∨ (∃ code, code ≠ .none ∧ t = errorEntry code (encode j) s)
        ∨ (j.usesXof = true ∧ ∃ x, t = { s with seq := .exec (encode j), xof := some x })) := by
    rintro j t (h | h)
    · exact .inl h
    · exact .inr (.inl h)
  have hxof : ∀ (j : Instr) mode len done result pd, j.usesXof = true →
      ((∃ sc po bu, xofCommand machineXof j mode len done result pd s
          = retire { s with scal := sc, poly := po, buf := bu })
        ∨ (∃ code, code ≠ .none ∧ xofCommand machineXof j mode len done result pd s = errorEntry code (encode j) s)
        ∨ (j.usesXof = true ∧ ∃ x, xofCommand machineXof j mode len done result pd s
          = { s with seq := .exec (encode j), xof := some x })) := by
    intro j mode len done result pd hj
    obtain ⟨x, -, n, -, ⟨-, h⟩ | ⟨-, h⟩⟩ := xofCommand_cases machineXof j mode len done result pd s
    · exact .inl (h ▸ hpoly _ _)
    · exact .inr (.inr ⟨hj, _, h⟩)
  cases i with
  | nop => exact ⟨_, rfl, .inl ⟨_, _, _, rfl⟩⟩
  | zeroize => exact ⟨_, rfl, .inl ⟨_, _, _, rfl⟩⟩
  | bzero => exact ⟨_, rfl, .inl ⟨_, _, _, rfl⟩⟩
  | sli sd v => exact ⟨_, rfl, .inl (hscal _ _)⟩
  | smulw sd sa sb => exact ⟨_, rfl, .inl (hscal _ _)⟩
  | fadd sd sa sb => exact ⟨_, rfl, two (hfield _ _ _ _ _)⟩
  | fsub sd sa sb => exact ⟨_, rfl, two (hfield _ _ _ _ _)⟩
  | fmul sd sa sb => exact ⟨_, rfl, two (hfield _ _ _ _ _)⟩
  | csubq sd sa => exact ⟨_, rfl, .inl (hscal _ _)⟩
  | bred sd sa => exact ⟨_, rfl, .inl (hscal _ _)⟩
  | mred sd sa => exact ⟨_, rfl, two (hite _ _ _ _ (by decide) (hscal _ _))⟩
  | cget sd pa idx => exact ⟨_, rfl, .inl (hscal _ _)⟩
  | cset pd sa idx => exact ⟨_, rfl, two (hite _ _ _ _ (by decide) (hpoly _ _))⟩
  | ldb sd addr => exact ⟨_, rfl, two (hlegal _ _ (.inl (hscal _ _)))⟩
  | stb sa addr => exact ⟨_, rfl, two (hlegal _ _ (.inl ⟨_, _, _, rfl⟩))⟩
  | pmov pd pa => exact ⟨_, rfl, .inl (hpoly _ _)⟩
  | padd pd pa pb => exact ⟨_, rfl, .inl (hpoly _ _)⟩
  | psub pd pa pb => exact ⟨_, rfl, .inl (hpoly _ _)⟩
  | ntt pd pa => exact ⟨_, rfl, .inl (hpoly _ _)⟩
  | intt pd pa => exact ⟨_, rfl, .inl (hpoly _ _)⟩
  | pmul pd pa pb => exact ⟨_, rfl, .inl (hpoly _ _)⟩
  | pmac pd pa pb => exact ⟨_, rfl, .inl (hpoly _ _)⟩
  | pzero pd => exact ⟨_, rfl, .inl (hpoly _ _)⟩
  | samplentt pd => exact ⟨_, rfl, hxof _ _ _ _ _ _ rfl⟩
  | cbd pd eta => exact ⟨_, rfl, two (hlegal _ _ (.inl (hpoly _ _)))⟩
  | prfcbd pd eta =>
    refine ⟨_, rfl, ?_⟩
    cases h : (Instr.prfcbd pd eta).wellFormed
    · exact .inr (.inl ⟨.illegalCommand, by decide, ifLegal_of_not_wellFormed h s _⟩)
    · rw [prfcbdWith, ifLegal_of_wellFormed h]
      exact hxof _ _ _ _ _ _ rfl
  | encode pa d => exact ⟨_, rfl, two (hlegal _ _ (hite _ _ _ _ (by decide) ⟨_, _, _, rfl⟩))⟩
  | decode pd d => exact ⟨_, rfl, two (hlegal _ _ (.inl (hpoly _ _)))⟩
  | compress pd pa d => exact ⟨_, rfl, two (hlegal _ _ (.inl (hpoly _ _)))⟩
  | decompress pd pa d => exact ⟨_, rfl, two (hlegal _ _ (hite _ _ _ _ (by decide) (hpoly _ _)))⟩

end Sys2Proof.Machine
end

