-- ==== Sys2Proof/Laws/PerInstr.lean ====
section
/-! SUPPORT. Statements about every command as syntax, one lemma per constructor. Family `OpcodeByte`: the word of a
command carries the opcode byte of its row in R96. -/

namespace Sys2Proof.Laws.OpcodeByte

/-- The opcode byte of R96. -/
def opcodeOf : Instr → Nat
  | .nop => 0x00
  | .zeroize => 0x01
  | .bzero => 0x02
  | .sli _ _ => 0x10
  | .smulw _ _ _ => 0x11
  | .fadd _ _ _ => 0x12
  | .fsub _ _ _ => 0x13
  | .fmul _ _ _ => 0x14
  | .csubq _ _ => 0x15
  | .bred _ _ => 0x16
  | .mred _ _ => 0x17
  | .cget _ _ _ => 0x18
  | .cset _ _ _ => 0x19
  | .ldb _ _ => 0x1A
  | .stb _ _ => 0x1B
  | .pmov _ _ => 0x20
  | .padd _ _ _ => 0x21
  | .psub _ _ _ => 0x22
  | .ntt _ _ => 0x23
  | .intt _ _ => 0x24
  | .pmul _ _ _ => 0x25
  | .pmac _ _ _ => 0x26
  | .pzero _ => 0x27
  | .samplentt _ => 0x30
  | .cbd _ _ => 0x31
  | .prfcbd _ _ => 0x32
  | .encode _ _ => 0x40
  | .decode _ _ => 0x41
  | .compress _ _ _ => 0x42
  | .decompress _ _ _ => 0x43

/-- The word of the command has its opcode byte. -/
def Statement (i : Instr) : Prop := opField (Sys2Proof.encode i) = opcodeOf i

theorem of_formatR {op rd ra rb imm : Nat} (hop : op < 256) (hrd : rd < 8) (hra : ra < 8) (hrb : rb < 8)
    (himm : imm < 4096) : opField (formatR op rd ra rb imm) = op :=
  opField_formatR hop (by omega) (by omega) (by omega) himm

theorem nop : Statement .nop := of_formatR (by decide) (by decide) (by decide) (by decide) (by decide)
theorem zeroize : Statement .zeroize := of_formatR (by decide) (by decide) (by decide) (by decide) (by decide)
theorem bzero : Statement .bzero := of_formatR (by decide) (by decide) (by decide) (by decide) (by decide)
theorem sli (sd : Fin 8) (v : BitVec 16) : Statement (.sli sd v) := opField_formatI (by decide) (by omega) v.isLt
theorem smulw (sd : Fin 8) (sa : Fin 8) (sb : Fin 8) : Statement (.smulw sd sa sb) := of_formatR (by decide) sd.isLt sa.isLt sb.isLt (by decide)
theorem fadd (sd : Fin 8) (sa : Fin 8) (sb : Fin 8) : Statement (.fadd sd sa sb) := of_formatR (by decide) sd.isLt sa.isLt sb.isLt (by decide)
theorem fsub (sd : Fin 8) (sa : Fin 8) (sb : Fin 8) : Statement (.fsub sd sa sb) := of_formatR (by decide) sd.isLt sa.isLt sb.isLt (by decide)
theorem fmul (sd : Fin 8) (sa : Fin 8) (sb : Fin 8) : Statement (.fmul sd sa sb) := of_formatR (by decide) sd.isLt sa.isLt sb.isLt (by decide)
theorem csubq (sd : Fin 8) (sa : Fin 8) : Statement (.csubq sd sa) := of_formatR (by decide) sd.isLt sa.isLt (by decide) (by decide)
theorem bred (sd : Fin 8) (sa : Fin 8) : Statement (.bred sd sa) := of_formatR (by decide) sd.isLt sa.isLt (by decide) (by decide)
theorem mred (sd : Fin 8) (sa : Fin 8) : Statement (.mred sd sa) := of_formatR (by decide) sd.isLt sa.isLt (by decide) (by decide)
theorem cget (sd : Fin 8) (pa : Fin 8) (idx : BitVec 8) : Statement (.cget sd pa idx) := of_formatR (by decide) sd.isLt pa.isLt (by decide) (by omega)
theorem cset (pd : Fin 8) (sa : Fin 8) (idx : BitVec 8) : Statement (.cset pd sa idx) := of_formatR (by decide) pd.isLt sa.isLt (by decide) (by omega)
theorem ldb (sd : Fin 8) (addr : BitVec 9) : Statement (.ldb sd addr) := of_formatR (by decide) sd.isLt (by decide) (by decide) (by omega)
theorem stb (sa : Fin 8) (addr : BitVec 9) : Statement (.stb sa addr) := of_formatR (by decide) (by decide) sa.isLt (by decide) (by omega)
theorem pmov (pd : Fin 8) (pa : Fin 8) : Statement (.pmov pd pa) := of_formatR (by decide) pd.isLt pa.isLt (by decide) (by decide)
theorem padd (pd : Fin 8) (pa : Fin 8) (pb : Fin 8) : Statement (.padd pd pa pb) := of_formatR (by decide) pd.isLt pa.isLt pb.isLt (by decide)
theorem psub (pd : Fin 8) (pa : Fin 8) (pb : Fin 8) : Statement (.psub pd pa pb) := of_formatR (by decide) pd.isLt pa.isLt pb.isLt (by decide)
theorem ntt (pd : Fin 8) (pa : Fin 8) : Statement (.ntt pd pa) := of_formatR (by decide) pd.isLt pa.isLt (by decide) (by decide)
theorem intt (pd : Fin 8) (pa : Fin 8) : Statement (.intt pd pa) := of_formatR (by decide) pd.isLt pa.isLt (by decide) (by decide)
theorem pmul (pd : Fin 8) (pa : Fin 8) (pb : Fin 8) : Statement (.pmul pd pa pb) := of_formatR (by decide) pd.isLt pa.isLt pb.isLt (by decide)
theorem pmac (pd : Fin 8) (pa : Fin 8) (pb : Fin 8) : Statement (.pmac pd pa pb) := of_formatR (by decide) pd.isLt pa.isLt pb.isLt (by decide)
theorem pzero (pd : Fin 8) : Statement (.pzero pd) := of_formatR (by decide) pd.isLt (by decide) (by decide) (by decide)
theorem samplentt (pd : Fin 8) : Statement (.samplentt pd) := of_formatR (by decide) pd.isLt (by decide) (by decide) (by decide)
theorem cbd (pd : Fin 8) (eta : BitVec 4) : Statement (.cbd pd eta) := of_formatR (by decide) pd.isLt (by decide) (by decide) (by omega)
theorem prfcbd (pd : Fin 8) (eta : BitVec 4) : Statement (.prfcbd pd eta) := of_formatR (by decide) pd.isLt (by decide) (by decide) (by omega)
theorem encode (pa : Fin 8) (d : BitVec 4) : Statement (.encode pa d) := of_formatR (by decide) (by decide) pa.isLt (by decide) (by omega)
theorem decode (pd : Fin 8) (d : BitVec 4) : Statement (.decode pd d) := of_formatR (by decide) pd.isLt (by decide) (by decide) (by omega)
theorem compress (pd : Fin 8) (pa : Fin 8) (d : BitVec 4) : Statement (.compress pd pa d) := of_formatR (by decide) pd.isLt pa.isLt (by decide) (by omega)
theorem decompress (pd : Fin 8) (pa : Fin 8) (d : BitVec 4) : Statement (.decompress pd pa d) := of_formatR (by decide) pd.isLt pa.isLt (by decide) (by omega)

end Sys2Proof.Laws.OpcodeByte
end

