-- ==== Sys2Proof/Laws/Step.lean ====
section
/-! SUPPORT. What the sequencer takes next, what the host port does, and all that a step can do. -/

namespace Sys2Proof.Machine

/-! ## The sequencer's next command -/

theorem fetch_idle_nil {s : State} (hs : s.seq = .idle) (hq : s.cmdq = []) : fetch s = none := by
  simp [fetch, hs, hq]

theorem fetch_idle_cons {s : State} {w : Word} {rest : List Word} (hs : s.seq = .idle) (hq : s.cmdq = w :: rest) :
    fetch s = some (w, { s with cmdq := rest, seq := .exec w }) := by
  simp [fetch, hs, hq]

theorem fetch_exec {s : State} {w : Word} (hs : s.seq = .exec w) : fetch s = some (w, s) := by
  simp [fetch, hs]

theorem fetch_error {s : State} (hs : s.seq = .error) : fetch s = none := by
  simp [fetch, hs]

/-- A command taken is the head of the queue in IDLE or the word already in execution; either way it is in execution. -/
theorem fetch_some_cases {s t : State} {w : Word} (h : fetch s = some (w, t)) :
    (s.seq = .idle ∧ ∃ rest, s.cmdq = w :: rest ∧ t = { s with cmdq := rest, seq := .exec w })
      ∨ (s.seq = .exec w ∧ t = s) := by
  unfold fetch at h
  split at h
  · rename_i hs
    split at h
    · simp at h
    · rename_i w' rest hq
      simp only [Option.some.injEq, Prod.mk.injEq] at h
      obtain ⟨rfl, rfl⟩ := h
      exact .inl ⟨hs, rest, hq, rfl⟩
  · rename_i w' hs
    simp only [Option.some.injEq, Prod.mk.injEq] at h
    obtain ⟨rfl, rfl⟩ := h
    exact .inr ⟨hs, rfl⟩
  · simp at h

/-- A word in execution is run as its command, or fails with ILLEGAL_COMMAND. -/
theorem runWord_of_ok {w : Word} {i : Instr} (h : decode w = .ok i) (s : State) : runWord w s = exec i s := by
  simp [runWord, h]

theorem runWord_of_error {w : Word} {e : DecodeError} (h : decode w = .error e) (s : State) :
    runWord w s = .next (errorEntry .illegalCommand w s) := by
  simp [runWord, h]

/-! ## Turns -/

/-- Choosing the turn takes it off the schedule and changes nothing else. -/
theorem nextTurn_snd (s : State) : (nextTurn s).2 = { s with turns := s.turns.tail } := by
  cases s with
  | mk scal poly buf cmdq seq err errCmd errIdx ccnt ien xof turns hostReqs hostReply xofPace =>
    cases turns with
    | cons t ts => rfl
    | nil =>
      cases hostReqs with
      | nil => rfl
      | cons r rs =>
        simp only [nextTurn]
        split <;> rfl

theorem nextTurn_cons {s : State} {t : Turn} {ts : List Turn} (h : s.turns = t :: ts) :
    nextTurn s = (t, { s with turns := ts }) := by
  simp [nextTurn, h]

/-! ## The host port -/

theorem hostStep_nil {s : State} (h : s.hostReqs = []) : hostStep s = s := by
  simp [hostStep, h]

theorem hostStep_ready {s : State} {req : HostReq} {rest : List HostReq} (h : s.hostReqs = req :: rest)
    (hr : hostReady req s = true) : hostStep s = serve req { s with hostReqs := rest } := by
  simp [hostStep, h, hr]

theorem hostStep_held {s : State} {req : HostReq} {rest : List HostReq} (h : s.hostReqs = req :: rest)
    (hr : hostReady req s = false) : hostStep s = { s with hostReply := .held } := by
  simp [hostStep, h, hr]

/-- The port's turn: nothing, a held transaction, a read, or a write. -/
theorem hostStep_cases (s : State) :
    hostStep s = s ∨ hostStep s = { s with hostReply := .held } ∨
    ∃ req rest, s.hostReqs = req :: rest ∧ hostReady req s = true ∧
      ((∃ a, req = .read a ∧ ∃ r, hostStep s = { s with hostReqs := rest, hostReply := r })
        ∨ (∃ a v, req = .write a v
          ∧ ∃ r, hostStep s = { hostWrite a v { s with hostReqs := rest } with hostReply := r })) := by
  cases h : s.hostReqs with
  | nil => exact .inl (hostStep_nil h)
  | cons req rest =>
    cases hr : hostReady req s with
    | false => exact .inr (.inl (by rw [hostStep_held h hr, h]))
    | true =>
      refine .inr (.inr ⟨req, rest, rfl, hr, ?_⟩)
      rw [hostStep_ready h hr]
      cases req with
      | read a => exact .inl ⟨a, rfl, _, rfl⟩
      | write a v => exact .inr ⟨a, v, rfl, _, rfl⟩

theorem hostReg_eq_cmd {a : BitVec 10} (h : hostReg a = .cmd) : a = 0#10 := by
  unfold hostReg at h
  simp only at h
  split_ifs at h with h0
  exact BitVec.eq_of_toNat_eq (by simpa using h0)

theorem hostReg_eq_ctrl {a : BitVec 10} (h : hostReg a = .ctrl) : a = 2#10 := by
  unfold hostReg at h
  simp only at h
  split_ifs at h with h0 h1 h2
  exact BitVec.eq_of_toNat_eq (by simpa using h2)

/-- A write that completes: a push, a soft reset, CLRERR, or scalars, BUF and IEN only. -/
theorem hostWrite_cases (a : BitVec 10) (v : Word) (s : State) :
    (a = 0#10 ∧ hostWrite a v s = { s with cmdq := s.cmdq ++ [v] })
      ∨ (a = 2#10 ∧ v.getLsbD 1 = true ∧ hostWrite a v s = resetBlock s)
      ∨ (a = 2#10 ∧ v.getLsbD 1 = false ∧ v.getLsbD 0 = true ∧ hostWrite a v s = clearError s)
      ∨ ∃ sc bu ie, hostWrite a v s = { s with scal := sc, buf := bu, ien := ie } := by
  unfold hostWrite
  cases h : hostReg a with
  | cmd => exact .inl ⟨hostReg_eq_cmd h, rfl⟩
  | ctrl =>
    have ha := hostReg_eq_ctrl h
    simp only [writeCtrl]
    cases h1 : v.getLsbD 1
    · cases h0 : v.getLsbD 0
      · exact .inr (.inr (.inr ⟨_, _, _, rfl⟩))
      · exact .inr (.inr (.inl ⟨ha, rfl, rfl, by simp⟩))
    · exact .inr (.inl ⟨ha, rfl, by simp⟩)
  | _ => exact .inr (.inr (.inr ⟨_, _, _, rfl⟩))

theorem clearError_cases (s : State) :
    (s.seq = .error ∧ clearError s = { s with cmdq := [], err := .none, seq := .idle })
      ∨ (s.seq ≠ .error ∧ clearError s = s) := by
  unfold clearError
  cases h : s.seq <;> simp

/-- A pop takes the head of the queue in IDLE and does nothing else. -/
theorem popOnly_cases (s : State) :
    (s.seq = .idle ∧ ∃ w rest, s.cmdq = w :: rest ∧ popOnly s = { s with cmdq := rest, seq := .exec w })
      ∨ popOnly s = s := by
  unfold popOnly
  cases h : fetch s with
  | none => exact .inr rfl
  | some p =>
    obtain ⟨w, t⟩ := p
    rcases fetch_some_cases h with ⟨h1, rest, h2, h3⟩ | ⟨h1, h2⟩
    · exact .inl ⟨h1, w, rest, h2, h3⟩
    · exact .inr h2

/-! ## All that a step can do -/

/-- A step answers a next state, always, and it is the one of the agent whose turn it is. -/
theorem step_cases (s : State) : ∃ t, step s = .next t ∧
    (((nextTurn s).1 = .sequencer ∧ fetch (nextTurn s).2 = none ∧ t = (nextTurn s).2)
      ∨ ((nextTurn s).1 = .sequencer ∧ ∃ w u, fetch (nextTurn s).2 = some (w, u) ∧
          ((∃ i, decode w = .ok i ∧ exec i u = .next t)
            ∨ ((∃ e, decode w = .error e) ∧ t = errorEntry .illegalCommand w u)))
      ∨ ((nextTurn s).1 = .pop ∧ t = popOnly (nextTurn s).2)
      ∨ ((nextTurn s).1 = .host ∧ t = hostStep (nextTurn s).2)
      ∨ ((nextTurn s).1 = .hardReset ∧ t = hardReset (nextTurn s).2)
      ∨ (∃ n, (nextTurn s).1 = .xofPace n ∧ t = { (nextTurn s).2 with xofPace := n })) := by
  unfold step
  split
  · rename_i t ht
    rw [ht]
    unfold sequencerStep
    cases hf : fetch t with
    | none => exact ⟨t, rfl, .inl ⟨rfl, rfl, rfl⟩⟩
    | some p =>
      obtain ⟨w, u⟩ := p
      cases hd : decode w with
      | ok i =>
        obtain ⟨v, hv, -⟩ := exec_cases i u
        refine ⟨v, by rw [← hv]; exact runWord_of_ok hd u, .inr (.inl ⟨rfl, w, u, rfl, .inl ⟨i, hd, hv⟩⟩)⟩
      | error e =>
        exact ⟨_, runWord_of_error hd u, .inr (.inl ⟨rfl, w, u, rfl, .inr ⟨⟨e, hd⟩, rfl⟩⟩)⟩
  · rename_i t ht
    exact ⟨_, rfl, .inr (.inr (.inl ⟨by rw [ht], by rw [ht]⟩))⟩
  · rename_i t ht
    exact ⟨_, rfl, .inr (.inr (.inr (.inl ⟨by rw [ht], by rw [ht]⟩)))⟩
  · rename_i t ht
    exact ⟨_, rfl, .inr (.inr (.inr (.inr (.inl ⟨by rw [ht], by rw [ht]⟩))))⟩
  · rename_i n t ht
    exact ⟨_, rfl, .inr (.inr (.inr (.inr (.inr ⟨n, by rw [ht], by rw [ht]⟩))))⟩

/-- A word placed for the next step is run by it, whatever the state was. -/
theorem step_placeWord (s : State) (w : Word) :
    step (placeWord s w) = runWord w { s with
      cmdq := s.cmdq.tail, seq := .exec w, err := .none, xof := none } := by
  rw [step, nextTurn_cons (rfl : (placeWord s w).turns = .sequencer :: s.turns)]
  rfl

end Sys2Proof.Machine
end

