-- ==== Sys2Proof/Tests/Slice0.lean ====
section
/-! SUPPORT. Tests: ill-formed commands, a word of every command written out from 30_encoding.md R91 and R96, one or two
values per command from the spec's own examples and vectors, and a witness for every statement that has hypotheses. -/

namespace Sys2Proof.Tests

open Sys2Proof Sys2Proof.Machine

/-! ## Helpers -/

/-- The state of a next outcome. -/
def after : Result → State
  | .next s => s
  | .fault _ => State.reset
  | .refused _ => State.reset

/-- Reset with s1 = a and s2 = b. -/
def scalars (a b : Nat) : State := (State.reset.setScalVal 1 a).setScalVal 2 b

/-- The polynomial that begins with the given coefficients, zeros after them. -/
def poly (l : List Nat) : Poly := Poly.ofFn fun j => l.getD j 0

/-- Reset with p0 and p1 given. -/
def polys (f g : List Nat) : State := (State.reset.setPoly 0 (poly f)).setPoly 1 (poly g)

/-- Reset with the first bytes of BUF given. -/
def bytes (l : List Nat) : State := State.reset.storeRegion (l.map (BitVec.ofNat 8))

/-- The first n coefficients of a polynomial register. -/
def first (n : Nat) (s : State) (r : PReg) : List Nat := (List.range n).map (s.getPoly r).coeff

/-- The host's turn with one transaction outstanding. -/
def hostTurn (req : HostReq) (s : State) : State := { s with turns := [.host], hostReqs := [req] }

/-! ## Well-formedness refuses (R93, R97) -/

theorem test_ldb_384_ill_formed : (Instr.ldb 0 384#9).wellFormed = false := by decide
theorem test_ldb_383_well_formed : (Instr.ldb 0 383#9).wellFormed = true := by decide
theorem test_stb_511_ill_formed : (Instr.stb 0 511#9).wellFormed = false := by decide
theorem test_encode_0_ill_formed : (Instr.encode 0 0#4).wellFormed = false := by decide
theorem test_encode_13_ill_formed : (Instr.encode 0 13#4).wellFormed = false := by decide
theorem test_decode_0_ill_formed : (Instr.decode 0 0#4).wellFormed = false := by decide
theorem test_decode_15_ill_formed : (Instr.decode 0 15#4).wellFormed = false := by decide
theorem test_compress_12_ill_formed : (Instr.compress 1 0 12#4).wellFormed = false := by decide
theorem test_decompress_0_ill_formed : (Instr.decompress 1 0 0#4).wellFormed = false := by decide
theorem test_cbd_1_ill_formed : (Instr.cbd 0 1#4).wellFormed = false := by decide
theorem test_prfcbd_4_ill_formed : (Instr.prfcbd 0 4#4).wellFormed = false := by decide

/-! ## A word of every command, its bits written out: op, rd, ra, rb, imm12 (R91, R96) -/

theorem test_word_nop : decodeTableWord 32 0b00000000000000000000000000000000 = some .nop := by decide
theorem test_word_zeroize : decodeTableWord 32 0b00000001000000000000000000000000 = some .zeroize := by decide
theorem test_word_bzero : decodeTableWord 32 0b00000010000000000000000000000000 = some .bzero := by decide
theorem test_word_sli : decodeTableWord 32 0b00010000010100001010101111001101 = some (.sli 5 0xABCD#16) := by decide
theorem test_word_smulw : decodeTableWord 32 0b00010001011101100101000000000000 = some (.smulw 7 6 5) := by decide
theorem test_word_fadd : decodeTableWord 32 0b00010010000100100011000000000000 = some (.fadd 1 2 3) := by decide
theorem test_word_fsub : decodeTableWord 32 0b00010011001100100001000000000000 = some (.fsub 3 2 1) := by decide
theorem test_word_fmul : decodeTableWord 32 0b00010100010000000111000000000000 = some (.fmul 4 0 7) := by decide
theorem test_word_csubq : decodeTableWord 32 0b00010101001001100000000000000000 = some (.csubq 2 6) := by decide
theorem test_word_bred : decodeTableWord 32 0b00010110010001010000000000000000 = some (.bred 4 5) := by decide
theorem test_word_mred : decodeTableWord 32 0b00010111011100010000000000000000 = some (.mred 7 1) := by decide
theorem test_word_cget : decodeTableWord 32 0b00011000000100100000000011111111 = some (.cget 1 2 255#8) := by decide
theorem test_word_cset : decodeTableWord 32 0b00011001011100110000000000000001 = some (.cset 7 3 1#8) := by decide
theorem test_word_ldb : decodeTableWord 32 0b00011010001100000000000101111111 = some (.ldb 3 383#9) := by decide
theorem test_word_stb : decodeTableWord 32 0b00011011000000110000000100000000 = some (.stb 3 256#9) := by decide
theorem test_word_pmov : decodeTableWord 32 0b00100000001101100000000000000000 = some (.pmov 3 6) := by decide
theorem test_word_padd : decodeTableWord 32 0b00100001000000010010000000000000 = some (.padd 0 1 2) := by decide
theorem test_word_psub : decodeTableWord 32 0b00100010001000010000000000000000 = some (.psub 2 1 0) := by decide
theorem test_word_ntt : decodeTableWord 32 0b00100011000101000000000000000000 = some (.ntt 1 4) := by decide
theorem test_word_intt : decodeTableWord 32 0b00100100010000010000000000000000 = some (.intt 4 1) := by decide
theorem test_word_pmul : decodeTableWord 32 0b00100101010000100011000000000000 = some (.pmul 4 2 3) := by decide
theorem test_word_pmac : decodeTableWord 32 0b00100110001000000001000000000000 = some (.pmac 2 0 1) := by decide
theorem test_word_pzero : decodeTableWord 32 0b00100111011000000000000000000000 = some (.pzero 6) := by decide
theorem test_word_samplentt : decodeTableWord 32 0b00110000010100000000000000000000 = some (.samplentt 5) := by decide
theorem test_word_cbd : decodeTableWord 32 0b00110001001100000000000000000010 = some (.cbd 3 2#4) := by decide
theorem test_word_prfcbd : decodeTableWord 32 0b00110010011000000000000000000011 = some (.prfcbd 6 3#4) := by decide
theorem test_word_encode : decodeTableWord 32 0b01000000000000100000000000001100 = some (.encode 2 12#4) := by decide
theorem test_word_decode : decodeTableWord 32 0b01000001001000000000000000000001 = some (.decode 2 1#4) := by decide
theorem test_word_compress : decodeTableWord 32 0b01000010000101110000000000001010 = some (.compress 1 7 10#4) := by decide
theorem test_word_decompress : decodeTableWord 32 0b01000011011100010000000000001011 = some (.decompress 7 1 11#4) := by decide

/-- The illegal words of R99 and 95_test_vectors.md section 2.5 select no command. -/
theorem test_illegal_words : ([0x12800000, 0x12123001, 0x1A000180, 0x40000000, 0x4000000D, 0x4210000C, 0x31000001,
    0x31000004, 0x10010000, 0x03000000, 0x00000001, 0xFFFFFFFF, 0x23108000, 0x41000000, 0x4300000C, 0x30000001].map
    (decodeTableWord 32)).all Option.isNone = true := by decide

/-- The reasons are named: register number, unused field, immediate range, opcode (R92, R93, R94). -/
theorem test_illegal_reasons : (decode 0x12800000#32, decode 0x12123001#32, decode 0x1A000180#32, decode 0x03000000#32)
    = (.error .registerNumber, .error .unusedField, .error .immediateRange, .error .unlistedOpcode) := rfl

/-! ## Values (95_test_vectors.md sections 2.1 to 2.4 and the examples of the rules) -/

theorem test_fadd_example : (after (exec (.fadd 0 1 2) (scalars 3000 500))).scalVal 0 = 171 := by decide
theorem test_fadd_range : (after (exec (.fadd 0 1 2) (scalars 3329 0))).err = .operandRange := by decide
theorem test_fsub_wraps : (after (exec (.fsub 1 1 2) (scalars 5 7))).scalVal 1 = 3327 := by decide
theorem test_fsub_zero_less_max : (after (exec (.fsub 0 1 2) (scalars 0 3328))).scalVal 0 = 1 := by decide
theorem test_fmul_example : (after (exec (.fmul 2 1 2) (scalars 1729 1729))).scalVal 2 = 3328 := by decide
theorem test_fmul_inverse : (after (exec (.fmul 0 1 2) (scalars 3303 128))).scalVal 0 = 1 := by decide
theorem test_smulw_example : (after (exec (.smulw 0 1 2) (scalars 3328 3328))).scalVal 0 = 11075584 := by decide
theorem test_smulw_wraps : (after (exec (.smulw 0 1 2) (scalars 0xFFFFFFFF 0xFFFFFFFF))).scalVal 0 = 1 := by decide
theorem test_csubq_once : (after (exec (.csubq 0 1) (scalars 6658 0))).scalVal 0 = 3329 := by decide
theorem test_csubq_max : (after (exec (.csubq 0 1) (scalars 0xFFFFFFFF 0))).scalVal 0 = 0xFFFFF2FE := by decide
theorem test_bred_max : (after (exec (.bred 0 1) (scalars 0xFFFFFFFF 0))).scalVal 0 = 1352 := by decide
theorem test_bred_square : (after (exec (.bred 0 1) (scalars 11075584 0))).scalVal 0 = 1 := by decide
theorem test_mred_largest : (after (exec (.mred 0 1) (scalars 218169343 0))).scalVal 0 = 3160 := by decide
theorem test_mred_range : (after (exec (.mred 0 1) (scalars 218169344 0))).err = .operandRange := by decide
theorem test_sli_high : (after (exec (.sli 0 0xFFFF#16) State.reset)).scalVal 0 = 65535 := by decide
theorem test_cget_last : (after (exec (.cget 1 2 255#8)
    (State.reset.setPoly 2 (Poly.ofFn fun j => if j = 255 then 2303 else 0)))).scalVal 1 = 2303 := by decide +kernel
theorem test_cset_index : first 3 (after (exec (.cset 7 1 1#8) (scalars 3328 0))) 7 = [0, 3328, 0] := by decide +kernel
theorem test_cset_range : (after (exec (.cset 7 1 1#8) (scalars 3329 0))).errCmd = 0x19710001#32 := by decide
theorem test_ldb_last : (after (exec (.ldb 3 383#9) { State.reset with buf := [(383, 0xAB#8)] })).scalVal 3 = 0xAB := by
  decide
theorem test_stb_truncates : (after (exec (.stb 1 0#9) (scalars 0x12345678 0))).buf = [(0, 0x78#8)] := by decide
theorem test_stb_zero_removes : (after (exec (.stb 0 1#9) (bytes [1, 2, 3]))).buf = [(0, 1#8), (2, 3#8)] := by decide
theorem test_nop_counts : (after (exec .nop { State.reset with ccnt := 4#32 })).ccnt = 5#32 := by decide
theorem test_ccnt_wraps : (after (exec .nop { State.reset with ccnt := 0xFFFFFFFF#32 })).ccnt = 0#32 := by decide
theorem test_zeroize_scalar : (after (exec .zeroize (scalars 7 8))).scalVal 1 = 0 := by decide
theorem test_bzero_buf : (after (exec .bzero (bytes [1, 2, 3]))).buf = [] := by decide

theorem test_pmov : first 4 (after (exec (.pmov 3 0) (polys [5, 6, 7] []))) 3 = [5, 6, 7, 0] := by decide +kernel
theorem test_padd : first 2 (after (exec (.padd 0 0 1) (polys [3000, 3328] [500, 1]))) 0 = [171, 0] := by decide +kernel
theorem test_psub : first 2 (after (exec (.psub 2 0 1) (polys [5, 0] [7, 1]))) 2 = [3327, 3328] := by decide +kernel
theorem test_pzero : first 2 (after (exec (.pzero 0) (polys [5, 6] []))) 0 = [0, 0] := by decide +kernel
theorem test_ntt_of_X_squared : first 6 (after (exec (.ntt 1 0) (polys [0, 0, 1] []))) 1 = [17, 0, 3312, 0, 2761, 0] := by
  decide +kernel
theorem test_intt_of_unit : first 3 (after (exec (.intt 1 0) (polys [1] []))) 1 = [3303, 0, 2740] := by decide +kernel
theorem test_pmul_base_case : first 4 (after (exec (.pmul 2 0 1) (polys [1, 2, 3328, 3328] [3, 4, 3328, 3328]))) 2
    = [139, 10, 3313, 2] := by decide +kernel
theorem test_pmac_twice : first 4 (after (exec (.pmac 2 0 1) (after (exec (.pmac 2 0 1) (polys [0, 1, 0, 1] [0, 1, 0, 1])))))
    2 = [34, 0, 3295, 0] := by decide +kernel

theorem test_encode_12 : (after (exec (.encode 0 12#4) (polys [0xABC, 0x123, 3328] []))).bufRegion 6
    = [0xBC#8, 0x3A#8, 0x12#8, 0x00#8, 0x0D#8, 0x00#8] := by decide +kernel
theorem test_encode_rejects : (after (exec (.encode 0 4#4) (polys [16] []))).err = .invalidCoefficient := by decide +kernel
theorem test_decode_12_reduces : first 4 (after (exec (.decode 0 12#4) (bytes [0x01, 0x0D, 0x10, 0xD0]))) 0
    = [0, 256, 208, 0] := by decide +kernel
theorem test_decode_1 : first 9 (after (exec (.decode 0 1#4) (bytes [0xA5]))) 0 = [1, 0, 1, 0, 0, 1, 0, 1, 0] := by
  decide +kernel
theorem test_compress_4 : first 6 (after (exec (.compress 1 0 4#4) (polys [104, 105, 1664, 3224, 3225, 3328] []))) 1
    = [0, 1, 8, 15, 0, 0] := by decide +kernel
theorem test_decompress_4 : first 4 (after (exec (.decompress 1 0 4#4) (polys [1, 2, 8, 15] []))) 1
    = [208, 416, 1665, 3121] := by decide +kernel
theorem test_decompress_range : (after (exec (.decompress 1 0 4#4) (polys [16] []))).err = .operandRange := by decide +kernel
theorem test_cbd_2 : first 8 (after (exec (.cbd 0 2#4) (bytes [0x0F, 0xF0, 0x33, 0x55]))) 0 = [0, 0, 0, 0, 2, 2, 0, 0] := by
  decide +kernel
theorem test_cbd_3 : first 4 (after (exec (.cbd 0 3#4) (bytes [0x07, 0xE0, 0x15]))) 0 = [3, 0, 0, 2] := by decide +kernel

/-- The start of the SHAKE-128 stream of 34 zero bytes: block 0 rejects both candidates, block 1 accepts both (R192). -/
theorem test_samplentt_candidates : candidates 0x49#8 0xDF#8 0xD9#8 = [] ∧ candidates 0x80#8 0x9B#8 0xBC#8 = [2944, 3017] := by
  decide

/-- The start of the SHAKE-256 stream of 33 zero bytes, η = 2 (R198). -/
theorem test_prfcbd_first : (List.range 8).map (cbdCoeff 2 (bytesToBits [0xC0#8, 0x3F#8, 0xCC#8, 0x81#8]))
    = [0, 3327, 0, 2, 3327, 3327, 1, 3328] := by decide

/-- The sum and the ends of the table zetas (R122), and γ[2i] = zetas[64 + i], γ[2i+1] = q − γ[2i] (R123). -/
theorem test_zetas : zetas 0 = 1 ∧ zetas 1 = 1729 ∧ zetas 64 = 17 ∧ ((List.range 128).map zetas).sum = 216801 := by
  decide +kernel
theorem test_gamma : ((List.range 128).map gamma).sum = 213056
    ∧ (List.range 64).all (fun i => gamma (2 * i) == zetas (64 + i) && gamma (2 * i + 1) == 3329 - gamma (2 * i)) = true := by
  decide +kernel

/-! ## Steps -/

theorem test_step_runs_word : (after (step (State.reset.withFetchWord 32 0x10000D01))).scalVal 0 = 0x0D01 := by decide
theorem test_step_illegal_word : (after (step (State.reset.withFetchWord 32 0xFFFFFFFF))).err = .illegalCommand := by decide
theorem test_pop_only : (after (step { State.reset with turns := [.pop], cmdq := [0#32, 1#32] })).seq = .exec 0#32 := by
  decide
theorem test_clrerr : (after (step (hostTurn (.write 2#10 1#32) (errorEntry .operandRange 9#32 State.reset)))).seq = .idle := by
  decide
theorem test_host_window : (after (step (hostTurn (.write 128#10 0x00000FFF#32) State.reset))).buf
    = [(0, 0xFF#8), (1, 0x0F#8)] := by decide
theorem test_host_reads_id : (after (step (hostTurn (.read 7#10) State.reset))).hostReply = .read 0x4B504131#32 false := by
  decide
theorem test_host_reserved : (after (step (hostTurn (.read 16#10) State.reset))).hostReply = .read 0#32 true := by decide
theorem test_host_held : (after (step (hostTurn (.read 8#10) { State.reset with cmdq := [0#32] }))).hostReply = .held := by
  decide
theorem test_memory_wf_refuses_zero_entry : Memory.wf [(3, 0#8)] = false := by decide
theorem test_memory_wf_refuses_disorder : Memory.wf [(3, 1#8), (3, 2#8)] = false := by decide
theorem test_memory_wf_refuses_384 : Memory.wf [(384, 1#8)] = false := by decide

/-! ## Witnesses: for every statement with hypotheses, a state and operands that meet them, at the ends of their ranges -/

/-- SAMPLENTT p5 in execution, its session open and nothing pulled. -/
def midSample : State :=
  { State.reset with seq := .exec 0x30500000#32, xof := some ⟨.shake128, State.reset.bufRegion 34, 0⟩, turns := [.sequencer] }

/-- The same with one byte less than 128 blocks to come, and PRFCBD p6, 3 one byte short of its 192 with a silent core. -/
def starved : State := { midSample with xofPace := 383 }
def silentPrf : State :=
  { midSample with seq := .exec 0x32600003#32, xof := some ⟨.shake256, State.reset.bufRegion 33, 191⟩, xofPace := 0 }

/-- ERROR with a word in the queue. -/
def inError : State := { errorEntry .operandRange 0x12123000#32 State.reset with cmdq := [0#32] }

/-- The XOF that answers 0 always, and the one that answers 0xFF always. -/
def zeroXof : Xof := fun _ _ _ => 0#8
def onesXof : Xof := fun _ _ _ => 0xFF#8

theorem accepted_length_le (stream : Nat → Byte) (k : Nat) : (accepted stream k).length ≤ 2 * k := by
  induction k with
  | zero => simp [accepted]
  | succ k ih =>
    have h := List.length_filter_le (fun d => decide (d < Config.q))
      [(stream (3 * k)).toNat + 256 * ((stream (3 * k + 1)).toNat % 16),
        (stream (3 * k + 1)).toNat / 16 + 16 * (stream (3 * k + 2)).toNat]
    simp only [accepted, candidates, List.length_append, List.length_cons, List.length_nil] at h ⊢
    omega

theorem accepted_ones (k : Nat) : accepted (fun _ => 0xFF#8) k = [] := by
  induction k with
  | zero => rfl
  | succ k ih => rw [accepted, ih]; decide

theorem witness_ResetsGiveEveryResetValue :
    ({ midSample with turns := [.hardReset] } : State).turns = .hardReset :: []
      ∧ (hostTurn (.write 2#10 3#32) midSample).turns = .host :: []
      ∧ (hostTurn (.write 2#10 3#32) midSample).hostReqs = .write 2#10 3#32 :: [] ∧ (3#32).getLsbD 1 = true :=
  ⟨rfl, rfl, rfl, rfl⟩

theorem witness_EveryStepKeepsTheInvariant : Invariant midSample ∧ ∃ t, step midSample = .next t := by
  refine ⟨⟨?_, rfl, ?_, ?_, ?_⟩, _, (step_cases midSample).choose_spec.1⟩
  · intro r j hj
    have h : midSample.getPoly r = Poly.zero := by simp [midSample, State.reset, State.getPoly, Vector.get]
    rw [h, Poly.coeff_zero]
    decide
  · simp [midSample, State.reset]
  · simp [midSample, State.reset]
  · rintro x hx
    obtain rfl : x = ⟨.shake128, State.reset.bufRegion 34, 0⟩ := by simpa [midSample, eq_comm] using hx
    exact ⟨_, rfl, .inl ⟨5, rfl, rfl, rfl, rfl⟩⟩

theorem witness_DecodeOfEncodeIsTheCommand : (Instr.decompress 7 3 11#4).wellFormed = true
    ∧ (Instr.stb 7 383#9).wellFormed = true ∧ (Instr.encode 0 12#4).wellFormed = true
    ∧ (Instr.prfcbd 0 3#4).wellFormed = true := by decide

theorem witness_EncodeOfDecodeIsTheWord : decode 0x4373000B#32 = .ok (.decompress 7 3 11#4) := rfl

theorem witness_DecodeAgreesWithMaskAndMatch : decode 0x1B07017F#32 = .ok (.stb 7 383#9) := rfl

theorem witness_StepRunsTheDecodedCommand :
    (∃ t, nextTurn (placeWord State.reset 0x16440000#32) = (.sequencer, t) ∧ decode 0x16440000#32 = .ok (.bred 4 4)
        ∧ t.seq = .idle ∧ t.cmdq = 0x16440000#32 :: [])
      ∧ (∃ t, nextTurn midSample = (.sequencer, t) ∧ decode 0x30500000#32 = .ok (.samplentt 5)
        ∧ t.seq = .exec 0x30500000#32)
      ∧ (∃ t, nextTurn State.reset = (.sequencer, t) ∧ t.seq = .idle ∧ t.cmdq = [])
      ∧ ∃ t, nextTurn inError = (.sequencer, t) ∧ t.seq = .error :=
  ⟨⟨_, rfl, rfl, rfl, rfl⟩, ⟨_, rfl, rfl, rfl⟩, ⟨_, rfl, rfl, rfl⟩, _, rfl, rfl⟩

theorem witness_PoppingFirstChangesNothing :
    ({ State.reset with cmdq := [0#32], turns := [.pop, .sequencer] } : State).turns = .pop :: .sequencer :: []
      ∧ ∃ t, step { State.reset with cmdq := [0#32], turns := [.pop, .sequencer] } = .next t := ⟨rfl, _, rfl⟩

theorem witness_IllegalWordFails :
    ∃ t, nextTurn (placeWord State.reset 0x1A000180#32) = (.sequencer, t) ∧ t.seq = .idle
      ∧ t.cmdq = 0x1A000180#32 :: [] ∧ decode 0x1A000180#32 = .error .immediateRange :=
  ⟨_, rfl, rfl, rfl, rfl⟩

theorem witness_ImmediatesOutOfRangeAreIllegal : ([.ldb 0 384#9, .stb 0 511#9, .encode 0 0#4, .encode 0 13#4, .decode 0 15#4,
    .compress 0 0 0#4, .compress 0 0 12#4, .decompress 0 0 15#4, .cbd 0 1#4, .cbd 0 4#4, .prfcbd 0 0#4] : List Instr).all
    (fun i => i.wellFormed == false) = true := by decide

theorem witness_FieldCommandsComputeModuloQ :
    ((scalars 3328 0).scalVal 1 < 3329 ∧ (scalars 3328 0).scalVal 2 < 3329) ∧ 3329 ≤ (scalars 3329 0).scalVal 1
      ∧ 3329 ≤ (scalars 0 3329).scalVal 2 := by decide

theorem witness_MontgomeryReductionDividesByR :
    (scalars 218169343 0).scalVal 1 < 218169344 ∧ 218169344 ≤ (scalars 218169344 0).scalVal 1 := by decide

theorem witness_BarrettDatapathIsExact : 0xFFFFFFFF < 2 ^ 32 := by decide

theorem witness_MontgomeryDatapathIsExact : 218169343 < 218169344 := by decide

theorem witness_ScalarLoadsZeroExtend : ((polys [3328] []).getPoly 0).canonical := by decide +kernel

theorem witness_CoefficientWriteChecksTheScalar :
    (scalars 3328 0).scalVal 1 < 3329 ∧ 3329 ≤ (scalars 3329 0).scalVal 1 := by decide

theorem witness_ByteLoadsAndStores : (bytes [1, 0, 255]).buf.wf = true ∧ (383#9).toNat < 384 ∧ (0#9).toNat < 384 := by decide

theorem witness_TransformsAreInverse :
    ((polys [5, 3328] []).getPoly 0).canonical
      ∧ (∃ t u, exec (.ntt 0 0) (polys [5, 3328] []) = .next t ∧ exec (.intt 2 0) t = .next u)
      ∧ ∃ t u, exec (.intt 1 0) (polys [5, 3328] []) = .next t ∧ exec (.ntt 2 1) t = .next u :=
  ⟨by decide +kernel, ⟨_, _, rfl, rfl⟩, _, _, rfl, rfl⟩

theorem witness_MultiplyAccumulateIsMultiplyThenAdd :
    (3 : PReg) ≠ 2 ∧ ∃ t u, exec (.pmul 3 0 1) (polys [1, 2] [3, 4]) = .next t ∧ exec (.padd 2 2 3) t = .next u :=
  ⟨by decide, _, _, rfl, rfl⟩

theorem witness_TransformedProductIsTheRingProduct :
    (2 : PReg) ≠ 1 ∧ (2 : PReg) ≠ 3 ∧ (0 < 256 ∧ 255 < 256)
      ∧ ∃ s1 s2 s3 s4, exec (.ntt 2 0) (polys [0, 1] [0, 0, 1]) = .next s1 ∧ exec (.ntt 3 1) s1 = .next s2
        ∧ exec (.pmul 2 2 3) s2 = .next s3 ∧ exec (.intt 2 2) s3 = .next s4 :=
  ⟨by decide, by decide, by decide, _, _, _, _, rfl, rfl, rfl, rfl⟩

theorem witness_EncodeWritesThePackedBits :
    (polys [15] []).buf.wf = true ∧ (1 ≤ (1#4).toNat ∧ (12#4).toNat ≤ 12)
      ∧ (∀ i, i < 256 → ((polys [1] []).getPoly 0).coeff i < if (1#4).toNat = 12 then 3329 else 2 ^ (1#4).toNat)
      ∧ (∀ i, i < 256 → ((polys [3328] []).getPoly 0).coeff i < if (12#4).toNat = 12 then 3329 else 2 ^ (12#4).toNat)
      ∧ (∃ i, i < 256 ∧ (if (12#4).toNat = 12 then 3329 else 2 ^ (12#4).toNat) ≤ ((polys [3329] []).getPoly 0).coeff i)
      ∧ ∃ i, i < 256 ∧ (if (11#4).toNat = 12 then 3329 else 2 ^ (11#4).toNat) ≤ ((polys [0, 2048] []).getPoly 0).coeff i :=
  ⟨rfl, by decide, by decide +kernel, by decide +kernel, ⟨0, by decide +kernel⟩, 1, by decide +kernel⟩

theorem witness_DecodeReadsThePackedBits : 1 ≤ (1#4).toNat ∧ (1#4).toNat ≤ 12 ∧ 1 ≤ (12#4).toNat ∧ (12#4).toNat ≤ 12 := by
  decide

theorem witness_DecodeAfterEncodeIsTheIdentity :
    (polys [3328, 7] []).buf.wf = true ∧ 1 ≤ (12#4).toNat ∧ (12#4).toNat ≤ 12
      ∧ ∀ i, i < 256 → ((polys [3328, 7] []).getPoly 0).coeff i < if (12#4).toNat = 12 then 3329 else 2 ^ (12#4).toNat :=
  ⟨rfl, by decide, by decide, by decide +kernel⟩

theorem witness_EncodeAfterDecodeIsTheModulusCheck :
    (bytes [0x01, 0x0D]).buf.wf = true ∧ 1 ≤ (12#4).toNat ∧ (12#4).toNat ≤ 12
      ∧ (∀ k, k < 256 → ∑ j ∈ Finset.range 12, ((bytes [0x00, 0x0D]).bufBit (12 * k + j)).toNat * 2 ^ j < 3329)
      ∧ ¬ ∀ k, k < 256 → ∑ j ∈ Finset.range 12, ((bytes [0x01, 0x0D]).bufBit (12 * k + j)).toNat * 2 ^ j < 3329 :=
  ⟨by decide, by decide, by decide, by decide +kernel, by decide +kernel⟩

theorem witness_CompressRoundsToNearest : 1 ≤ (1#4).toNat ∧ (1#4).toNat ≤ 11 ∧ 1 ≤ (11#4).toNat ∧ (11#4).toNat ≤ 11 := by
  decide

theorem witness_DecompressRoundsToNearest :
    (1 ≤ (11#4).toNat ∧ (11#4).toNat ≤ 11)
      ∧ (∀ i, i < 256 → ((polys [2047] []).getPoly 0).coeff i < 2 ^ (11#4).toNat)
      ∧ ∃ i, i < 256 ∧ 2 ^ (11#4).toNat ≤ ((polys [2048] []).getPoly 0).coeff i :=
  ⟨by decide, by decide +kernel, 0, by decide +kernel⟩

theorem witness_CompressionErrorIsBounded :
    ((1, 832) ∈ [(1, 832), (2, 416), (3, 208), (4, 104), (5, 52), (6, 26), (7, 13), (8, 7), (9, 3), (10, 2), (11, 1)])
      ∧ (0 < 3329 ∧ 3328 < 3329) := by decide

theorem witness_CompressedPolynomialsAlwaysEncode :
    (polys [3328, 7] []).buf.wf = true ∧ 1 ≤ (11#4).toNat ∧ (11#4).toNat ≤ 11 := by decide

theorem witness_BinomialSamplingOfBufferBits : (2#4).toNat = 2 ∧ (3#4).toNat = 3 := by decide

theorem witness_PrfSamplingPullsSixtyFourEtaBytes :
    (3#4).toNat = 3 ∧ State.reset.xof = none ∧ 64 * (3#4).toNat ≤ ({ State.reset with xofPace := 192 } : State).xofPace
      ∧ ({ State.reset with xofPace := 191 } : State).xofPace < 64 * (3#4).toNat := ⟨rfl, rfl, by decide, by decide⟩

theorem witness_RejectionSamplingWritesTheAccepted :
    ({ State.reset with xofPace := 384 } : State).xof = none
      ∧ (256 ≤ (accepted (zeroXof .shake128 ((List.range 34).map State.reset.loadByte)) 128).length
        ∧ 3 * 128 ≤ ({ State.reset with xofPace := 384 } : State).xofPace)
      ∧ ∀ m, 3 * m ≤ ({ State.reset with xofPace := 383 } : State).xofPace →
        (accepted (zeroXof .shake128 ((List.range 34).map State.reset.loadByte)) m).length < 256 := by
  refine ⟨rfl, ⟨by decide +kernel, by decide⟩, fun m hm => ?_⟩
  have h := accepted_length_le (zeroXof .shake128 ((List.range 34).map State.reset.loadByte)) m
  simp only at hm
  omega

theorem witness_RejectionSamplingHangsOnPoorStreams :
    State.reset.xof = none
      ∧ (∀ k, (accepted (onesXof .shake128 ((List.range 34).map State.reset.loadByte)) k).length < 256)
      ∧ (starved.seq = .exec (encode (.samplentt 5))
        ∧ (∀ m, 3 * m ≤ (sessionOf .shake128 34 starved).pulled + starved.xofPace →
          (accepted (machineXof (sessionOf .shake128 34 starved).mode (sessionOf .shake128 34 starved).msg) m).length < 256)
        ∧ ¬ resetsNext starved ∧ ∃ t, step starved = .next t)
      ∧ silentPrf.seq = .exec (encode (.prfcbd 6 3#4)) ∧ (3#4).toNat = 3
        ∧ (sessionOf .shake256 33 silentPrf).pulled + silentPrf.xofPace < 64 * (3#4).toNat
        ∧ ¬ resetsNext silentPrf ∧ ∃ t, step silentPrf = .next t := by
  refine ⟨rfl, fun k => ?_, ⟨rfl, fun m hm => ?_, by simp [resetsNext, nextTurn, starved, midSample], _,
    (step_cases starved).choose_spec.1⟩, rfl, rfl, by decide, by simp [resetsNext, nextTurn, silentPrf, midSample], _,
    (step_cases silentPrf).choose_spec.1⟩
  · rw [show onesXof .shake128 ((List.range 34).map State.reset.loadByte) = fun _ => 0xFF#8 from rfl, accepted_ones]
    decide
  · have h : 3 * m ≤ 383 := hm
    have := accepted_length_le
      (machineXof (sessionOf .shake128 34 starved).mode (sessionOf .shake128 34 starved).msg) m
    omega

theorem witness_XofPaceDoesNotChangeTheResult :
    (samplenttWith zeroXof 5 { State.reset with xofPace := 2 }).xof ≠ none
      ∧ (prfcbdWith zeroXof 5 2#4 { State.reset with xofPace := 127 }).xof ≠ none := by decide +kernel

theorem witness_BufferCommandsReadOnlyTheirRegion :
    (∀ a, 0 ≤ a → a < 64 * (3#4).toNat → Memory.read [(192, 7#8)] a = State.reset.buf.read a)
      ∧ (∃ t t', exec (.cbd 0 3#4) State.reset = .next t
        ∧ exec (.cbd 0 3#4) { State.reset with buf := [(192, 7#8)] } = .next t')
      ∧ (∀ a, (383#9).toNat ≤ a → a < (383#9).toNat + 1 → Memory.read [(382, 7#8)] a = State.reset.buf.read a)
      ∧ ∃ t t', exec (.ldb 0 383#9) State.reset = .next t
        ∧ exec (.ldb 0 383#9) { State.reset with buf := [(382, 7#8)] } = .next t' := by
  refine ⟨fun a _ h => ?_, ⟨_, _, rfl, rfl⟩, fun a h h' => ?_, _, _, rfl, rfl⟩
  · have h2 : a ≠ 192 := by simp only [BitVec.reduceToNat] at h; omega
    simp [Memory.read, h2, State.reset]
  · have h2 : a ≠ 382 := by simp only [BitVec.reduceToNat] at h; omega
    simp [Memory.read, h2, State.reset]

theorem witness_ErrorEntryStopsTheBlock :
    ErrCode.operandRange ≠ .none ∧ (3#2).getLsbD 0 = true ∧ gatedIndex (8#10).toNat ∧ gatedIndex (15#10).toNat
      ∧ gatedIndex (128#10).toNat ∧ gatedIndex (223#10).toNat := by
  refine ⟨by decide, by decide, ?_, ?_, ?_, ?_⟩ <;> simp [gatedIndex]

theorem witness_LegalCommandRaisesOnlyItsError : (Instr.encode 3 12#4).wellFormed = true := by decide

theorem witness_ErrorsArePrecise :
    ∃ s t, step s = .next t ∧ s.err = .none ∧ t.err ≠ .none ∧ s.seq = .idle ∧ s.cmdq = [0xFFFFFFFF#32, 0#32] :=
  ⟨{ State.reset with cmdq := [0xFFFFFFFF#32, 0#32] }, _, rfl, rfl, by decide, rfl, rfl⟩

theorem witness_ClearErrorReturnsToIdle :
    (hostTurn (.write 2#10 1#32) inError).turns = .host :: []
      ∧ (hostTurn (.write 2#10 1#32) inError).hostReqs = .write 2#10 1#32 :: []
      ∧ (1#32).getLsbD 1 = false ∧ (1#32).getLsbD 0 = true
      ∧ (hostTurn (.write 2#10 1#32) inError).seq = .error
      ∧ (hostTurn (.write 2#10 1#32) midSample).seq ≠ .error := by decide

theorem witness_ErrorStateIsLeftOnlyByTheHost :
    ∃ t, step (hostTurn (.write 2#10 1#32) inError) = .next t ∧ (hostTurn (.write 2#10 1#32) inError).seq = .error :=
  ⟨_, rfl, rfl⟩

theorem witness_CommandsWriteOnlyTheirDestinations :
    (bytes [1, 2, 3]).buf.wf = true ∧ (∃ t, exec (.encode 0 12#4) (bytes [1, 2, 3]) = .next t)
      ∧ (Instr.encode 0 1#4).mayWriteBuf 32 = false ∧ (Instr.stb 1 383#9).mayWriteBuf 382 = false
      ∧ (Instr.sli 7 0#16).mayWriteScal 6 = false ∧ (Instr.ntt 7 0).mayWritePoly 0 = false :=
  ⟨by decide, ⟨_, rfl⟩, rfl, rfl, rfl, rfl⟩

theorem witness_OtherCommandsReadNoScalar :
    (Instr.cget 0 0 255#8).readsScal = false ∧ ∃ t t', exec (.cget 0 0 255#8) State.reset = .next t
      ∧ exec (.cget 0 0 255#8) { State.reset with scal := Vector.replicate 8 7#32 } = .next t' :=
  ⟨rfl, _, _, rfl, rfl⟩

theorem witness_NoCommandReadsTheCount :
    ∃ t t', exec (.fadd 0 1 2) (scalars 3329 0) = .next t
      ∧ exec (.fadd 0 1 2) { scalars 3329 0 with ccnt := 9#32 } = .next t' := ⟨_, _, rfl, rfl⟩

theorem witness_CountAdvancesOnlyByRetirement :
    (∃ t, step { State.reset with cmdq := [0#32] } = .next t ∧ t.ccnt ≠ State.reset.ccnt)
      ∧ ∃ t, step { State.reset with ccnt := 7#32, turns := [.hardReset] } = .next t ∧ t.ccnt ≠ 7#32 :=
  ⟨⟨_, rfl, by decide⟩, _, rfl, by decide⟩

theorem witness_QueueIsFirstInFirstOut :
    (∃ t, step { State.reset with cmdq := [0#32, 1#32], turns := [.pop] } = .next t ∧ t.cmdq = [1#32])
      ∧ (∃ t, step (hostTurn (.write 2#10 2#32) inError) = .next t ∧ t.cmdq = []) := ⟨⟨_, rfl, rfl⟩, _, rfl, rfl⟩

theorem witness_StatusAndInterruptShowTheState :
    (∃ t, sequencerStep { State.reset with cmdq := [0xFFFFFFFF#32] } = .next t ∧ t.err ≠ State.reset.err)
      ∧ (hostWrite 2#10 1#32 inError).err ≠ inError.err ∧ (hostWrite 2#10 2#32 inError).err ≠ inError.err :=
  ⟨⟨_, rfl, by decide⟩, by decide, by decide⟩

theorem witness_HostReadsReturnTheRegister :
    (hostTurn (.read 15#10) State.reset).turns = .host :: []
      ∧ (hostTurn (.read 15#10) State.reset).hostReqs = .read 15#10 :: []
      ∧ (hostTurn (.read 15#10) State.reset).busy = false ∧ (15#10).toNat = 8 + (7 : SReg).val
      ∧ (95 < 96 ∧ (223#10).toNat = 128 + 95) ∧ reservedIndex (16#10).toNat ∧ reservedIndex (127#10).toNat
      ∧ reservedIndex (224#10).toNat ∧ reservedIndex (1023#10).toNat := by
  refine ⟨rfl, rfl, rfl, rfl, by decide, ?_, ?_, ?_, ?_⟩ <;> simp [reservedIndex]

theorem witness_HostWritesOfRegisters :
    (hostTurn (.write 8#10 7#32) State.reset).turns = .host :: []
      ∧ (hostTurn (.write 8#10 7#32) State.reset).hostReqs = .write 8#10 7#32 :: []
      ∧ (8#10).toNat = 8 + (0 : SReg).val ∧ (hostTurn (.write 8#10 7#32) State.reset).busy = false
      ∧ (7#10).toNat = 7 ∧ (3#10).toNat = 3
      ∧ (hostTurn (.write 2#10 0xFFFFFFFC#32) State.reset).hostReqs = .write 2#10 0xFFFFFFFC#32 :: []
      ∧ (2#10).toNat = 2 ∧ (0xFFFFFFFC#32).getLsbD 1 = false ∧ (0xFFFFFFFC#32).getLsbD 0 = false
      ∧ (0#32).extractLsb' 0 2 = (0xFFFFFFFC#32).extractLsb' 0 2 ∧ reservedIndex (127#10).toNat := by
  refine ⟨rfl, rfl, rfl, rfl, rfl, rfl, rfl, rfl, rfl, rfl, rfl, ?_⟩
  simp [reservedIndex]

theorem witness_HostWritesBufferWordsLittleEndian :
    (hostTurn (.write 223#10 0x01020304#32) (bytes [9])).buf.wf = true
      ∧ (hostTurn (.write 223#10 0x01020304#32) (bytes [9])).turns = .host :: []
      ∧ (hostTurn (.write 223#10 0x01020304#32) (bytes [9])).hostReqs = .write 223#10 0x01020304#32 :: []
      ∧ 95 < 96 ∧ (223#10).toNat = 128 + 95 ∧ (hostTurn (.write 223#10 0x01020304#32) (bytes [9])).busy = false := by decide

theorem witness_PushesWaitForRoom :
    (hostTurn (.write 0#10 7#32) State.reset).turns = .host :: []
      ∧ (hostTurn (.write 0#10 7#32) State.reset).hostReqs = .write 0#10 7#32 :: []
      ∧ (hostTurn (.write 0#10 7#32) State.reset).cmdq.length < Config.cmdqDepth
      ∧ Config.cmdqDepth
        ≤ (hostTurn (.write 0#10 7#32) { State.reset with cmdq := List.replicate Config.cmdqDepth 0#32 }).cmdq.length := by
  refine ⟨rfl, rfl, Nat.succ_pos _, ?_⟩
  simp [hostTurn]

theorem witness_GatedAccessesWaitWhileBusy :
    (hostTurn (.read 8#10) midSample).turns = .host :: [] ∧ (hostTurn (.read 8#10) midSample).hostReqs = .read 8#10 :: []
      ∧ (hostTurn (.read 8#10) midSample).busy = true
      ∧ (hostTurn (.write 223#10 0#32) { State.reset with cmdq := [0#32] }).busy = true
      ∧ gatedIndex (8#10).toNat ∧ gatedIndex (223#10).toNat := by
  refine ⟨rfl, rfl, rfl, rfl, ?_, ?_⟩ <;> simp [gatedIndex]

end Sys2Proof.Tests
end

namespace Sys2Proof.Machine

/-! # Proofs about the state (10_state.md)

## BUF beyond its end (R30) -/

/-- Nothing stands in BUF from address 384 on (R30). -/
theorem Memory.read_eq_zero_of_le_from {lo : Nat} {m : Memory} (hm : Memory.wfFrom lo m = true) {a : Nat}
    (ha : Config.bufLen ≤ a) : m.read a = 0#8 := by
  induction m generalizing lo with
  | nil => rfl
  | cons c m ih =>
    obtain ⟨b, v⟩ := c
    obtain ⟨-, hb, -, hm⟩ := Memory.wfFrom_cons.mp hm
    rw [Memory.read, if_neg (by omega), ih hm]

theorem Memory.read_eq_zero_of_le {m : Memory} (hm : m.wf = true) {a : Nat} (ha : Config.bufLen ≤ a) :
    m.read a = 0#8 := Memory.read_eq_zero_of_le_from hm ha

/-! ## Canonical values of the polynomial functions (R26) -/

theorem canonical_zero : Poly.zero.canonical := fun j _ => by rw [Poly.coeff_zero]; decide

theorem canonical_addPoly (f g : Poly) : (addPoly f g).canonical :=
  Poly.canonical_ofFn _ fun _ _ => addMod_lt _ _

theorem canonical_subPoly (f g : Poly) : (subPoly f g).canonical :=
  Poly.canonical_ofFn _ fun _ _ => subMod_lt _ _

theorem canonical_scalePoly (c : Nat) (f : Poly) : (scalePoly c f).canonical :=
  Poly.canonical_ofFn _ fun _ _ => mulMod_lt _ _

theorem canonical_nttLayer (len : Nat) (f : Poly) : (nttLayer len f).canonical := by
  refine Poly.canonical_ofFn _ fun j _ => ?_
  dsimp only
  split
  · exact addMod_lt _ _
  · exact subMod_lt _ _

theorem canonical_nttPoly (f : Poly) : (nttPoly f).canonical := canonical_nttLayer _ _

theorem canonical_inttPoly (f : Poly) : (inttPoly f).canonical := canonical_scalePoly _ _

theorem canonical_pointwisePoly (f g : Poly) : (pointwisePoly f g).canonical := by
  refine Poly.canonical_ofFn _ fun j _ => ?_
  dsimp only
  split
  · exact Nat.mod_lt _ (by decide)
  · exact Nat.mod_lt _ (by decide)

/-- CSET of a canonical scalar keeps a polynomial canonical. -/
theorem canonical_setCoeff {p : Poly} (hp : p.canonical) (j : Nat) {v : Nat} (hv : v < Config.q) :
    (p.setCoeff j v).canonical := by
  refine Poly.canonical_ofFn _ fun k hk => ?_
  split
  · exact hv
  · exact hp k hk

/-- Below 12 bits a field is below q, for 2^11 < q; at 12 bits DECODE reduces (R162). -/
theorem canonical_byteDecode {d : Nat} (hd : d ≤ 12) (bs : List Byte) : (byteDecode d bs).canonical := by
  refine Poly.canonical_ofFn _ fun i _ => ?_
  dsimp only
  split
  · exact Nat.mod_lt _ (by decide)
  · calc bitsValue (bytesToBits bs) (i * d) d
      _ < 2 ^ d := bitsValue_lt _ _ _
      _ ≤ 2 ^ 11 := Nat.pow_le_pow_right (by decide) (by omega)
      _ < Config.q := by decide

theorem compressCoeff_lt {d : Nat} (hd : d ≤ 11) (x : Nat) : compressCoeff d x < Config.q :=
  calc compressCoeff d x
    _ < 2 ^ d := Nat.mod_lt _ (Nat.two_pow_pos d)
    _ ≤ 2 ^ 11 := Nat.pow_le_pow_right (by decide) hd
    _ < Config.q := by decide

/-- y ≤ 2^d − 1 and 2^(d−1) < q: the rounding does not reach q (R175). -/
theorem decompressCoeff_lt {d y : Nat} (hd : d ≤ 11) (hy : y < 2 ^ d) : decompressCoeff d y < Config.q := by
  have hround : 2 ^ (d - 1) < Config.q :=
    (Nat.pow_le_pow_right (by decide) (by omega : d - 1 ≤ 10)).trans_lt (by decide)
  rw [decompressCoeff, Nat.div_lt_iff_lt_mul (Nat.two_pow_pos d)]
  calc y * Config.q + 2 ^ (d - 1)
    _ < y * Config.q + Config.q := by omega
    _ = (y + 1) * Config.q := (Nat.succ_mul y Config.q).symm
    _ ≤ 2 ^ d * Config.q := Nat.mul_le_mul_right _ hy
    _ = Config.q * 2 ^ d := Nat.mul_comm _ _

theorem canonical_samplePolyCbd (eta : Nat) (bs : List Byte) : (samplePolyCbd eta bs).canonical :=
  Poly.canonical_ofFn _ fun _ _ => subMod_lt _ _

theorem canonical_sampleNttPoly (stream : Nat → Byte) (n : Nat) : (sampleNttPoly stream n).canonical := by
  refine Poly.canonical_ofFn _ fun j _ => ?_
  rw [List.getD_eq_getElem?_getD]
  rcases h : (accepted stream (n / 3))[j]? with - | v
  · decide
  · exact accepted_lt stream _ v (List.mem_of_getElem? h)

theorem codecWidth_le {d : BitVec 4} (h : codecWidthLegal d = true) : d.toNat ≤ 12 := by
  simp only [codecWidthLegal, Bool.and_eq_true, decide_eq_true_eq] at h
  exact h.2

theorem compressWidth_le {d : BitVec 4} (h : compressWidthLegal d = true) : d.toNat ≤ 11 := by
  simp only [compressWidthLegal, Bool.and_eq_true, decide_eq_true_eq] at h
  exact h.2

end Sys2Proof.Machine

namespace Sys2Proof.Machine

/-! ## What a command writes: its destinations, canonical values, the canonical form of BUF -/

/-- Against s, the registers and bytes of t that the lists of R22, R27 and R63 do not name for `i` are as before; the
polynomials stay canonical (R26) and BUF keeps its canonical form. -/
structure Writes (i : Instr) (s t : State) : Prop where
  scal : ∀ r, i.mayWriteScal r = false → t.getScal r = s.getScal r
  poly : ∀ r, i.mayWritePoly r = false → t.getPoly r = s.getPoly r
  buf : s.buf.wf = true → ∀ a, i.mayWriteBuf a = false → t.loadByte a = s.loadByte a
  canonical : (∀ r, (s.getPoly r).canonical) → ∀ r, (t.getPoly r).canonical
  wf : s.buf.wf = true → t.buf.wf = true

theorem writes_refl (i : Instr) (s : State) : Writes i s s :=
  ⟨fun _ _ => rfl, fun _ _ => rfl, fun _ _ _ => rfl, fun h => h, fun h => h⟩

theorem Writes.retire {i : Instr} {s t : State} (h : Writes i s t) : Writes i s (retire t) :=
  ⟨h.scal, h.poly, h.buf, h.canonical, h.wf⟩

theorem writes_errorEntry (i : Instr) (code : ErrCode) (w : Word) (s : State) : Writes i s (errorEntry code w s) :=
  ⟨fun _ _ => rfl, fun _ _ => rfl, fun _ _ _ => rfl, fun h => h, fun h => h⟩

theorem Writes.ifLegal {i : Instr} {s t : State} (h : i.wellFormed = true → Writes i s t) :
    Writes i s (ifLegal i s t) := by
  cases hi : i.wellFormed with
  | true => rw [ifLegal_of_wellFormed hi]; exact h hi
  | false => rw [ifLegal_of_not_wellFormed hi]; exact writes_errorEntry i _ _ s

/-- A command with a check: what it writes, it writes when the check holds. -/
theorem Writes.ite_errorEntry {i : Instr} {s t : State} {c : Prop} [Decidable c] {code : ErrCode} {w : Word}
    (h : c → Writes i s t) : Writes i s (if c then t else errorEntry code w s) := by
  by_cases hc : c
  · rw [if_pos hc]; exact h hc
  · rw [if_neg hc]; exact writes_errorEntry i _ _ s

theorem writes_setScal {i : Instr} {s : State} {d : SReg} {v : Word} (hd : i.mayWriteScal d = true) :
    Writes i s (s.setScal d v) where
  scal r hr := getScal_setScal_of_ne s v (by rintro rfl; simp [hd] at hr)
  poly _ _ := rfl
  buf _ _ _ := rfl
  canonical h := h
  wf h := h

theorem writes_setPoly {i : Instr} {s : State} {d : PReg} {f : Poly} (hd : i.mayWritePoly d = true)
    (hf : (∀ r, (s.getPoly r).canonical) → f.canonical) : Writes i s (s.setPoly d f) where
  scal _ _ := rfl
  poly r hr := getPoly_setPoly_of_ne s f (by rintro rfl; simp [hd] at hr)
  buf _ _ _ := rfl
  canonical h r := by
    rw [getPoly_setPoly]
    split
    · exact hf h
    · exact h r
  wf h := h

theorem writes_storeByte {i : Instr} {s : State} {a : Nat} {v : Byte} (ha : a < Config.bufLen)
    (hi : i.mayWriteBuf a = true) : Writes i s (s.storeByte a v) where
  scal _ _ := rfl
  poly _ _ := rfl
  buf hs b hb := by
    rw [loadByte_storeByte hs, if_neg]
    rintro rfl
    simp [hi] at hb
  canonical h := h
  wf h := Memory.wf_write h v ha

theorem writes_storeRegion {i : Instr} {s : State} {bs : List Byte} (hlen : bs.length ≤ Config.bufLen)
    (hi : ∀ a, a < bs.length → i.mayWriteBuf a = true) : Writes i s (s.storeRegion bs) where
  scal _ _ := rfl
  poly _ _ := rfl
  buf hs b hb := by
    rw [loadByte_storeRegion hs bs hlen, if_neg]
    intro h
    simp [hi b h] at hb
  canonical h := h
  wf h := Memory.wf_writeBytes h 0 bs (by omega)

theorem writes_fieldCommand {i : Instr} {s : State} {f : Nat → Nat → Nat} {d sa sb : SReg}
    (hd : i.mayWriteScal d = true) : Writes i s (fieldCommand i f d sa sb s) := by
  by_cases h : s.scalVal sa < Config.q ∧ s.scalVal sb < Config.q
  · rw [fieldCommand_of_canonical h.1 h.2]
    exact (writes_setScal hd).retire
  · rw [fieldCommand_of_not_canonical h]
    exact writes_errorEntry i _ _ s

theorem writes_xofCommand {i : Instr} {s : State} {X : Xof} {mode : XofMode} {len : Nat}
    {done : (Nat → Byte) → Nat → Bool} {result : (Nat → Byte) → Nat → Poly} {d : PReg}
    (hd : i.mayWritePoly d = true) (hres : ∀ stream n, (result stream n).canonical) :
    Writes i s (xofCommand X i mode len done result d s) := by
  obtain ⟨x, -, n, -, ⟨-, h⟩ | ⟨-, h⟩⟩ := xofCommand_cases X i mode len done result d s
  · rw [h]
    exact (writes_setPoly hd fun _ => hres _ _).retire
  · rw [h]
    exact ⟨fun _ _ => rfl, fun _ _ => rfl, fun _ _ _ => rfl, fun h => h, fun h => h⟩

/-- ZEROIZE: what it may write is all there is, for no byte stands from 384 on (R30). -/
theorem writes_zeroize (s : State) : Writes .zeroize s
    { s with scal := Vector.replicate 8 0#32, poly := Vector.replicate 8 Poly.zero, buf := [] } where
  scal r h := by simp [Instr.mayWriteScal] at h
  poly r h := by simp [Instr.mayWritePoly] at h
  buf hs a ha := (Memory.read_eq_zero_of_le hs (by simpa [Instr.mayWriteBuf] using ha)).symm
  canonical _ r := (getPoly_reset r).symm ▸ canonical_zero
  wf _ := rfl

theorem writes_bzero (s : State) : Writes .bzero s { s with buf := [] } where
  scal _ _ := rfl
  poly _ _ := rfl
  buf hs a ha := (Memory.read_eq_zero_of_le hs (by simpa [Instr.mayWriteBuf] using ha)).symm
  canonical h := h
  wf _ := rfl

theorem eq_of_next {r : Result} {s t : State} (hs : r = .next s) (ht : r = .next t) : s = t :=
  Host.Outcome.next.inj (hs.symm.trans ht)

/-- Every command writes only its destinations, and canonical values. -/
theorem exec_writes (i : Instr) (s : State) : ∃ t, exec i s = .next t ∧ Writes i s t := by
  have hscal : ∀ {d : SReg} (v : Nat), i.mayWriteScal d = true → Writes i s (retire (s.setScalVal d v)) :=
    fun _ hd => (writes_setScal hd).retire
  have hpoly : ∀ {d : PReg} {f : Poly}, i.mayWritePoly d = true → f.canonical → Writes i s (retire (s.setPoly d f)) :=
    fun hd hf => (writes_setPoly hd fun _ => hf).retire
  cases i with
  | nop => exact ⟨_, rfl, (writes_refl _ s).retire⟩
  | zeroize => exact ⟨_, rfl, (writes_zeroize s).retire⟩
  | bzero => exact ⟨_, rfl, (writes_bzero s).retire⟩
  | sli d v => exact ⟨_, rfl, hscal _ (beq_self_eq_true d)⟩
  | smulw d a b => exact ⟨_, rfl, hscal _ (beq_self_eq_true d)⟩
  | fadd d a b => exact ⟨_, rfl, writes_fieldCommand (beq_self_eq_true d)⟩
  | fsub d a b => exact ⟨_, rfl, writes_fieldCommand (beq_self_eq_true d)⟩
  | fmul d a b => exact ⟨_, rfl, writes_fieldCommand (beq_self_eq_true d)⟩
  | csubq d a => exact ⟨_, rfl, hscal _ (beq_self_eq_true d)⟩
  | bred d a => exact ⟨_, rfl, hscal _ (beq_self_eq_true d)⟩
  | mred d a => exact ⟨_, rfl, Writes.ite_errorEntry fun _ => hscal _ (beq_self_eq_true d)⟩
  | cget d p idx => exact ⟨_, rfl, hscal _ (beq_self_eq_true d)⟩
  | cset d a idx =>
    exact ⟨_, rfl, Writes.ite_errorEntry fun hv =>
      Writes.retire (writes_setPoly (beq_self_eq_true d) fun h => canonical_setCoeff (h d) _ hv)⟩
  | ldb d addr => exact ⟨_, rfl, Writes.ifLegal fun _ => hscal _ (beq_self_eq_true d)⟩
  | stb a addr =>
    exact ⟨_, rfl, Writes.ifLegal fun h =>
      Writes.retire (writes_storeByte (of_decide_eq_true h) (beq_self_eq_true addr.toNat))⟩
  | pmov d a => exact ⟨_, rfl, Writes.retire (writes_setPoly (beq_self_eq_true d) fun h => h a)⟩
  | padd d a b => exact ⟨_, rfl, hpoly (beq_self_eq_true d) (canonical_addPoly _ _)⟩
  | psub d a b => exact ⟨_, rfl, hpoly (beq_self_eq_true d) (canonical_subPoly _ _)⟩
  | ntt d a => exact ⟨_, rfl, hpoly (beq_self_eq_true d) (canonical_nttPoly _)⟩
  | intt d a => exact ⟨_, rfl, hpoly (beq_self_eq_true d) (canonical_inttPoly _)⟩
  | pmul d a b => exact ⟨_, rfl, hpoly (beq_self_eq_true d) (canonical_pointwisePoly _ _)⟩
  | pmac d a b => exact ⟨_, rfl, hpoly (beq_self_eq_true d) (canonical_addPoly _ _)⟩
  | pzero d => exact ⟨_, rfl, hpoly (beq_self_eq_true d) canonical_zero⟩
  | samplentt d => exact ⟨_, rfl, writes_xofCommand (beq_self_eq_true d) canonical_sampleNttPoly⟩
  | cbd d eta => exact ⟨_, rfl, Writes.ifLegal fun _ => hpoly (beq_self_eq_true d) (canonical_samplePolyCbd _ _)⟩
  | prfcbd d eta =>
    exact ⟨_, rfl, Writes.ifLegal fun _ =>
      writes_xofCommand (beq_self_eq_true d) fun _ _ => canonical_samplePolyCbd _ _⟩
  | encode a d =>
    refine ⟨_, rfl, Writes.ifLegal fun h => Writes.ite_errorEntry fun _ => (writes_storeRegion ?_ ?_).retire⟩
    · have hd := codecWidth_le h
      rw [length_byteEncode]
      simp only [Config.bufLen]
      omega
    · intro b hb
      rw [length_byteEncode] at hb
      exact decide_eq_true hb
  | decode d k =>
    exact ⟨_, rfl, Writes.ifLegal fun h => hpoly (beq_self_eq_true d) (canonical_byteDecode (codecWidth_le h) _)⟩
  | compress d a k =>
    exact ⟨_, rfl, Writes.ifLegal fun h => hpoly (beq_self_eq_true d)
      (Poly.canonical_ofFn _ fun _ _ => compressCoeff_lt (compressWidth_le h) _)⟩
  | decompress d a k =>
    exact ⟨_, rfl, Writes.ifLegal fun h => Writes.ite_errorEntry fun hb => hpoly (beq_self_eq_true d)
      (Poly.canonical_ofFn _ fun j hj =>
        decompressCoeff_lt (compressWidth_le h) ((Poly.allBelow_iff _ _).mp hb j hj))⟩

theorem writes_of_exec {i : Instr} {s t : State} (h : exec i s = .next t) : Writes i s t := by
  obtain ⟨u, hu, hw⟩ := exec_writes i s
  obtain rfl := eq_of_next hu h
  exact hw

end Sys2Proof.Machine

namespace Sys2Proof.Machine

/-! ## Resets -/

/-- The fields of the block have their values of R47 whatever stands outside the block. -/
theorem resetValues_reset_outside (ts : List Turn) (reqs : List HostReq) (reply : HostReply) (pace : Nat) :
    ResetValues { State.reset with turns := ts, hostReqs := reqs, hostReply := reply, xofPace := pace } where
  scal := getScal_reset
  poly r j _ := (congrArg (Poly.coeff · j) (getPoly_reset r)).trans (Poly.coeff_zero j)
  buf := loadByte_reset
  cmdq := rfl
  seq := rfl
  err := rfl
  errCmd := rfl
  errIdx := rfl
  ccnt := rfl
  ien := rfl
  irq := by simp [State.irq, State.reset]
  xof := rfl
  status := by
    simp [State.status, State.busy, State.queueFull, State.errFlag, State.reset, ErrCode.toNat, Config.cmdqDepth]
  id := rfl

theorem step_of_host {s : State} {ts : List Turn} (h : s.turns = .host :: ts) :
    step s = .next (hostStep { s with turns := ts }) := by
  rw [step, nextTurn_cons h]

/-- The host port's turn when the transaction at the head is not held. -/
theorem step_of_ready {s : State} {ts : List Turn} {req : HostReq} {rest : List HostReq} (hts : s.turns = .host :: ts)
    (hreq : s.hostReqs = req :: rest) (hr : hostReady req s = true) :
    step s = .next (serve req { s with turns := ts, hostReqs := rest }) := by
  rw [step_of_host hts, hostStep_ready (s := { s with turns := ts }) hreq hr]

/-- The host port's turn when the transaction at the head is held. -/
theorem step_of_held {s : State} {ts : List Turn} {req : HostReq} {rest : List HostReq} (hts : s.turns = .host :: ts)
    (hreq : s.hostReqs = req :: rest) (hr : hostReady req s = false) :
    step s = .next { s with turns := ts, hostReply := .held } := by
  rw [step_of_host hts, hostStep_held (s := { s with turns := ts }) hreq hr]

/-- Settles O1. -/
theorem resetsGiveEveryResetValue : Obligations.ResetsGiveEveryResetValue := by
  refine ⟨resetValues_reset_outside .., fun s ts hts => ?_, fun s ts v rest hts hreq hv => ?_⟩
  · rw [step, nextTurn_cons hts]
    exact ⟨_, rfl, resetValues_reset_outside ..⟩
  · have hw : ∀ u, hostWrite 2#10 v u = resetBlock u := fun u => if_pos hv
    rw [step_of_ready hts hreq rfl, serve, hw]
    exact ⟨_, rfl, resetValues_reset_outside ..⟩

end Sys2Proof.Machine

namespace Sys2Proof.Machine

/-! ## The agents' turns -/

/-- A step is the turn of one agent, from the state with that turn taken off the schedule. -/
theorem step_agent {s t : State} (h : step s = .next t) :
    ((nextTurn s).1 = .sequencer ∧ sequencerStep { s with turns := s.turns.tail } = .next t)
      ∨ ((nextTurn s).1 = .pop ∧ t = popOnly { s with turns := s.turns.tail })
      ∨ ((nextTurn s).1 = .host ∧ t = hostStep { s with turns := s.turns.tail })
      ∨ ((nextTurn s).1 = .hardReset ∧ t = hardReset { s with turns := s.turns.tail })
      ∨ ∃ n, (nextTurn s).1 = .xofPace n ∧ t = { s with turns := s.turns.tail, xofPace := n } := by
  have hsnd := nextTurn_snd s
  rcases hturn : nextTurn s with ⟨turn, u⟩
  rw [hturn] at hsnd
  obtain rfl : u = { s with turns := s.turns.tail } := hsnd
  rw [step, hturn] at h
  cases turn with
  | sequencer => exact .inl ⟨rfl, h⟩
  | pop => exact .inr (.inl ⟨rfl, (Host.Outcome.next.inj h).symm⟩)
  | host => exact .inr (.inr (.inl ⟨rfl, (Host.Outcome.next.inj h).symm⟩))
  | hardReset => exact .inr (.inr (.inr (.inl ⟨rfl, (Host.Outcome.next.inj h).symm⟩)))
  | xofPace n => exact .inr (.inr (.inr (.inr ⟨n, rfl, (Host.Outcome.next.inj h).symm⟩)))

/-! ## The sequencer's turn -/

theorem sequencerStep_of_none {s : State} (h : fetch s = none) : sequencerStep s = .next s := by
  rw [sequencerStep, h]

theorem sequencerStep_of_some {s t : State} {w : Word} (h : fetch s = some (w, t)) :
    sequencerStep s = runWord w t := by
  rw [sequencerStep, h]

theorem step_of_sequencer {s t : State} (h : nextTurn s = (.sequencer, t)) : step s = sequencerStep t := by
  rw [step, h]

/-- Settles O8, by the equations of `fetch` and of `runWord`. -/
theorem stepRunsTheDecodedCommand : Obligations.StepRunsTheDecodedCommand := by
  intro s t w i hturn hw
  rw [step_of_sequencer hturn]
  refine ⟨fun rest hs hq => ?_, fun hs => ?_, fun h => ?_⟩
  · rw [sequencerStep_of_some (fetch_idle_cons hs hq), runWord_of_ok hw]
  · rw [sequencerStep_of_some (fetch_exec hs), runWord_of_ok hw]
  · rcases h with ⟨hs, hq⟩ | hs
    · exact sequencerStep_of_none (fetch_idle_nil hs hq)
    · exact sequencerStep_of_none (fetch_error hs)

theorem seq_of_fetch {s t : State} {w : Word} (h : fetch s = some (w, t)) : t.seq = .exec w := by
  rcases fetch_some_cases h with ⟨-, rest, -, rfl⟩ | ⟨hs, rfl⟩
  · rfl
  · exact hs

/-- A command just popped is the one the sequencer takes next, in the state that the pop left. -/
theorem sequencerStep_popOnly (s : State) : sequencerStep (popOnly s) = sequencerStep s := by
  cases h : fetch s with
  | none => rw [popOnly, h]
  | some p =>
    obtain ⟨w, t⟩ := p
    rw [popOnly, h, sequencerStep_of_some h, sequencerStep_of_some (fetch_exec (seq_of_fetch h))]

/-- A pop does not touch the schedule of turns, and does not look at it. -/
theorem popOnly_turns (s : State) (ts : List Turn) :
    popOnly { s with turns := ts } = { popOnly s with turns := ts } := by
  cases hs : s.seq <;> cases hq : s.cmdq <;> simp [popOnly, fetch, hs, hq]

/-- Settles O9: the sequencer takes the popped command, in the state in which it would have popped it. -/
theorem poppingFirstChangesNothing : Obligations.PoppingFirstChangesNothing := by
  intro s t ts hturns hstep
  have ht : t = { popOnly s with turns := .sequencer :: ts } := by
    rw [step, nextTurn_cons hturns] at hstep
    exact (Host.Outcome.next.inj hstep).symm.trans (popOnly_turns s _)
  calc step t
    _ = sequencerStep { popOnly s with turns := ts } := by rw [ht]; exact step_of_sequencer (nextTurn_cons rfl)
    _ = sequencerStep (popOnly { s with turns := ts }) := congrArg sequencerStep (popOnly_turns s ts).symm
    _ = sequencerStep { s with turns := ts } := sequencerStep_popOnly _
    _ = step { s with turns := .sequencer :: ts } := by rw [step_of_sequencer (nextTurn_cons rfl)]

end Sys2Proof.Machine

namespace Sys2Proof.Machine

/-! ## Writes at the host port -/

/-- A write that completes, with the register it writes: a push, a soft reset, CLRERR, one scalar, one buffer word, or
at most IEN. -/
theorem hostWrite_effect (a : BitVec 10) (v : Word) (s : State) :
    (a = 0#10 ∧ hostWrite a v s = { s with cmdq := s.cmdq ++ [v] })
      ∨ (a = 2#10 ∧ v.getLsbD 1 = true ∧ hostWrite a v s = resetBlock s)
      ∨ (a = 2#10 ∧ v.getLsbD 0 = true ∧ hostWrite a v s = clearError s)
      ∨ (∃ i, hostReg a = .scal i ∧ hostWrite a v s = s.setScal i v)
      ∨ (∃ w, hostReg a = .bufw w ∧ hostWrite a v s = s.setBufWord w v)
      ∨ ∃ ie, hostWrite a v s = { s with ien := ie } := by
  cases h : hostReg a with
  | cmd => exact .inl ⟨hostReg_eq_cmd h, by rw [hostWrite, h]⟩
  | ctrl =>
    have hw : hostWrite a v s = writeCtrl v s := by rw [hostWrite, h]
    rw [hw, writeCtrl]
    cases h1 : v.getLsbD 1
    · cases h0 : v.getLsbD 0
      · exact .inr (.inr (.inr (.inr (.inr ⟨s.ien, rfl⟩))))
      · exact .inr (.inr (.inl ⟨hostReg_eq_ctrl h, rfl, rfl⟩))
    · exact .inr (.inl ⟨hostReg_eq_ctrl h, rfl, rfl⟩)
  | ien => exact .inr (.inr (.inr (.inr (.inr ⟨_, by rw [hostWrite, h]⟩))))
  | scal i => exact .inr (.inr (.inr (.inl ⟨i, rfl, by rw [hostWrite, h]⟩)))
  | bufw w => exact .inr (.inr (.inr (.inr (.inl ⟨w, rfl, by rw [hostWrite, h]⟩))))
  | _ => exact .inr (.inr (.inr (.inr (.inr ⟨s.ien, by rw [hostWrite, h]⟩))))

theorem length_lt_of_push_ready {s : State} {v : Word} (h : hostReady (.write 0#10 v) s = true) :
    s.cmdq.length < Config.cmdqDepth := of_decide_eq_true h

/-- A write of the buffer window that is not held finds no command in execution (R41). -/
theorem busy_of_bufw_ready {s : State} {a : BitVec 10} {v : Word} {w : Fin 96} (hw : hostReg a = .bufw w)
    (h : hostReady (.write a v) s = true) : s.busy = false := by
  simpa [hostReady, hw] using h

theorem not_busy_of_exec {s : State} {w : Word} (h : s.busy = false) : s.seq ≠ .exec w := by
  intro hs
  simp [State.busy, hs] at h

theorem wf_setBufWord {s : State} (hs : s.buf.wf = true) (w : Fin 96) (v : Word) :
    (s.setBufWord w v).buf.wf = true := by
  have hlt : 4 * w.val + 3 < Config.bufLen := by simp only [Config.bufLen]; omega
  have h0 := Memory.wf_write hs (v.extractLsb' 0 8) (a := 4 * w.val) (by omega)
  have h1 := Memory.wf_write h0 (v.extractLsb' 8 8) (a := 4 * w.val + 1) (by omega)
  have h2 := Memory.wf_write h1 (v.extractLsb' 16 8) (a := 4 * w.val + 2) (by omega)
  exact Memory.wf_write h2 (v.extractLsb' 24 8) hlt

/-! ## The invariant -/

/-- The invariant says nothing of scalars, of ERRCMD, ERRIDX, CCNT and IEN, nor of what stands outside the block. -/
theorem Invariant.update {s : State} (h : Invariant s) (sc : Vector Word 8) (errCmd errIdx ccnt : Word) (ien : BitVec 2)
    (turns : List Turn) (reqs : List HostReq) (reply : HostReply) (pace : Nat) :
    Invariant { s with
      scal := sc, errCmd := errCmd, errIdx := errIdx, ccnt := ccnt, ien := ien, turns := turns, hostReqs := reqs,
      hostReply := reply, xofPace := pace } :=
  ⟨h.poly, h.buf, h.errState, h.queue, h.session⟩

theorem sessionOk_of_none {s : State} (h : s.xof = none) : SessionOk s := by
  intro x hx
  rw [h] at hx
  cases hx

/-- A session is open only in EXEC (R45). -/
theorem SessionOk.xof_eq_none {s : State} (h : SessionOk s) (hs : ∀ w, s.seq ≠ .exec w) : s.xof = none := by
  cases hx : s.xof with
  | none => rfl
  | some x =>
    obtain ⟨w, hw, -⟩ := h x hx
    exact absurd hw (hs w)

/-- Settles O2. -/
theorem resetMeetsTheInvariant : Obligations.ResetMeetsTheInvariant where
  poly r := (getPoly_reset r).symm ▸ canonical_zero
  buf := rfl
  errState := by simp [State.reset]
  queue := Nat.zero_le _
  session := sessionOk_of_none rfl

theorem invariant_resetBlock (s : State) : Invariant (resetBlock s) := resetMeetsTheInvariant.update ..

theorem invariant_hardReset (s : State) : Invariant (hardReset s) := resetMeetsTheInvariant.update ..

/-- In EXEC there is no error. -/
theorem Invariant.err_of_exec {s : State} {w : Word} (h : Invariant s) (hs : s.seq = .exec w) : s.err = .none := by
  by_contra he
  have := h.errState.mpr he
  rw [hs] at this
  cases this

/-- Taking the next command keeps the invariant, and the command taken is in execution. -/
theorem Invariant.fetch {s t : State} {w : Word} (h : Invariant s) (hf : fetch s = some (w, t)) :
    Invariant t ∧ t.seq = .exec w := by
  rcases fetch_some_cases hf with ⟨hs, rest, hq, rfl⟩ | ⟨hs, rfl⟩
  · have hx : s.xof = none := h.session.xof_eq_none (by simp [hs])
    have he : s.err = .none := by simpa [hs] using h.errState
    have hlen := h.queue
    rw [hq, List.length_cons] at hlen
    exact ⟨⟨h.poly, h.buf, by simp [he], by simp only; omega, sessionOk_of_none hx⟩, rfl⟩
  · exact ⟨h, hs⟩

theorem Invariant.popOnly {s : State} (h : Invariant s) : Invariant (popOnly s) := by
  cases hf : Machine.fetch s with
  | none => simpa [Machine.popOnly, hf] using h
  | some p => simpa [Machine.popOnly, hf] using (h.fetch hf).1

theorem Invariant.errorEntry {s : State} (h : Invariant s) {code : ErrCode} (hc : code ≠ .none) (w : Word) :
    Invariant (errorEntry code w s) :=
  ⟨h.poly, h.buf, by simp [hc], h.queue, sessionOk_of_none rfl⟩

/-! ### The session of the command in execution -/

/-- The fields of a word with one register in `rd` and an immediate. -/
theorem fields_formatR_d {op imm : Nat} (pd : PReg) (hop : op < 256) (himm : imm < 4096) :
    opField (formatR op pd 0 0 imm) = op ∧ rdField (formatR op pd 0 0 imm) = pd ∧ raField (formatR op pd 0 0 imm) = 0
      ∧ rbField (formatR op pd 0 0 imm) = 0 ∧ imm12Field (formatR op pd 0 0 imm) = imm := by
  have hpd : pd.val < 16 := by omega
  exact ⟨opField_formatR hop hpd (by decide) (by decide) himm, rdField_formatR hop hpd (by decide) (by decide) himm,
    raField_formatR hop hpd (by decide) (by decide) himm, rbField_formatR hop hpd (by decide) (by decide) himm,
    imm12Field_formatR hop hpd (by decide) (by decide) himm⟩

/-- The word by which a waiting SAMPLENTT stays in execution selects that SAMPLENTT. -/
theorem decode_encode_samplentt (pd : PReg) : decode (encode (.samplentt pd)) = .ok (.samplentt pd) := by
  obtain ⟨hop, hrd, hra, hrb, himm⟩ := fields_formatR_d (op := 0x30) (imm := 0) pd (by decide) (by decide)
  simp only [decode, encode, hop, decodeD, hrd, hra, hrb, himm, regNumber_val, unused_zero]
  rfl

/-- The word by which a waiting PRFCBD stays in execution selects that PRFCBD. -/
theorem decode_encode_prfcbd (pd : PReg) {eta : BitVec 4} (h : etaLegal eta = true) :
    decode (encode (.prfcbd pd eta)) = .ok (.prfcbd pd eta) := by
  obtain ⟨hop, hrd, hra, hrb, himm⟩ := fields_formatR_d (op := 0x32) (imm := eta.toNat) pd (by decide) (by omega)
  simp only [decode, encode, hop, decodeDImm, hrd, hra, hrb, himm, regNumber_val, unused_zero, immBits_toNat]
  exact inRange_of_wellFormed h

/-- SAMPLENTT in execution goes on with its own session or opens one: SHAKE-128 on BUF[0..33] (R192). -/
theorem SessionOk.of_samplentt {s : State} {w : Word} {pd : PReg} (h : SessionOk s) (hs : s.seq = .exec w)
    (hw : decode w = .ok (.samplentt pd)) :
    (sessionOf .shake128 34 s).mode = .shake128 ∧ (sessionOf .shake128 34 s).msg = s.bufRegion 34 := by
  cases hx : s.xof with
  | none => rw [sessionOf_none hx]; exact ⟨rfl, rfl⟩
  | some x =>
    rw [sessionOf_some hx]
    obtain ⟨w', hw', hcase⟩ := h x hx
    obtain rfl : w = w' := by simpa [hs] using hw'
    rcases hcase with ⟨pd', -, hmode, hmsg, -⟩ | ⟨pd', eta', hdec, -⟩
    · exact ⟨hmode, hmsg⟩
    · rw [hw] at hdec
      cases hdec

/-- PRFCBD in execution goes on with its own session or opens one: SHAKE-256 on BUF[0..32] (R198). -/
theorem SessionOk.of_prfcbd {s : State} {w : Word} {pd : PReg} {eta : BitVec 4} (h : SessionOk s)
    (hs : s.seq = .exec w) (hw : decode w = .ok (.prfcbd pd eta)) :
    (sessionOf .shake256 33 s).mode = .shake256 ∧ (sessionOf .shake256 33 s).msg = s.bufRegion 33 := by
  cases hx : s.xof with
  | none => rw [sessionOf_none hx]; exact ⟨rfl, rfl⟩
  | some x =>
    rw [sessionOf_some hx]
    obtain ⟨w', hw', hcase⟩ := h x hx
    obtain rfl : w = w' := by simpa [hs] using hw'
    rcases hcase with ⟨pd', hdec, -⟩ | ⟨pd', eta', -, hmode, hmsg, -⟩
    · rw [hw] at hdec
      cases hdec
    · exact ⟨hmode, hmsg⟩

theorem SessionOk.samplentt {s : State} {w : Word} {pd : PReg} (h : SessionOk s) (hs : s.seq = .exec w)
    (hw : decode w = .ok (.samplentt pd)) : SessionOk (samplenttWith machineXof pd s) := by
  obtain ⟨hmode, hmsg⟩ := h.of_samplentt hs hw
  obtain ⟨x, rfl, n, -, ⟨-, ht⟩ | ⟨hdone, ht⟩⟩ :=
    xofCommand_cases machineXof (.samplentt pd) .shake128 34 sampleNttDone sampleNttPoly pd s
  · rw [samplenttWith, ht]
    exact sessionOk_of_none rfl
  · rw [samplenttWith, ht]
    rintro x ⟨⟩
    rw [hmode] at hdone
    exact ⟨_, rfl, .inl ⟨pd, decode_encode_samplentt pd, hmode, hmsg, hdone⟩⟩

theorem SessionOk.prfcbd {s : State} {w : Word} {pd : PReg} {eta : BitVec 4} (h : SessionOk s) (hs : s.seq = .exec w)
    (hw : decode w = .ok (.prfcbd pd eta)) : SessionOk (prfcbdWith machineXof pd eta s) := by
  obtain ⟨hmode, hmsg⟩ := h.of_prfcbd hs hw
  cases hi : (Instr.prfcbd pd eta).wellFormed with
  | false =>
    rw [prfcbdWith, ifLegal_of_not_wellFormed hi]
    exact sessionOk_of_none rfl
  | true =>
    rw [prfcbdWith, ifLegal_of_wellFormed hi]
    obtain ⟨x, rfl, n, -, ⟨-, ht⟩ | ⟨hdone, ht⟩⟩ :=
      xofCommand_cases machineXof (.prfcbd pd eta) .shake256 33 (prfDone eta.toNat) (prfCbdPoly eta.toNat) pd s
    · rw [ht]
      exact sessionOk_of_none rfl
    · rw [ht]
      rintro x ⟨⟩
      have hn : n < 64 * eta.toNat := by simpa [prfDone] using hdone
      exact ⟨_, rfl, .inr ⟨pd, eta, decode_encode_prfcbd pd hi, hmode, hmsg, hn⟩⟩

/-- A command leaves a session open only when it uses the XOF port and waits. -/
theorem SessionOk.exec {s t : State} {w : Word} {i : Instr} (h : SessionOk s) (hs : s.seq = .exec w)
    (hw : decode w = .ok i) (ht : exec i s = .next t) : SessionOk t := by
  obtain ⟨t', ht', hcase⟩ := exec_cases i s
  obtain rfl := eq_of_next ht' ht
  rcases hcase with ⟨sc, po, bu, rfl⟩ | ⟨code, -, rfl⟩ | ⟨hxof, -⟩
  · exact sessionOk_of_none rfl
  · exact sessionOk_of_none rfl
  · cases i with
    | samplentt pd => cases ht; exact h.samplentt hs hw
    | prfcbd pd eta => cases ht; exact h.prfcbd hs hw
    | _ => cases hxof

/-! ### The agents -/

theorem Invariant.exec {s t : State} {w : Word} {i : Instr} (h : Invariant s) (hs : s.seq = .exec w)
    (hw : decode w = .ok i) (ht : exec i s = .next t) : Invariant t := by
  have hwrites := writes_of_exec ht
  have hsession := h.session.exec hs hw ht
  have herr := h.err_of_exec hs
  obtain ⟨t', ht', hcase⟩ := exec_cases i s
  obtain rfl := eq_of_next ht' ht
  refine ⟨hwrites.canonical h.poly, hwrites.wf h.buf, ?_, ?_, hsession⟩
  · rcases hcase with ⟨sc, po, bu, rfl⟩ | ⟨code, hcode, rfl⟩ | ⟨-, x, rfl⟩
    · simp [herr]
    · simp [hcode]
    · simp [herr]
  · rcases hcase with ⟨sc, po, bu, rfl⟩ | ⟨code, -, rfl⟩ | ⟨-, x, rfl⟩ <;> exact h.queue

theorem Invariant.clearError {s : State} (h : Invariant s) : Invariant (clearError s) := by
  rcases clearError_cases s with ⟨hs, ht⟩ | ⟨-, ht⟩
  · rw [ht]
    exact ⟨h.poly, h.buf, by simp, Nat.zero_le _, sessionOk_of_none (h.session.xof_eq_none (by simp [hs]))⟩
  · rwa [ht]

/-- A write that is not held keeps the invariant: a push had room, and no session is open when the host
may write BUF. -/
theorem Invariant.hostWrite {s : State} (h : Invariant s) {a : BitVec 10} {v : Word}
    (hr : hostReady (.write a v) s = true) : Invariant (hostWrite a v s) := by
  rcases hostWrite_effect a v s with
    ⟨rfl, ht⟩ | ⟨-, -, ht⟩ | ⟨-, -, ht⟩ | ⟨i, -, ht⟩ | ⟨w, hw, ht⟩ | ⟨ie, ht⟩ <;> rw [ht]
  · have hlen : (s.cmdq ++ [v]).length ≤ Config.cmdqDepth := by
      rw [List.length_append]
      exact length_lt_of_push_ready hr
    exact ⟨h.poly, h.buf, h.errState, hlen, h.session⟩
  · exact invariant_resetBlock s
  · exact h.clearError
  · exact h.update ..
  · have hx : s.xof = none := h.session.xof_eq_none fun w' => not_busy_of_exec (busy_of_bufw_ready hw hr)
    exact ⟨h.poly, wf_setBufWord h.buf w v, h.errState, h.queue, sessionOk_of_none hx⟩
  · exact h.update ..

theorem Invariant.hostStep {s : State} (h : Invariant s) : Invariant (hostStep s) := by
  rcases hostStep_cases s with ht | ht | ⟨req, rest, -, hr, ⟨a, rfl, r, ht⟩ | ⟨a, v, rfl, r, ht⟩⟩ <;> rw [ht]
  · exact h
  · exact h.update ..
  · exact h.update ..
  · have hrest : Invariant { s with hostReqs := rest } := h.update ..
    exact (hrest.hostWrite hr).update ..

theorem Invariant.runWord {s t : State} {w : Word} (h : Invariant s) (hs : s.seq = .exec w)
    (ht : runWord w s = .next t) : Invariant t := by
  cases hw : decode w with
  | ok i => exact h.exec hs hw ((runWord_of_ok hw s).symm.trans ht)
  | error e =>
    obtain rfl := eq_of_next (runWord_of_error hw s) ht
    exact h.errorEntry (by decide) w

theorem Invariant.sequencerStep {s t : State} (h : Invariant s) (ht : sequencerStep s = .next t) : Invariant t := by
  cases hf : Machine.fetch s with
  | none =>
    obtain rfl := eq_of_next (sequencerStep_of_none hf) ht
    exact h
  | some p =>
    obtain ⟨w, u⟩ := p
    obtain ⟨hu, hseq⟩ := h.fetch hf
    exact hu.runWord hseq ((sequencerStep_of_some hf).symm.trans ht)

/-- Settles O3, by the agent whose turn it is: each keeps the invariant. -/
theorem everyStepKeepsTheInvariant : Obligations.EveryStepKeepsTheInvariant := by
  intro s t h hstep
  have hturn : Invariant { s with turns := s.turns.tail } := h.update ..
  rcases step_agent hstep with ⟨-, hseq⟩ | ⟨-, rfl⟩ | ⟨-, rfl⟩ | ⟨-, rfl⟩ | ⟨n, -, rfl⟩
  · exact hturn.sequencerStep hseq
  · exact hturn.popOnly
  · exact hturn.hostStep
  · exact invariant_hardReset _
  · exact hturn.update ..

end Sys2Proof.Machine

namespace Sys2Proof.Machine

/-! ## What each agent does to the control registers and the queue -/

/-- SEQ, ERR, ERRCMD, ERRIDX, CCNT and the polynomial registers are as before. -/
structure SameControl (s t : State) : Prop where
  seq : t.seq = s.seq
  err : t.err = s.err
  errCmd : t.errCmd = s.errCmd
  errIdx : t.errIdx = s.errIdx
  ccnt : t.ccnt = s.ccnt
  poly : SamePolys s t

theorem sameControl_of_eq {s t : State} (hs : t.seq = s.seq) (he : t.err = s.err) (hc : t.errCmd = s.errCmd)
    (hi : t.errIdx = s.errIdx) (hn : t.ccnt = s.ccnt) (hp : t.poly = s.poly) : SameControl s t :=
  ⟨hs, he, hc, hi, hn, fun r => by rw [State.getPoly, State.getPoly, hp]⟩

/-- A word in execution retires, enters ERROR, or waits; nothing is done to the queue (R36, R316). -/
theorem runWord_effect {s t : State} {w : Word} (h : runWord w s = .next t) : t.cmdq = s.cmdq ∧
    ((t.ccnt = s.ccnt + 1#32 ∧ t.seq = .idle ∧ t.err = s.err)
      ∨ (t.ccnt = s.ccnt ∧ t.seq = .error ∧ t.err ≠ .none ∧ t.errIdx = s.ccnt)
      ∨ (t.ccnt = s.ccnt ∧ t.err = s.err)) := by
  cases hw : decode w with
  | error e =>
    obtain rfl := eq_of_next (runWord_of_error hw s) h
    exact ⟨rfl, .inr (.inl ⟨rfl, rfl, by simp, rfl⟩)⟩
  | ok i =>
    rw [runWord_of_ok hw] at h
    obtain ⟨t', ht', hcase⟩ := exec_cases i s
    obtain rfl := eq_of_next ht' h
    rcases hcase with ⟨sc, po, bu, rfl⟩ | ⟨code, hcode, rfl⟩ | ⟨-, x, rfl⟩
    · exact ⟨rfl, .inl ⟨rfl, rfl, rfl⟩⟩
    · exact ⟨rfl, .inr (.inl ⟨rfl, rfl, hcode, rfl⟩)⟩
    · exact ⟨rfl, .inr (.inr ⟨rfl, rfl⟩)⟩

/-- The sequencer's turn, from a state that is not ERROR: it may pop the head of the queue in IDLE, and the word it runs
retires, enters ERROR or waits. -/
theorem sequencerStep_effect {s t : State} (h : sequencerStep s = .next t) : t = s ∨
    (s.seq ≠ .error ∧ (t.cmdq = s.cmdq ∨ (s.seq = .idle ∧ ∃ w, s.cmdq = w :: t.cmdq)) ∧
      ((t.ccnt = s.ccnt + 1#32 ∧ t.seq = .idle ∧ t.err = s.err)
        ∨ (t.ccnt = s.ccnt ∧ t.seq = .error ∧ t.err ≠ .none ∧ t.errIdx = s.ccnt)
        ∨ (t.ccnt = s.ccnt ∧ t.err = s.err))) := by
  cases hf : fetch s with
  | none => exact .inl (eq_of_next (sequencerStep_of_none hf) h).symm
  | some p =>
    obtain ⟨w, u⟩ := p
    rw [sequencerStep_of_some hf] at h
    obtain ⟨hq, heffect⟩ := runWord_effect h
    rcases fetch_some_cases hf with ⟨hs, rest, hrest, rfl⟩ | ⟨hs, rfl⟩
    · exact .inr ⟨by simp [hs], .inr ⟨hs, w, by rw [hq, hrest]⟩, heffect⟩
    · exact .inr ⟨by simp [hs], .inl hq, heffect⟩

theorem clearError_effect (s : State) :
    (s.seq = .error ∧ (clearError s).cmdq = [] ∧ (clearError s).err = .none ∧ (clearError s).seq = .idle
        ∧ (clearError s).ccnt = s.ccnt)
      ∨ (SameControl s (clearError s) ∧ (clearError s).cmdq = s.cmdq) := by
  rcases clearError_cases s with ⟨hs, h⟩ | ⟨-, h⟩ <;> rw [h]
  · exact .inl ⟨hs, rfl, rfl, rfl, rfl⟩
  · exact .inr ⟨sameControl_of_eq rfl rfl rfl rfl rfl rfl, rfl⟩

/-- The host port's turn changes the control registers and the queue by a push, SRST, or CLRERR in ERROR only. -/
theorem hostStep_effect (s : State) :
    (SameControl s (hostStep s) ∧ (hostStep s).cmdq = s.cmdq)
      ∨ (SameControl s (hostStep s) ∧ s.cmdq.length < Config.cmdqDepth
        ∧ ∃ w rest, s.hostReqs = .write 0#10 w :: rest ∧ (hostStep s).cmdq = s.cmdq ++ [w])
      ∨ ∃ v rest, s.hostReqs = .write 2#10 v :: rest ∧
        ((v.getLsbD 1 = true ∧ ResetValues (hostStep s))
          ∨ (v.getLsbD 0 = true ∧ s.seq = .error ∧ (hostStep s).cmdq = [] ∧ (hostStep s).err = .none
            ∧ (hostStep s).seq = .idle ∧ (hostStep s).ccnt = s.ccnt)) := by
  rcases hostStep_cases s with h | h | ⟨req, rest, hreq, hr, ⟨a, rfl, r, h⟩ | ⟨a, v, rfl, r, h⟩⟩ <;> rw [h]
  · exact .inl ⟨sameControl_of_eq rfl rfl rfl rfl rfl rfl, rfl⟩
  · exact .inl ⟨sameControl_of_eq rfl rfl rfl rfl rfl rfl, rfl⟩
  · exact .inl ⟨sameControl_of_eq rfl rfl rfl rfl rfl rfl, rfl⟩
  · rcases hostWrite_cases a v { s with hostReqs := rest } with
      ⟨rfl, hw⟩ | ⟨rfl, h1, hw⟩ | ⟨rfl, -, h0, hw⟩ | ⟨sc, bu, ie, hw⟩ <;> rw [hw]
    · exact .inr (.inl ⟨sameControl_of_eq rfl rfl rfl rfl rfl rfl, length_lt_of_push_ready hr, v, rest, hreq, rfl⟩)
    · exact .inr (.inr ⟨v, rest, hreq, .inl ⟨h1, resetValues_reset_outside ..⟩⟩)
    · rcases clearError_effect { s with hostReqs := rest } with ⟨hs, hq, he, hi, hn⟩ | ⟨⟨hs, he, hc, hi, hn, hp⟩, hq⟩
      · exact .inr (.inr ⟨v, rest, hreq, .inr ⟨h0, hs, hq, he, hi, hn⟩⟩)
      · exact .inl ⟨⟨hs, he, hc, hi, hn, hp⟩, hq⟩
    · exact .inl ⟨sameControl_of_eq rfl rfl rfl rfl rfl rfl, rfl⟩

theorem popOnly_effect (s : State) :
    (popOnly s).ccnt = s.ccnt ∧ (s.seq = .error → popOnly s = s)
      ∧ ((popOnly s).cmdq = s.cmdq ∨ (s.seq = .idle ∧ ∃ w, s.cmdq = w :: (popOnly s).cmdq)) := by
  rcases popOnly_cases s with ⟨hs, w, rest, hq, h⟩ | h <;> rw [h]
  · exact ⟨rfl, by simp [hs], .inr ⟨hs, w, hq⟩⟩
  · exact ⟨rfl, fun _ => rfl, .inl rfl⟩

/-! ## The ERROR state, the count, the queue -/

/-- Settles O49, by the agent whose turn it is: only the host port and the hardware reset leave ERROR. -/
theorem errorStateIsLeftOnlyByTheHost : Obligations.ErrorStateIsLeftOnlyByTheHost := by
  intro s t hstep hs
  rcases step_agent hstep with ⟨-, hseq⟩ | ⟨-, rfl⟩ | ⟨hturn, rfl⟩ | ⟨hturn, rfl⟩ | ⟨n, -, rfl⟩
  · obtain rfl := eq_of_next (sequencerStep_of_none (fetch_error (s := { s with turns := s.turns.tail }) hs)) hseq
    exact .inl ⟨hs, rfl, rfl, rfl, rfl, fun _ => rfl⟩
  · obtain ⟨-, hpop, -⟩ := popOnly_effect { s with turns := s.turns.tail }
    rw [hpop hs]
    exact .inl ⟨hs, rfl, rfl, rfl, rfl, fun _ => rfl⟩
  · rcases hostStep_effect { s with turns := s.turns.tail } with
      ⟨hc, -⟩ | ⟨hc, -⟩ | ⟨v, rest, hreq, ⟨h1, hreset⟩ | ⟨h0, -, hq, he, hi, -⟩⟩
    · exact .inl ⟨hc.seq.trans hs, hc.err, hc.errCmd, hc.errIdx, hc.ccnt, hc.poly⟩
    · exact .inl ⟨hc.seq.trans hs, hc.err, hc.errCmd, hc.errIdx, hc.ccnt, hc.poly⟩
    · exact .inr ⟨hreset.seq, hreset.err, hreset.cmdq, .inr ⟨hturn, v, rest, hreq, .inr h1⟩⟩
    · exact .inr ⟨hi, he, hq, .inr ⟨hturn, v, rest, hreq, .inl h0⟩⟩
  · exact .inr ⟨rfl, rfl, rfl, .inl hturn⟩
  · exact .inl ⟨hs, rfl, rfl, rfl, rfl, fun _ => rfl⟩

/-- Settles O53: of all that the agents do, only a retirement and a reset touch CCNT. -/
theorem countAdvancesOnlyByRetirement : Obligations.CountAdvancesOnlyByRetirement := by
  intro s t hstep hne
  rcases step_agent hstep with ⟨hturn, hseq⟩ | ⟨-, rfl⟩ | ⟨hturn, rfl⟩ | ⟨hturn, rfl⟩ | ⟨n, -, rfl⟩
  · rcases sequencerStep_effect hseq with rfl | ⟨-, -, ⟨hn, hi, -⟩ | ⟨hn, -⟩ | ⟨hn, -⟩⟩
    · exact absurd rfl hne
    · exact .inl ⟨hturn, hn, hi⟩
    · exact absurd hn hne
    · exact absurd hn hne
  · exact absurd (popOnly_effect _).1 hne
  · rcases hostStep_effect { s with turns := s.turns.tail } with
      ⟨hc, -⟩ | ⟨hc, -⟩ | ⟨v, rest, -, ⟨-, hreset⟩ | ⟨-, -, -, -, -, hn⟩⟩
    · exact absurd hc.ccnt hne
    · exact absurd hc.ccnt hne
    · exact .inr ⟨.inr hturn, hreset⟩
    · exact absurd hn hne
  · exact .inr ⟨.inl hturn, resetValues_reset_outside ..⟩
  · exact absurd rfl hne

/-- Settles O54, by the agent whose turn it is. -/
theorem queueIsFirstInFirstOut : Obligations.QueueIsFirstInFirstOut := by
  intro s t hstep
  rcases step_agent hstep with ⟨hturn, hseq⟩ | ⟨hturn, rfl⟩ | ⟨hturn, rfl⟩ | ⟨hturn, rfl⟩ | ⟨n, -, rfl⟩
  · rcases sequencerStep_effect hseq with rfl | ⟨-, hq | ⟨hs, hpop⟩, -⟩
    · exact .inl rfl
    · exact .inl hq
    · exact .inr (.inl ⟨.inl hturn, hs, hpop⟩)
  · obtain ⟨-, -, hq | ⟨hs, hpop⟩⟩ := popOnly_effect { s with turns := s.turns.tail }
    · exact .inl hq
    · exact .inr (.inl ⟨.inr hturn, hs, hpop⟩)
  · rcases hostStep_effect { s with turns := s.turns.tail } with
      ⟨-, hq⟩ | ⟨-, hlen, hpush⟩ | ⟨v, rest, hreq, ⟨h1, hreset⟩ | ⟨h0, hs, hq, -⟩⟩
    · exact .inl hq
    · exact .inr (.inr (.inl ⟨hturn, hlen, hpush⟩))
    · exact .inr (.inr (.inr (.inr ⟨hturn, hreset.cmdq, v, rest, hreq, .inl h1⟩)))
    · exact .inr (.inr (.inr (.inr ⟨hturn, hq, v, rest, hreq, .inr ⟨h0, hs⟩⟩)))
  · exact .inr (.inr (.inr (.inl ⟨hturn, rfl⟩)))
  · exact .inl rfl

end Sys2Proof.Machine

namespace Sys2Proof.Machine

/-! ## What commands write and read -/

/-- Settles O50. -/
theorem commandsWriteOnlyTheirDestinations : Obligations.CommandsWriteOnlyTheirDestinations := by
  intro i s t hwf ht
  have hw := writes_of_exec ht
  have hrest : t.ien = s.ien ∧ t.cmdq = s.cmdq ∧ SameOutside s t := by
    obtain ⟨t', ht', hcase⟩ := exec_cases i s
    obtain rfl := eq_of_next ht' ht
    rcases hcase with ⟨sc, po, bu, rfl⟩ | ⟨code, -, rfl⟩ | ⟨-, x, rfl⟩
    · exact ⟨rfl, rfl, rfl, rfl, rfl, rfl⟩
    · exact ⟨rfl, rfl, rfl, rfl, rfl, rfl⟩
    · exact ⟨rfl, rfl, rfl, rfl, rfl, rfl⟩
  exact ⟨hw.scal, hw.poly, hw.buf hwf, hrest⟩

/-- R relates states that no command tells apart, but by the scalars it reads: polynomials, BUF, the XOF session and the
pace are equal, and what a command does to both keeps them related. -/
structure Unread (R : State → State → Prop) : Prop where
  poly : ∀ {s s'}, R s s' → s'.poly = s.poly
  buf : ∀ {s s'}, R s s' → s'.buf = s.buf
  xof : ∀ {s s'}, R s s' → s'.xof = s.xof
  pace : ∀ {s s'}, R s s' → s'.xofPace = s.xofPace
  retire : ∀ {s s'}, R s s' → R (retire s) (retire s')
  errorEntry : ∀ {s s'} code w, R s s' → R (errorEntry code w s) (errorEntry code w s')
  setScal : ∀ {s s'} d v, R s s' → R (s.setScal d v) (s'.setScal d v)
  setPoly : ∀ {s s'} d f, R s s' → R (s.setPoly d f) (s'.setPoly d f)
  setBuf : ∀ {s s'} m, R s s' → R { s with buf := m } { s' with buf := m }
  clear : ∀ {s s'} sc po m, R s s' →
    R { s with scal := sc, poly := po, buf := m } { s' with scal := sc, poly := po, buf := m }
  wait : ∀ {s s'} q x, R s s' → R { s with seq := q, xof := x } { s' with seq := q, xof := x }

section Unread
variable {R : State → State → Prop} (hR : Unread R) {s s' : State} (h : R s s')
include hR h

theorem Unread.ifLegal {t t' : State} (ht : R t t') (i : Instr) :
    R (ifLegal i s t) (ifLegal i s' t') := by
  rw [Machine.ifLegal, Machine.ifLegal]
  split
  · exact ht
  · exact hR.errorEntry _ _ h

theorem Unread.ite_errorEntry {t t' : State} (ht : R t t') (c : Prop) [Decidable c] (code : ErrCode) (w : Word) :
    R (if c then t else Machine.errorEntry code w s) (if c then t' else Machine.errorEntry code w s') := by
  split
  · exact ht
  · exact hR.errorEntry _ _ h

theorem Unread.fieldCommand (hs : s'.scal = s.scal) (i : Instr) (f : Nat → Nat → Nat) (d a b : SReg) :
    R (fieldCommand i f d a b s) (fieldCommand i f d a b s') := by
  have hv : ∀ r, s'.scalVal r = s.scalVal r := fun r => by rw [State.scalVal, State.getScal, hs]; rfl
  by_cases hc : s.scalVal a < Config.q ∧ s.scalVal b < Config.q
  · have hc' : s'.scalVal a < Config.q ∧ s'.scalVal b < Config.q := by rwa [hv, hv]
    rw [fieldCommand_of_canonical hc.1 hc.2, fieldCommand_of_canonical hc'.1 hc'.2, hv, hv]
    exact hR.retire (hR.setScal _ _ h)
  · rw [fieldCommand_of_not_canonical hc, fieldCommand_of_not_canonical (by rwa [hv, hv])]
    exact hR.errorEntry _ _ h

theorem Unread.xofCommand (X : Xof) (i : Instr) (mode : XofMode) (len : Nat) (done : (Nat → Byte) → Nat → Bool)
    (result : (Nat → Byte) → Nat → Poly) (d : PReg) :
    R (xofCommand X i mode len done result d s) (xofCommand X i mode len done result d s') := by
  have hx : sessionOf mode len s' = sessionOf mode len s := by
    rw [sessionOf, sessionOf, hR.xof h, State.bufRegion, State.bufRegion, hR.buf h]
  have hpull : ∀ f n, pullUntil f s'.xofPace n = pullUntil f s.xofPace n := fun _ _ => by rw [hR.pace h]
  rw [xofCommand_eq rfl, xofCommand_eq hx, hpull]
  split
  · exact hR.retire (hR.setPoly _ _ h)
  · exact hR.wait _ _ h

/-- Two states that a command does not tell apart go on to such states. -/
theorem Unread.exec {i : Instr} (hs : i.readsScal = true → s'.scal = s.scal) :
    ∃ t t', exec i s = .next t ∧ exec i s' = .next t' ∧ R t t' := by
  have hpoly : ∀ r, s'.getPoly r = s.getPoly r := fun r => by rw [State.getPoly, State.getPoly, hR.poly h]
  have hbuf : ∀ n, s'.bufRegion n = s.bufRegion n := fun n => by rw [State.bufRegion, State.bufRegion, hR.buf h]
  have hbyte : ∀ a, s'.loadByte a = s.loadByte a := fun a => by rw [State.loadByte, State.loadByte, hR.buf h]
  have scal : ∀ d v, R (Machine.retire (s.setScalVal d v)) (Machine.retire (s'.setScalVal d v)) :=
    fun d v => hR.retire (hR.setScal d _ h)
  have poly : ∀ d f, R (Machine.retire (s.setPoly d f)) (Machine.retire (s'.setPoly d f)) :=
    fun d f => hR.retire (hR.setPoly d f h)
  have hval : i.readsScal = true → ∀ r, s'.getScal r = s.getScal r :=
    fun hi r => by rw [State.getScal, State.getScal, hs hi]
  have hnat : i.readsScal = true → ∀ r, s'.scalVal r = s.scalVal r :=
    fun hi r => congrArg BitVec.toNat (hval hi r)
  cases i with
  | nop => exact ⟨_, _, rfl, rfl, hR.retire h⟩
  | zeroize => exact ⟨_, _, rfl, rfl, hR.retire (hR.clear _ _ _ h)⟩
  | bzero => exact ⟨_, _, rfl, rfl, hR.retire (hR.setBuf _ h)⟩
  | sli d v => exact ⟨_, _, rfl, rfl, scal d _⟩
  | smulw d a b => exact ⟨_, _, rfl, rfl, by rw [hnat rfl, hnat rfl]; exact scal d _⟩
  | fadd d a b => exact ⟨_, _, rfl, rfl, hR.fieldCommand h (hs rfl) _ _ d a b⟩
  | fsub d a b => exact ⟨_, _, rfl, rfl, hR.fieldCommand h (hs rfl) _ _ d a b⟩
  | fmul d a b => exact ⟨_, _, rfl, rfl, hR.fieldCommand h (hs rfl) _ _ d a b⟩
  | csubq d a => exact ⟨_, _, rfl, rfl, by rw [hnat rfl]; exact scal d _⟩
  | bred d a => exact ⟨_, _, rfl, rfl, by rw [hnat rfl]; exact scal d _⟩
  | mred d a => exact ⟨_, _, rfl, rfl, by rw [hnat rfl]; exact hR.ite_errorEntry h (scal d _) _ _ _⟩
  | cget d p idx => exact ⟨_, _, rfl, rfl, by rw [hpoly]; exact scal d _⟩
  | cset d a idx => exact ⟨_, _, rfl, rfl, by rw [hnat rfl, hpoly]; exact hR.ite_errorEntry h (poly d _) _ _ _⟩
  | ldb d addr => exact ⟨_, _, rfl, rfl, by rw [hbyte]; exact hR.ifLegal h (scal d _) _⟩
  | stb a addr =>
    refine ⟨_, _, rfl, rfl, hR.ifLegal h (hR.retire ?_) _⟩
    rw [State.storeByte, State.storeByte, hval rfl, hR.buf h]
    exact hR.setBuf _ h
  | pmov d a => exact ⟨_, _, rfl, rfl, by rw [hpoly]; exact poly d _⟩
  | padd d a b => exact ⟨_, _, rfl, rfl, by rw [hpoly, hpoly]; exact poly d _⟩
  | psub d a b => exact ⟨_, _, rfl, rfl, by rw [hpoly, hpoly]; exact poly d _⟩
  | ntt d a => exact ⟨_, _, rfl, rfl, by rw [hpoly]; exact poly d _⟩
  | intt d a => exact ⟨_, _, rfl, rfl, by rw [hpoly]; exact poly d _⟩
  | pmul d a b => exact ⟨_, _, rfl, rfl, by rw [hpoly, hpoly]; exact poly d _⟩
  | pmac d a b => exact ⟨_, _, rfl, rfl, by rw [hpoly, hpoly, hpoly]; exact poly d _⟩
  | pzero d => exact ⟨_, _, rfl, rfl, poly d _⟩
  | samplentt d => exact ⟨_, _, rfl, rfl, hR.xofCommand h _ _ _ _ _ _ d⟩
  | cbd d eta => exact ⟨_, _, rfl, rfl, by rw [hbuf]; exact hR.ifLegal h (poly d _) _⟩
  | prfcbd d eta => exact ⟨_, _, rfl, rfl, hR.ifLegal h (hR.xofCommand h _ _ _ _ _ _ d) _⟩
  | encode a d =>
    refine ⟨_, _, rfl, rfl, hR.ifLegal h ?_ _⟩
    rw [hpoly, State.storeRegion, State.storeRegion, hR.buf h]
    exact hR.ite_errorEntry h (hR.retire (hR.setBuf _ h)) _ _ _
  | decode d k => exact ⟨_, _, rfl, rfl, by rw [hbuf]; exact hR.ifLegal h (poly d _) _⟩
  | compress d a k => exact ⟨_, _, rfl, rfl, by rw [hpoly]; exact hR.ifLegal h (poly d _) _⟩
  | decompress d a k =>
    refine ⟨_, _, rfl, rfl, hR.ifLegal h ?_ _⟩
    rw [hpoly]
    exact hR.ite_errorEntry h (poly d _) _ _ _

end Unread

/-- s' is s but for scalars. -/
def ButScalars (s s' : State) : Prop := ∃ v, s' = { s with scal := v }

/-- s' is s but for CCNT and ERRIDX. -/
def ButCounts (s s' : State) : Prop := ∃ c e, s' = { s with ccnt := c, errIdx := e }

theorem unread_butScalars : Unread ButScalars where
  poly := by rintro s _ ⟨v, rfl⟩; rfl
  buf := by rintro s _ ⟨v, rfl⟩; rfl
  xof := by rintro s _ ⟨v, rfl⟩; rfl
  pace := by rintro s _ ⟨v, rfl⟩; rfl
  retire := by rintro s _ ⟨v, rfl⟩; exact ⟨_, rfl⟩
  errorEntry := by rintro s _ code w ⟨v, rfl⟩; exact ⟨_, rfl⟩
  setScal := by rintro s _ d x ⟨v, rfl⟩; exact ⟨_, rfl⟩
  setPoly := by rintro s _ d f ⟨v, rfl⟩; exact ⟨_, rfl⟩
  setBuf := by rintro s _ m ⟨v, rfl⟩; exact ⟨_, rfl⟩
  clear := by rintro s _ sc po m ⟨v, rfl⟩; exact ⟨_, rfl⟩
  wait := by rintro s _ q x ⟨v, rfl⟩; exact ⟨_, rfl⟩

theorem unread_butCounts : Unread ButCounts where
  poly := by rintro s _ ⟨c, e, rfl⟩; rfl
  buf := by rintro s _ ⟨c, e, rfl⟩; rfl
  xof := by rintro s _ ⟨c, e, rfl⟩; rfl
  pace := by rintro s _ ⟨c, e, rfl⟩; rfl
  retire := by rintro s _ ⟨c, e, rfl⟩; exact ⟨_, _, rfl⟩
  errorEntry := by rintro s _ code w ⟨c, e, rfl⟩; exact ⟨_, _, rfl⟩
  setScal := by rintro s _ d x ⟨c, e, rfl⟩; exact ⟨_, _, rfl⟩
  setPoly := by rintro s _ d f ⟨c, e, rfl⟩; exact ⟨_, _, rfl⟩
  setBuf := by rintro s _ m ⟨c, e, rfl⟩; exact ⟨_, _, rfl⟩
  clear := by rintro s _ sc po m ⟨c, e, rfl⟩; exact ⟨_, _, rfl⟩
  wait := by rintro s _ q x ⟨c, e, rfl⟩; exact ⟨_, _, rfl⟩

/-- Settles O51: a command that reads no scalar does not tell states apart that differ in scalars only. -/
theorem otherCommandsReadNoScalar : Obligations.OtherCommandsReadNoScalar := by
  intro i s t t' v hi ht ht'
  obtain ⟨u, u', hu, hu', x, hx⟩ := unread_butScalars.exec (i := i) (s := s) ⟨v, rfl⟩ (by simp [hi])
  obtain rfl := eq_of_next hu ht
  obtain rfl := eq_of_next hu' ht'
  rw [hx]

/-- Settles O52: no command tells states apart that differ in CCNT and ERRIDX only. -/
theorem noCommandReadsTheCount : Obligations.NoCommandReadsTheCount := by
  intro i s t t' c ht ht'
  obtain ⟨u, u', hu, hu', c', e', hx⟩ := unread_butCounts.exec (i := i) (s := s) ⟨c, s.errIdx, rfl⟩ fun _ => rfl
  obtain rfl := eq_of_next hu ht
  obtain rfl := eq_of_next hu' ht'
  rw [hx]

/-! ## The pace of the XOF core -/

/-- A command that waited after a bytes and is given b more is where a + b bytes at once would have brought it: it pulls
from the count at which it stopped (R45), and waiting wrote nothing. -/
theorem xofCommand_resume {X : Xof} {i : Instr} {mode : XofMode} {len : Nat} {done : (Nat → Byte) → Nat → Bool}
    {result : (Nat → Byte) → Nat → Poly} {pd : PReg} {s : State} (a b : Nat)
    (h : (xofCommand X i mode len done result pd { s with xofPace := a }).xof ≠ none) :
    xofCommand X i mode len done result pd
        { xofCommand X i mode len done result pd { s with xofPace := a } with xofPace := b }
      = { xofCommand X i mode len done result pd { s with xofPace := a + b } with xofPace := b } := by
  obtain ⟨x, hx, n, hn, ⟨-, ht⟩ | ⟨-, ht⟩⟩ := xofCommand_cases X i mode len done result pd { s with xofPace := a }
  · rw [ht] at h
    exact absurd rfl h
  · rw [ht, xofCommand_eq (sessionOf_some rfl mode len), xofCommand_eq (s := { s with xofPace := a + b }) hx.symm]
    simp only [pullUntil_add, ← hn]
    split
    · rfl
    · rfl

/-- Settles O43. -/
theorem xofPaceDoesNotChangeTheResult : Obligations.XofPaceDoesNotChangeTheResult := by
  intro X s pd eta a b
  refine ⟨xofCommand_resume a b, fun h => ?_⟩
  cases hi : (Instr.prfcbd pd eta).wellFormed with
  | false =>
    rw [prfcbdWith, ifLegal_of_not_wellFormed hi] at h
    exact absurd rfl h
  | true =>
    simp only [prfcbdWith, ifLegal_of_wellFormed hi] at h ⊢
    exact xofCommand_resume a b h

end Sys2Proof.Machine

namespace Sys2Proof.Machine

/-! ## The register map, read the other way (R39) -/

/-- The word index n is that of the register. -/
def indexNames (n : Nat) : HostReg → Prop
  | .cmd => n = 0
  | .status => n = 1
  | .ctrl => n = 2
  | .ien => n = 3
  | .errcmd => n = 4
  | .erridx => n = 5
  | .ccnt => n = 6
  | .id => n = 7
  | .scal i => n = 8 + i.val
  | .bufw w => n = 128 + w.val
  | .reserved => reservedIndex n

theorem hostReg_of_index {a : BitVec 10} {r : HostReg} (h : indexNames a.toNat r) : hostReg a = r := by
  have hsame : ∀ b : BitVec 10, a.toNat = b.toNat → hostReg a = hostReg b :=
    fun b hb => congrArg hostReg (BitVec.eq_of_toNat_eq hb)
  cases r with
  | cmd => exact hsame 0#10 h
  | status => exact hsame 1#10 h
  | ctrl => exact hsame 2#10 h
  | ien => exact hsame 3#10 h
  | errcmd => exact hsame 4#10 h
  | erridx => exact hsame 5#10 h
  | ccnt => exact hsame 6#10 h
  | id => exact hsame 7#10 h
  | scal i =>
    have h : a.toNat = 8 + i.val := h
    rw [hostReg]
    iterate 8 rw [if_neg (by omega)]
    rw [dif_pos (by omega), HostReg.scal.injEq]
    exact Fin.ext (Nat.sub_eq_of_eq_add' h)
  | bufw w =>
    have h : a.toNat = 128 + w.val := h
    rw [hostReg]
    iterate 8 rw [if_neg (by omega)]
    rw [dif_neg (by omega), dif_pos (by omega), HostReg.bufw.injEq]
    exact Fin.ext (Nat.sub_eq_of_eq_add' h)
  | reserved =>
    have h : (16 ≤ a.toNat ∧ a.toNat < 128) ∨ 224 ≤ a.toNat := h
    rw [hostReg]
    iterate 8 rw [if_neg (by omega)]
    rw [dif_neg (by omega), dif_neg (by omega)]

theorem exists_indexNames (n : Nat) : ∃ r, indexNames n r := by
  match n with
  | 0 => exact ⟨.cmd, rfl⟩
  | 1 => exact ⟨.status, rfl⟩
  | 2 => exact ⟨.ctrl, rfl⟩
  | 3 => exact ⟨.ien, rfl⟩
  | 4 => exact ⟨.errcmd, rfl⟩
  | 5 => exact ⟨.erridx, rfl⟩
  | 6 => exact ⟨.ccnt, rfl⟩
  | 7 => exact ⟨.id, rfl⟩
  | k + 8 =>
    by_cases hs : k < 8
    · exact ⟨.scal ⟨k, hs⟩, Nat.add_comm k 8⟩
    · by_cases hb : 120 ≤ k ∧ k < 216
      · exact ⟨.bufw ⟨k - 120, by omega⟩, by simp only [indexNames]; omega⟩
      · exact ⟨.reserved, by simp only [indexNames, reservedIndex]; omega⟩

theorem index_of_hostReg (a : BitVec 10) : indexNames a.toNat (hostReg a) := by
  obtain ⟨r, hr⟩ := exists_indexNames a.toNat
  rwa [hostReg_of_index hr]

/-- Only a reserved index answers with h_err (R42). -/
theorem hostError_iff (a : BitVec 10) : hostError a = true ↔ reservedIndex a.toNat := by
  rw [hostError, beq_iff_eq]
  refine ⟨fun h => ?_, fun h => hostReg_of_index h⟩
  have hidx := index_of_hostReg a
  rwa [h] at hidx

theorem hostError_eq_false {a : BitVec 10} {r : HostReg} (h : hostReg a = r) (hr : r ≠ .reserved) :
    hostError a = false := by
  rw [hostError, h]
  exact beq_false_of_ne hr

/-! ## Which transactions are held (R40, R41) -/

/-- S0..S7 and the buffer window wait while BUSY = 1. -/
theorem hostReady_of_gated {req : HostReq} {a : BitVec 10} {v : Word} (hreq : req = .read a ∨ req = .write a v)
    (ha : gatedIndex a.toNat) (s : State) : hostReady req s = !s.busy := by
  have hreg : (∃ i, hostReg a = .scal i) ∨ ∃ w, hostReg a = .bufw w := by
    rcases ha with ⟨hlo, hhi⟩ | ⟨hlo, hhi⟩
    · exact .inl ⟨⟨a.toNat - 8, by omega⟩, hostReg_of_index (Nat.add_sub_cancel' hlo).symm⟩
    · exact .inr ⟨⟨a.toNat - 128, by omega⟩, hostReg_of_index (Nat.add_sub_cancel' hlo).symm⟩
  rcases hreq with rfl | rfl <;> rcases hreg with ⟨i, hi⟩ | ⟨w, hw⟩ <;> simp only [hostReady, *]

/-- A read waits for nothing else. -/
theorem hostReady_read {a : BitVec 10} {s : State} (h : gatedIndex a.toNat → s.busy = false) :
    hostReady (.read a) s = true := by
  by_cases ha : gatedIndex a.toNat
  · rw [hostReady_of_gated (v := 0#32) (.inl rfl) ha, h ha]
    rfl
  · have hidx := index_of_hostReg a
    cases hreg : hostReg a with
    | scal i => rw [hreg] at hidx; simp only [indexNames, gatedIndex] at hidx ha; omega
    | bufw w => rw [hreg] at hidx; simp only [indexNames, gatedIndex] at hidx ha; omega
    | _ => simp only [hostReady, hreg]

/-- Settles O60. -/
theorem gatedAccessesWaitWhileBusy : Obligations.GatedAccessesWaitWhileBusy := by
  intro s ts req addr v rest hts hreqs hreq hbusy ha
  exact step_of_held hts hreqs (by rw [hostReady_of_gated hreq ha, hbusy]; rfl)

/-- Settles O59. -/
theorem pushesWaitForRoom : Obligations.PushesWaitForRoom := by
  intro s ts v rest hts hreqs
  have hr : hostReady (.write 0#10 v) s = decide (s.cmdq.length < Config.cmdqDepth) := rfl
  refine ⟨fun hlt => ?_, fun hle => ?_⟩
  · rw [step_of_ready hts hreqs (hr.trans (decide_eq_true hlt))]
    rfl
  · exact step_of_held hts hreqs (hr.trans (decide_eq_false (by omega)))

/-! ## Reads and writes of registers -/

theorem toNat_bufWord (s : State) (w : Nat) : (s.bufWord w).toNat = (s.loadByte (4 * w)).toNat
    + 2 ^ 8 * (s.loadByte (4 * w + 1)).toNat + 2 ^ 16 * (s.loadByte (4 * w + 2)).toNat
    + 2 ^ 24 * (s.loadByte (4 * w + 3)).toNat := by
  rw [State.bufWord, BitVec.toNat_ofNat, Nat.mod_eq_of_lt (by omega)]

/-- Settles O56: what a read returns, register by register. -/
theorem hostReadsReturnTheRegister : Obligations.HostReadsReturnTheRegister := by
  intro s ts addr rest hts hreqs hbusy
  have hread : ∀ r, indexNames addr.toNat r → hostReg addr = r := fun _ => hostReg_of_index
  refine ⟨hostRead addr s, hostError addr, step_of_ready hts hreqs (hostReady_read hbusy), hostError_iff addr,
    ?_, fun h => ?_, fun h => ?_, fun h => ?_, fun h => ?_, fun h => ?_, fun h => ?_, fun r h => ?_, fun w hw h => ?_⟩
  · rintro (h | h | h)
    · rw [hostRead, hread .cmd h]
    · rw [hostRead, hread .ctrl h]
    · rw [hostRead, hread .reserved h]
  · rw [hostRead, hread .status h]
  · rw [hostRead, hread .ien h]
    exact BitVec.toNat_setWidth_of_le (by decide)
  · rw [hostRead, hread .errcmd h]
  · rw [hostRead, hread .erridx h]
  · rw [hostRead, hread .ccnt h]
  · rw [hostRead, hread .id h]
  · rw [hostRead, hread (.scal r) h]
  · rw [hostRead, hread (.bufw ⟨w, hw⟩) h]
    exact toNat_bufWord s w

/-- A write that is not held, in the host's turn. -/
theorem step_of_write {s : State} {ts : List Turn} {a : BitVec 10} {v : Word} {rest : List HostReq}
    (hts : s.turns = .host :: ts) (hreqs : s.hostReqs = .write a v :: rest) (hr : hostReady (.write a v) s = true) :
    step s = .next { hostWrite a v { s with turns := ts, hostReqs := rest } with hostReply := .wrote (hostError a) } :=
  step_of_ready hts hreqs hr

/-- SRST and CLRERR are all that a write of CTRL looks at (R34). -/
theorem writeCtrl_congr {v v' : Word} (h : v'.extractLsb' 0 2 = v.extractLsb' 0 2) (s : State) :
    writeCtrl v' s = writeCtrl v s := by
  have hbit : ∀ i, i < 2 → v'.getLsbD i = v.getLsbD i := fun i hi => by
    simpa [hi] using congrArg (BitVec.getLsbD · i) h
  rw [writeCtrl, writeCtrl, hbit 0 (by decide), hbit 1 (by decide)]

theorem writeCtrl_of_clear {v : Word} (h1 : v.getLsbD 1 = false) (h0 : v.getLsbD 0 = false) (s : State) :
    writeCtrl v s = s := by
  rw [writeCtrl, h1, h0]
  rfl

/-- Settles O57, register by register. -/
theorem hostWritesOfRegisters : Obligations.HostWritesOfRegisters := by
  intro s ts addr v rest hts hreqs
  have hreg : ∀ r, indexNames addr.toNat r → hostReg addr = r := fun _ => hostReg_of_index
  have hctrl : addr.toNat = 2 → ∀ v', hostReady (.write addr v') s = true
      ∧ (∀ u, hostWrite addr v' u = writeCtrl v' u) ∧ hostError addr = false := fun h v' =>
    ⟨by simp only [hostReady, hreg .ctrl h], fun u => by rw [hostWrite, hreg .ctrl h],
      hostError_eq_false (hreg .ctrl h) (by decide)⟩
  refine ⟨fun h => ?_, fun h => ?_, fun h h1 h0 => ?_, fun h v' hv => ?_, fun h => ?_, fun r h hbusy => ?_⟩
  · have hro : hostReg addr = .status ∨ hostReg addr = .errcmd ∨ hostReg addr = .erridx ∨ hostReg addr = .ccnt
        ∨ hostReg addr = .id := by
      rcases h with h | h | h | h | h
      · exact .inl (hreg _ h)
      · exact .inr (.inl (hreg _ h))
      · exact .inr (.inr (.inl (hreg _ h)))
      · exact .inr (.inr (.inr (.inl (hreg _ h))))
      · exact .inr (.inr (.inr (.inr (hreg _ h))))
    rcases hro with h | h | h | h | h <;>
      rw [step_of_write hts hreqs (by simp only [hostReady, h]), hostWrite, h, hostError_eq_false h (by decide)]
  · rw [step_of_write hts hreqs (by simp only [hostReady, hreg .reserved h]), hostWrite, hreg .reserved h,
      (hostError_iff addr).mpr h]
  · obtain ⟨hr, hw, he⟩ := hctrl h v
    rw [step_of_write hts hreqs hr, hw, he, writeCtrl_of_clear h1 h0]
  · obtain ⟨hr, hw, -⟩ := hctrl h v
    obtain ⟨hr', hw', -⟩ := hctrl h v'
    rw [step_of_write hts hreqs hr, step_of_write (s := { s with hostReqs := .write addr v' :: rest }) hts rfl hr', hw,
      hw', writeCtrl_congr hv]
  · rw [step_of_write hts hreqs (by simp only [hostReady, hreg .ien h]), hostWrite, hreg .ien h,
      hostError_eq_false (hreg .ien h) (by decide)]
    rw [BitVec.setWidth_eq_extractLsb' (by decide)]
  · have hg : gatedIndex addr.toNat := .inl (by omega)
    refine ⟨s.setScal r v, ?_, rfl, getScal_setScal_same s r v, fun k hk => getScal_setScal_of_ne s v hk⟩
    rw [step_of_write hts hreqs (by rw [hostReady_of_gated (.inr rfl) hg, hbusy]; rfl), hostWrite, hreg (.scal r) h,
      hostError_eq_false (hreg (.scal r) h) (by simp)]
    rfl

/-! ## STATUS and irq (R32, R33, R43) -/

/-- STATUS is the sum of its fields: each is below the place of the next (R32). -/
theorem toNat_status (s : State) : s.status.toNat = s.busy.toNat + 2 * s.queueFull.toNat + 4 * s.errFlag.toNat
    + 16 * s.err.toNat + 256 * min s.cmdq.length 255 := by
  have hb := Bool.toNat_le s.busy
  have hq := Bool.toNat_le s.queueFull
  have he := Bool.toNat_le s.errFlag
  have hc : s.err.toNat ≤ 3 := by cases s.err <;> decide
  rw [State.status, BitVec.toNat_ofNat, Nat.mod_eq_of_lt (by omega)]

theorem errFlag_iff (s : State) : s.errFlag = true ↔ s.err ≠ .none := by
  simp [State.errFlag]

theorem busy_iff (s : State) : s.busy = true ↔ (∃ w, s.seq = .exec w) ∨ (s.seq = .idle ∧ s.cmdq ≠ []) := by
  cases hs : s.seq <;> simp [State.busy, hs]

theorem getLsbD_eq_of_div {w : Word} {i : Nat} {b : Bool} (h : w.toNat / 2 ^ i % 2 = b.toNat) : w.getLsbD i = b := by
  rw [BitVec.getLsbD, Nat.testBit_eq_decide_div_mod_eq, h]
  cases b <;> rfl

theorem irq_iff (s : State) : s.irq = true ↔
    (s.ien.getLsbD 0 = true ∧ s.err ≠ .none) ∨ (s.ien.getLsbD 1 = true ∧ s.busy = false) := by
  simp [State.irq, ← errFlag_iff]

theorem isIdle_iff (s : State) : s.isIdle = true ↔ s.busy = false ∧ s.err = .none := by
  simp [State.isIdle, State.errFlag]

/-- The sequencer sets ERR by error entry and in no other way (R316). -/
theorem sequencerStep_err {s t : State} (h : sequencerStep s = .next t) (hne : t.err ≠ s.err) :
    t.seq = .error ∧ t.err ≠ .none ∧ t.errIdx = s.ccnt := by
  rcases sequencerStep_effect h with rfl | ⟨-, -, ⟨-, -, he⟩ | ⟨-, hrest⟩ | ⟨-, he⟩⟩
  · exact absurd rfl hne
  · exact absurd he hne
  · exact hrest
  · exact absurd he hne

/-- A host write clears ERR by SRST, or by CLRERR in ERROR, and in no other way (R34). -/
theorem hostWrite_err {s : State} {a : BitVec 10} {v : Word} (hne : (hostWrite a v s).err ≠ s.err) :
    (hostWrite a v s).err = .none ∧ a.toNat = 2
      ∧ (v.getLsbD 1 = true ∨ (v.getLsbD 0 = true ∧ s.seq = .error)) := by
  rcases hostWrite_cases a v s with ⟨-, h⟩ | ⟨rfl, h1, h⟩ | ⟨rfl, -, h0, h⟩ | ⟨sc, bu, ie, h⟩ <;> rw [h] at hne ⊢
  · exact absurd rfl hne
  · exact ⟨rfl, rfl, .inl h1⟩
  · rcases clearError_effect s with ⟨hs, -, he, -⟩ | ⟨hc, -⟩
    · exact ⟨he, rfl, .inr ⟨h0, hs⟩⟩
    · exact absurd hc.err hne
  · exact absurd rfl hne

/-- Settles O55. -/
theorem statusAndInterruptShowTheState : Obligations.StatusAndInterruptShowTheState := by
  intro s
  have hstatus := toNat_status s
  have hb := Bool.toNat_le s.busy
  have hq := Bool.toNat_le s.queueFull
  have he := Bool.toNat_le s.errFlag
  have hc : s.err.toNat ≤ 3 := by cases s.err <;> decide
  have hbusy : s.status.getLsbD 0 = s.busy := getLsbD_eq_of_div (by omega)
  have hfull : s.status.getLsbD 1 = s.queueFull := getLsbD_eq_of_div (by omega)
  have herr : s.status.getLsbD 2 = s.errFlag := getLsbD_eq_of_div (by omega)
  have hzero : s.status.getLsbD 3 = false := getLsbD_eq_of_div (by simp only [Bool.toNat_false]; omega)
  have hcode : s.status.extractLsb' 4 4 = BitVec.ofNat 4 s.err.toNat := by
    apply BitVec.eq_of_toNat_eq
    rw [BitVec.extractLsb'_toNat, Nat.shiftRight_eq_div_pow, BitVec.toNat_ofNat]
    omega
  refine ⟨hbusy, ?_, ?_, hzero, ?_, ?_, ?_, busy_iff s, isIdle_iff s, irq_iff s, rfl, fun _ => rfl,
    fun _ => sequencerStep_err, fun _ _ => hostWrite_err, rfl⟩
  · rw [hfull, State.queueFull, beq_iff_eq]
  · rw [herr, errFlag_iff]
  · rw [hcode]
    cases s.err <;> rfl
  · rw [BitVec.extractLsb'_toNat, Nat.shiftRight_eq_div_pow]
    omega
  · apply BitVec.eq_of_toNat_eq
    rw [BitVec.extractLsb'_toNat, Nat.shiftRight_eq_div_pow, BitVec.toNat_ofNat]
    omega

end Sys2Proof.Machine

namespace Sys2Proof.Machine

/-! # Proofs about BUF (20_memory.md)

## The regions that commands read (R63, R65, R260) -/

/-- A region is read alike from two buffers that agree on it. -/
theorem bufRegion_of_agree {s : State} {m : Memory} {n : Nat} (h : ∀ a, a < n → m.read a = s.buf.read a) :
    { s with buf := m }.bufRegion n = s.bufRegion n := by
  rw [bufRegion_eq_map, bufRegion_eq_map]
  exact List.map_congr_left fun a ha => h a (List.mem_range.mp ha)

/-- The check before a command, and the error it raises, leave BUF aside (R97, R99, R316). -/
theorem ifLegal_withBuf (i : Instr) (s t : State) (m : Memory) :
    ifLegal i { s with buf := m } { t with buf := m } = { ifLegal i s t with buf := m } := by
  cases hi : i.wellFormed with
  | true => rw [ifLegal_of_wellFormed hi, ifLegal_of_wellFormed hi]
  | false => rw [ifLegal_of_not_wellFormed hi, ifLegal_of_not_wellFormed hi]; rfl

/-- A session already open keeps its message, and a new one takes it from the region alone (R44, R45). -/
theorem sessionOf_of_region {s : State} {m : Memory} {len : Nat}
    (h : { s with buf := m }.bufRegion len = s.bufRegion len) (mode : XofMode) :
    sessionOf mode len { s with buf := m } = sessionOf mode len s := by
  rw [sessionOf, sessionOf, h]

/-- A command on the XOF port reads BUF only for the message of its session. -/
theorem xofCommand_withBuf {s : State} {m : Memory} {len : Nat}
    (h : { s with buf := m }.bufRegion len = s.bufRegion len) (X : Xof) (i : Instr) (mode : XofMode)
    (done : (Nat → Byte) → Nat → Bool) (result : (Nat → Byte) → Nat → Poly) (pd : PReg) :
    xofCommand X i mode len done result pd { s with buf := m }
      = { xofCommand X i mode len done result pd s with buf := m } := by
  rw [xofCommand_eq (sessionOf_of_region h mode), xofCommand_eq rfl]
  split
  · rfl
  · rfl

/-- Settles O44: each of the five commands meets BUF in its one region, or at its one byte. -/
theorem bufferCommandsReadOnlyTheirRegion : Obligations.BufferCommandsReadOnlyTheirRegion := by
  intro s m i lo hi t t' hcmd hagree ht ht'
  suffices hexec : exec i { s with buf := m } = .next { t with buf := m } from eq_of_next ht' hexec
  have hregion : lo = 0 → { s with buf := m }.bufRegion hi = s.bufRegion hi :=
    fun hlo => bufRegion_of_agree fun a ha => hagree a (hlo ▸ Nat.zero_le a) ha
  rcases hcmd with ⟨pd, d, rfl, hlo, rfl⟩ | ⟨pd, eta, rfl, hlo, rfl⟩ | ⟨pd, rfl, hlo, rfl⟩ | ⟨pd, eta, rfl, hlo, rfl⟩
    | ⟨sd, addr, rfl, rfl, rfl⟩ <;> cases ht
  · rw [exec, execDecode, hregion hlo]
    exact congrArg Host.Outcome.next (ifLegal_withBuf _ s (retire (s.setPoly pd _)) m)
  · rw [exec, execCbd, hregion hlo]
    exact congrArg Host.Outcome.next (ifLegal_withBuf _ s (retire (s.setPoly pd _)) m)
  · exact congrArg Host.Outcome.next (xofCommand_withBuf (hregion hlo) ..)
  · rw [exec, execPrfcbd, prfcbdWith, xofCommand_withBuf (hregion hlo), ifLegal_withBuf]
    rfl
  · have hbyte : { s with buf := m }.loadByte addr.toNat = s.loadByte addr.toNat :=
      hagree addr.toNat (Nat.le_refl _) (Nat.lt_succ_self _)
    rw [exec, execLdb, hbyte]
    exact congrArg Host.Outcome.next (ifLegal_withBuf _ s (retire (s.setScalVal sd _)) m)

/-! ## Buffer words at the host port (R61) -/

/-- A buffer word is written as the string of its four bytes, least significant first. -/
theorem setBufWord_buf (s : State) (w : Nat) (v : Word) : (s.setBufWord w v).buf
    = s.buf.writeBytes (4 * w) ((List.range 4).map fun k => v.extractLsb' (8 * k) 8) := rfl

theorem loadByte_setBufWord {s : State} (hs : s.buf.wf = true) {w : Nat} (hw : w < 96) (v : Word) (a : Nat) :
    (s.setBufWord w v).loadByte a
      = if 4 * w ≤ a ∧ a < 4 * w + 4 then v.extractLsb' (8 * (a - 4 * w)) 8 else s.loadByte a := by
  have hlen : ((List.range 4).map fun k => v.extractLsb' (8 * k) 8).length = 4 := rfl
  rw [State.loadByte, setBufWord_buf, Memory.read_writeBytes hs _ _ (by rw [hlen, Config.bufLen]; omega), hlen]
  split
  · have hk : a - 4 * w < 4 := by omega
    simp [List.getD, hk]
  · rfl

/-- Settles O58: the write completes, for BUSY = 0 (R41), and is the write of the four bytes of the word. -/
theorem hostWritesBufferWordsLittleEndian : Obligations.HostWritesBufferWordsLittleEndian := by
  intro s ts addr v rest w hwf hts hreqs hw haddr hbusy
  have hreg : hostReg addr = .bufw ⟨w, hw⟩ := hostReg_of_index haddr
  have hready : hostReady (.write addr v) s = true := by
    rw [hostReady_of_gated (.inr rfl) (.inr ⟨by omega, by omega⟩), hbusy]
    rfl
  refine ⟨s.setBufWord w v, ?_, rfl, fun k hk => ?_, fun a ha => ?_⟩
  · rw [step_of_write hts hreqs hready, hostWrite, hreg, hostError_eq_false hreg (by simp)]
    rfl
  · rw [loadByte_setBufWord hwf hw, if_pos (by omega), Nat.add_sub_cancel_left]
  · rw [loadByte_setBufWord hwf hw, if_neg (by omega)]

end Sys2Proof.Machine

namespace Sys2Proof

/-! # Proofs about the encoding (30_encoding.md)

## The word that a command encodes to, decoded (R91 to R93) -/

section formats
variable {op : Nat} (hop : op < 256)
include hop

/-- The fields of a word of format R whose register fields name registers. -/
theorem fields_formatR {rd ra rb imm : Nat} (hrd : rd < 8) (hra : ra < 8) (hrb : rb < 8) (himm : imm < 4096) :
    rdField (formatR op rd ra rb imm) = rd ∧ raField (formatR op rd ra rb imm) = ra
      ∧ rbField (formatR op rd ra rb imm) = rb ∧ imm12Field (formatR op rd ra rb imm) = imm :=
  have hrd : rd < 16 := by omega
  have hra : ra < 16 := by omega
  have hrb : rb < 16 := by omega
  ⟨rdField_formatR hop hrd hra hrb himm, raField_formatR hop hrd hra hrb himm,
    rbField_formatR hop hrd hra hrb himm, imm12Field_formatR hop hrd hra hrb himm⟩

theorem decodeNone_formatR (i : Instr) : decodeNone i (formatR op 0 0 0 0) = .ok i := by
  obtain ⟨hd, ha, hb, hi⟩ := fields_formatR hop (rd := 0) (ra := 0) (rb := 0) (imm := 0)
    (by decide) (by decide) (by decide) (by decide)
  rw [decodeNone, hd, ha, hb, hi]
  rfl

theorem decodeD_formatR (mk : Fin 8 → Instr) (d : Fin 8) : decodeD mk (formatR op d 0 0 0) = .ok (mk d) := by
  obtain ⟨hd, ha, hb, hi⟩ := fields_formatR hop (ra := 0) (rb := 0) (imm := 0)
    d.isLt (by decide) (by decide) (by decide)
  rw [decodeD, hd, ha, hb, hi, regNumber_val]
  rfl

theorem decodeDA_formatR (mk : Fin 8 → Fin 8 → Instr) (d a : Fin 8) :
    decodeDA mk (formatR op d a 0 0) = .ok (mk d a) := by
  obtain ⟨hd, ha, hb, hi⟩ := fields_formatR hop (rb := 0) (imm := 0) d.isLt a.isLt (by decide) (by decide)
  rw [decodeDA, hd, ha, hb, hi, regNumber_val, regNumber_val]
  rfl

theorem decodeDAB_formatR (mk : Fin 8 → Fin 8 → Fin 8 → Instr) (d a b : Fin 8) :
    decodeDAB mk (formatR op d a b 0) = .ok (mk d a b) := by
  obtain ⟨hd, ha, hb, hi⟩ := fields_formatR hop (imm := 0) d.isLt a.isLt b.isLt (by decide)
  rw [decodeDAB, hd, ha, hb, hi, regNumber_val, regNumber_val, regNumber_val]
  rfl

theorem decodeImm16_formatI (d : Fin 8) (v : BitVec 16) :
    decodeImm16 (formatI op d v.toNat) = .ok (.sli d v) := by
  have hd : d.val < 16 := by omega
  rw [decodeImm16, rdField_formatI hop hd v.isLt, raField_formatI hop hd v.isLt, imm16Field_formatI hop hd v.isLt,
    regNumber_val, BitVec.ofNat_toNat, BitVec.setWidth_eq]
  rfl

variable {k : Nat} (v : BitVec k) (hv : v.toNat < 4096)
include hv

theorem decodeDImm_formatR (mk : Fin 8 → BitVec k → Instr) (d : Fin 8) :
    decodeDImm k mk (formatR op d 0 0 v.toNat) = inRange (mk d v) := by
  obtain ⟨hd, ha, hb, hi⟩ := fields_formatR hop (ra := 0) (rb := 0) d.isLt (by decide) (by decide) hv
  rw [decodeDImm, hd, ha, hb, hi, regNumber_val, immBits_toNat]
  rfl

theorem decodeAImm_formatR (mk : Fin 8 → BitVec k → Instr) (a : Fin 8) :
    decodeAImm k mk (formatR op 0 a 0 v.toNat) = inRange (mk a v) := by
  obtain ⟨hd, ha, hb, hi⟩ := fields_formatR hop (rd := 0) (rb := 0) (by decide) a.isLt (by decide) hv
  rw [decodeAImm, hd, ha, hb, hi, regNumber_val, immBits_toNat]
  rfl

theorem decodeDAImm_formatR (mk : Fin 8 → Fin 8 → BitVec k → Instr) (d a : Fin 8) :
    decodeDAImm k mk (formatR op d a 0 v.toNat) = inRange (mk d a v) := by
  obtain ⟨hd, ha, hb, hi⟩ := fields_formatR hop (rb := 0) d.isLt a.isLt (by decide) hv
  rw [decodeDAImm, hd, ha, hb, hi, regNumber_val, regNumber_val, immBits_toNat]
  rfl

end formats

end Sys2Proof

namespace Sys2Proof.Laws.OpcodeByte

/-- The opcode byte of the word of a command (R94, R96). -/
theorem opField_encode (i : Instr) : opField (Sys2Proof.encode i) = opcodeOf i := by
  cases i with
  | nop => exact nop
  | zeroize => exact zeroize
  | bzero => exact bzero
  | sli d v => exact sli d v
  | smulw d a b => exact smulw d a b
  | fadd d a b => exact fadd d a b
  | fsub d a b => exact fsub d a b
  | fmul d a b => exact fmul d a b
  | csubq d a => exact csubq d a
  | bred d a => exact bred d a
  | mred d a => exact mred d a
  | cget d a idx => exact cget d a idx
  | cset d a idx => exact cset d a idx
  | ldb d addr => exact ldb d addr
  | stb a addr => exact stb a addr
  | pmov d a => exact pmov d a
  | padd d a b => exact padd d a b
  | psub d a b => exact psub d a b
  | ntt d a => exact ntt d a
  | intt d a => exact intt d a
  | pmul d a b => exact pmul d a b
  | pmac d a b => exact pmac d a b
  | pzero d => exact pzero d
  | samplentt d => exact samplentt d
  | cbd d eta => exact cbd d eta
  | prfcbd d eta => exact prfcbd d eta
  | encode a k => exact encode a k
  | decode d k => exact decode d k
  | compress d a k => exact compress d a k
  | decompress d a k => exact decompress d a k

end Sys2Proof.Laws.OpcodeByte

namespace Sys2Proof

/-- The word of a command decodes to that command when its immediate is in range, and to nothing when it is not. -/
theorem decode_encode (i : Instr) : decode (encode i) = inRange i := by
  have hop := Laws.OpcodeByte.opField_encode i
  rw [decode, hop]
  cases i with
  | nop => exact decodeNone_formatR (by decide) _
  | zeroize => exact decodeNone_formatR (by decide) _
  | bzero => exact decodeNone_formatR (by decide) _
  | sli d v => exact decodeImm16_formatI (by decide) d v
  | smulw d a b => exact decodeDAB_formatR (by decide) _ d a b
  | fadd d a b => exact decodeDAB_formatR (by decide) _ d a b
  | fsub d a b => exact decodeDAB_formatR (by decide) _ d a b
  | fmul d a b => exact decodeDAB_formatR (by decide) _ d a b
  | csubq d a => exact decodeDA_formatR (by decide) _ d a
  | bred d a => exact decodeDA_formatR (by decide) _ d a
  | mred d a => exact decodeDA_formatR (by decide) _ d a
  | cget d a idx => exact decodeDAImm_formatR (by decide) idx (by omega) _ d a
  | cset d a idx => exact decodeDAImm_formatR (by decide) idx (by omega) _ d a
  | ldb d addr => exact decodeDImm_formatR (by decide) addr (by omega) _ d
  | stb a addr => exact decodeAImm_formatR (by decide) addr (by omega) _ a
  | pmov d a => exact decodeDA_formatR (by decide) _ d a
  | padd d a b => exact decodeDAB_formatR (by decide) _ d a b
  | psub d a b => exact decodeDAB_formatR (by decide) _ d a b
  | ntt d a => exact decodeDA_formatR (by decide) _ d a
  | intt d a => exact decodeDA_formatR (by decide) _ d a
  | pmul d a b => exact decodeDAB_formatR (by decide) _ d a b
  | pmac d a b => exact decodeDAB_formatR (by decide) _ d a b
  | pzero d => exact decodeD_formatR (by decide) _ d
  | samplentt d => exact decodeD_formatR (by decide) _ d
  | cbd d eta => exact decodeDImm_formatR (by decide) eta (by omega) _ d
  | prfcbd d eta => exact decodeDImm_formatR (by decide) eta (by omega) _ d
  | encode a k => exact decodeAImm_formatR (by decide) k (by omega) _ a
  | decode d k => exact decodeDImm_formatR (by decide) k (by omega) _ d
  | compress d a k => exact decodeDAImm_formatR (by decide) k (by omega) _ d a
  | decompress d a k => exact decodeDAImm_formatR (by decide) k (by omega) _ d a

/-- Settles O4: a well-formed command has its immediate in range. -/
theorem decodeOfEncodeIsTheCommand : Obligations.DecodeOfEncodeIsTheCommand := by
  intro i h
  rw [decode_encode, inRange_of_wellFormed h]

/-- Settles O7: the words are the encodings of the commands beside them. -/
theorem exampleWordsDecode : Obligations.ExampleWordsDecode := by
  have of_encode : ∀ {w : Word} (i : Instr), i.wellFormed = true → encode i = w → decode w = .ok i :=
    fun i h hw => hw ▸ decodeOfEncodeIsTheCommand i h
  exact ⟨of_encode .nop rfl rfl, of_encode (.sli 0 0x0D01#16) rfl rfl, of_encode (.fadd 1 2 3) rfl rfl,
    of_encode (.bred 4 4) rfl rfl, of_encode (.cget 1 2 255#8) rfl rfl, of_encode (.cset 7 0 1#8) rfl rfl,
    of_encode (.ldb 3 383#9) rfl rfl, of_encode (.stb 3 0#9) rfl rfl, of_encode (.ntt 1 0) rfl rfl,
    of_encode (.pmac 2 0 1) rfl rfl, of_encode (.samplentt 5) rfl rfl, of_encode (.cbd 3 2#4) rfl rfl,
    of_encode (.encode 2 12#4) rfl rfl, of_encode (.decode 0 12#4) rfl rfl, of_encode (.compress 1 0 10#4) rfl rfl⟩

/-! ## Masks, field by field (R91, R95) -/

/-- A mask of m ones above k zeros clears the low k bits. -/
theorem and_highBits {n mask k m : Nat} (h : n < 2 ^ (k + m)) (hmask : mask = (2 ^ m - 1) * 2 ^ k) :
    n &&& mask = n / 2 ^ k * 2 ^ k := by
  subst hmask
  have hk : 0 < 2 ^ k := Nat.two_pow_pos k
  have hlow : (n &&& (2 ^ m - 1) * 2 ^ k) % 2 ^ k = 0 := by
    rw [Nat.and_mod_two_pow, Nat.mul_mod_left, Nat.and_zero]
  have hhigh : (n &&& (2 ^ m - 1) * 2 ^ k) / 2 ^ k = n / 2 ^ k := by
    rw [Nat.and_div_two_pow, Nat.mul_div_cancel _ hk, Nat.and_two_pow_sub_one_eq_mod]
    exact Nat.mod_eq_of_lt (Nat.div_lt_of_lt_mul (by rwa [← Nat.pow_add]))
  rw [← hhigh, Nat.div_mul_cancel (Nat.dvd_of_mod_eq_zero hlow)]

theorem and_highBits_eq_zero {n mask k m : Nat} (h : n < 2 ^ (k + m)) (hmask : mask = (2 ^ m - 1) * 2 ^ k) :
    n &&& mask = 0 ↔ n < 2 ^ k := by
  rw [and_highBits h hmask, Nat.mul_eq_zero, Nat.div_eq_zero_iff, or_iff_left (by simp), or_iff_right (by simp)]

@[simp] theorem rdField_lt (w : Word) : rdField w < 16 := Nat.mod_lt _ (by decide)
@[simp] theorem raField_lt (w : Word) : raField w < 16 := Nat.mod_lt _ (by decide)
@[simp] theorem rbField_lt (w : Word) : rbField w < 16 := Nat.mod_lt _ (by decide)
theorem imm12Field_lt (w : Word) : imm12Field w < 4096 := Nat.mod_lt _ (by decide)

theorem opField_and (w m : Word) : opField (w &&& m) = opField w &&& opField m := by
  rw [opField, BitVec.toNat_and, Nat.and_div_two_pow, opField, opField]

theorem rdField_and (w m : Word) : rdField (w &&& m) = rdField w &&& rdField m := by
  rw [rdField, BitVec.toNat_and, Nat.and_div_two_pow, Nat.and_mod_two_pow (n := 4), rdField, rdField]

theorem raField_and (w m : Word) : raField (w &&& m) = raField w &&& raField m := by
  rw [raField, BitVec.toNat_and, Nat.and_div_two_pow, Nat.and_mod_two_pow (n := 4), raField, raField]

theorem rbField_and (w m : Word) : rbField (w &&& m) = rbField w &&& rbField m := by
  rw [rbField, BitVec.toNat_and, Nat.and_div_two_pow, Nat.and_mod_two_pow (n := 4), rbField, rbField]

theorem imm12Field_and (w m : Word) : imm12Field (w &&& m) = imm12Field w &&& imm12Field m := by
  rw [imm12Field, BitVec.toNat_and, Nat.and_mod_two_pow, imm12Field, imm12Field]

theorem word_eq_iff {w v : Word} : w = v ↔ opField w = opField v ∧ rdField w = rdField v ∧ raField w = raField v
    ∧ rbField w = rbField v ∧ imm12Field w = imm12Field v := by
  refine ⟨fun h => by rw [h]; simp, fun ⟨hop, hd, ha, hb, hi⟩ => ?_⟩
  rw [← formatR_fields w, ← formatR_fields v, hop, hd, ha, hb, hi]

/-- The whole opcode byte passes the mask 0xFF. -/
theorem opField_and_full (w : Word) : opField w &&& 255 = opField w := by
  have h : opField w < 256 := by
    have := w.isLt
    rw [opField]
    omega
  rw [Nat.and_two_pow_sub_one_eq_mod _ 8, Nat.mod_eq_of_lt h]

/-- The mask 0b1000 passes the register numbers (R92). -/
@[simp] theorem nibble_and_eight {n : Nat} (h : n < 16) : n &&& 8 = 0 ↔ ∃ r : Fin 8, n = r.val :=
  (and_highBits_eq_zero (k := 3) (m := 1) h rfl).trans ⟨fun hn => ⟨⟨n, hn⟩, rfl⟩, fun ⟨r, hr⟩ => hr ▸ r.isLt⟩

/-- The mask 0b1111 passes zero only. -/
@[simp] theorem nibble_and_fifteen {n : Nat} (h : n < 16) : n &&& 15 = 0 ↔ n = 0 :=
  (and_highBits_eq_zero (k := 0) (m := 4) h rfl).trans Nat.lt_one_iff

/-! ## What a row of the table selects -/

/-- The row asks for the opcode byte `op`, and for zeros in the register fields under the masks rd, ra, rb. -/
def OpcodeRow.hasFields (r : OpcodeRow) (op rd ra rb : Nat) : Prop :=
  (opField r.mask, rdField r.mask, raField r.mask, rbField r.mask) = (255, rd, ra, rb)
    ∧ (opField r.value, rdField r.value, raField r.value, rbField r.value) = (op, 0, 0, 0)

theorem OpcodeRow.hasFields.opcode {r : OpcodeRow} {w : Word} {op rd ra rb : Nat} (hr : r.hasFields op rd ra rb)
    (hop : opField w = op) : opField r.value = opField w := (congrArg Prod.fst hr.2).trans hop.symm

/-- The row's conditions on the immediate. -/
def OpcodeRow.selectsImm (r : OpcodeRow) (w : Word) : Prop :=
  imm12Field w &&& imm12Field r.mask = imm12Field r.value
    ∧ r.immLow ≤ w.toNat % 2 ^ r.immWidth ∧ w.toNat % 2 ^ r.immWidth ≤ r.immHigh

theorem selects_iff {r : OpcodeRow} {w : Word} {op rd ra rb : Nat} (hr : r.hasFields op rd ra rb)
    (hop : opField w = op) : r.selects w ↔
      rdField w &&& rd = 0 ∧ raField w &&& ra = 0 ∧ rbField w &&& rb = 0 ∧ r.selectsImm w := by
  simp only [OpcodeRow.hasFields, Prod.mk.injEq] at hr
  obtain ⟨⟨hmop, hmd, hma, hmb⟩, hvop, hvd, hva, hvb⟩ := hr
  rw [OpcodeRow.selects, word_eq_iff, opField_and, rdField_and, raField_and, rbField_and, imm12Field_and, hmop, hmd,
    hma, hmb, hvop, hvd, hva, hvb, opField_and_full, OpcodeRow.selectsImm]
  simp only [hop, true_and, and_assoc]

section immediates
variable {w mask value : Word} {name : String}

theorem selectsImm_plain :
    (plainRow name mask value).selectsImm w ↔ imm12Field w &&& imm12Field mask = imm12Field value :=
  and_iff_left ⟨Nat.zero_le _, (Nat.mod_one _).le⟩

/-- A row without immediate: all of `imm12` is zero. -/
theorem selectsImm_none (hm : imm12Field mask = (2 ^ 12 - 1) * 2 ^ 0) (hv : imm12Field value = 0) :
    (plainRow name mask value).selectsImm w ↔ imm12Field w = 0 := by
  rw [selectsImm_plain, hv, and_highBits_eq_zero (imm12Field_lt w) hm, Nat.pow_zero, Nat.lt_one_iff]

/-- A row of format I: `imm12` is part of `imm16` and free. -/
theorem selectsImm_free (hm : imm12Field mask = 0) (hv : imm12Field value = 0) :
    (plainRow name mask value).selectsImm w := by
  rw [selectsImm_plain, hm, hv, Nat.and_zero]

theorem exists_toNat_eq_iff {n k : Nat} {p : BitVec k → Prop} :
    (∃ v : BitVec k, n = v.toNat ∧ p v) ↔ n < 2 ^ k ∧ p (BitVec.ofNat k n) := by
  constructor
  · rintro ⟨v, rfl, hp⟩
    exact ⟨v.isLt, by rwa [BitVec.ofNat_toNat, BitVec.setWidth_eq]⟩
  · rintro ⟨hn, hp⟩
    exact ⟨_, ((BitVec.toNat_ofNat ..).trans (Nat.mod_eq_of_lt hn)).symm, hp⟩

/-- CGET, CSET: an index of 8 bits. -/
theorem selectsImm_index (hm : imm12Field mask = (2 ^ 4 - 1) * 2 ^ 8) (hv : imm12Field value = 0) :
    (plainRow name mask value).selectsImm w ↔ ∃ v : BitVec 8, imm12Field w = v.toNat ∧ true = true := by
  rw [selectsImm_plain, hv, exists_toNat_eq_iff, and_highBits_eq_zero (imm12Field_lt w) hm, and_iff_left rfl]

/-- CBD, PRFCBD: the mask itself leaves 2 and 3. -/
theorem selectsImm_eta (hm : imm12Field mask = (2 ^ 11 - 1) * 2 ^ 1) (hv : imm12Field value = 2) :
    (plainRow name mask value).selectsImm w ↔ ∃ v : BitVec 4, imm12Field w = v.toNat ∧ etaLegal v = true := by
  have heta : ∀ v : BitVec 4, etaLegal v = true ↔ v.toNat = 2 ∨ v.toNat = 3 := by decide
  rw [selectsImm_plain, hv, exists_toNat_eq_iff, heta, BitVec.toNat_ofNat, and_highBits (imm12Field_lt w) hm]
  omega

/-- A row with a range of its own, of k bits. -/
theorem selectsImm_range {k lo hi : Nat} (hk : k ≤ 12) {legal : BitVec k → Bool}
    (hm : imm12Field mask = (2 ^ (12 - k) - 1) * 2 ^ k) (hv : imm12Field value = 0)
    (hlegal : ∀ v, legal v = true ↔ lo ≤ v.toNat ∧ v.toNat ≤ hi) :
    (OpcodeRow.mk name mask value lo hi k).selectsImm w ↔
      ∃ v : BitVec k, imm12Field w = v.toNat ∧ legal v = true := by
  have himm : w.toNat % 2 ^ k = imm12Field w % 2 ^ k := (Nat.mod_mod_of_dvd _ (Nat.pow_dvd_pow 2 hk)).symm
  have hlt : imm12Field w < 2 ^ (k + (12 - k)) := by
    rw [Nat.add_sub_cancel' hk]
    exact imm12Field_lt w
  rw [OpcodeRow.selectsImm, hv, and_highBits_eq_zero hlt hm, himm, exists_toNat_eq_iff, hlegal, BitVec.toNat_ofNat]

theorem selectsImm_addr (hm : imm12Field mask = (2 ^ 3 - 1) * 2 ^ 9) (hv : imm12Field value = 0) :
    (OpcodeRow.mk name mask value 0 383 9).selectsImm w ↔
      ∃ v : BitVec 9, imm12Field w = v.toNat ∧ addrLegal v = true := by
  refine selectsImm_range (by decide) hm hv fun v => ?_
  rw [addrLegal, decide_eq_true_iff, Config.bufLen]
  omega

theorem selectsImm_codecWidth (hm : imm12Field mask = (2 ^ 8 - 1) * 2 ^ 4) (hv : imm12Field value = 0) :
    (OpcodeRow.mk name mask value 1 12 4).selectsImm w ↔
      ∃ v : BitVec 4, imm12Field w = v.toNat ∧ codecWidthLegal v = true :=
  selectsImm_range (by decide) hm hv (by decide)

theorem selectsImm_compressWidth (hm : imm12Field mask = (2 ^ 8 - 1) * 2 ^ 4) (hv : imm12Field value = 0) :
    (OpcodeRow.mk name mask value 1 11 4).selectsImm w ↔
      ∃ v : BitVec 4, imm12Field w = v.toNat ∧ compressWidthLegal v = true :=
  selectsImm_range (by decide) hm hv (by decide)

end immediates

/-! ## What each shape of command decodes (R92, R93) -/

theorem bind_eq_ok {α β ε : Type} {x : Except ε α} {f : α → Except ε β} {b : β} :
    (x >>= f) = .ok b ↔ ∃ a, x = .ok a ∧ f a = .ok b := by
  cases x with
  | ok a => exact ⟨fun h => ⟨a, rfl, h⟩, fun ⟨_, ha, h⟩ => Except.ok.inj ha ▸ h⟩
  | error e => exact ⟨(nomatch ·), fun ⟨_, ha, _⟩ => nomatch ha⟩

theorem exists_bind_eq_ok {α β ε : Type} {x : Except ε α} {f : α → Except ε β} :
    (∃ b, (x >>= f) = .ok b) ↔ ∃ a, x = .ok a ∧ ∃ b, f a = .ok b := by
  simp only [bind_eq_ok, ← exists_and_left]
  exact exists_comm

@[simp] theorem regNumber_eq_ok {n : Nat} {r : Fin 8} : regNumber n = .ok r ↔ n = r := by
  constructor
  · intro h
    rw [regNumber] at h
    split at h
    · rw [← Except.ok.inj h]
    · cases h
  · rintro rfl
    exact regNumber_val r

@[simp] theorem unused_eq_ok {n : Nat} {u : Unit} : unused n = .ok u ↔ n = 0 := by
  rw [unused]
  split <;> simp [*]

@[simp] theorem immBits_eq_ok {k n : Nat} {v : BitVec k} : immBits k n = .ok v ↔ n = v.toNat := by
  constructor
  · intro h
    rw [immBits] at h
    split at h
    · rw [← Except.ok.inj h, BitVec.toNat_ofNat, Nat.mod_eq_of_lt ‹_›]
    · cases h
  · rintro rfl
    exact immBits_toNat v

@[simp] theorem inRange_eq_ok {i j : Instr} : inRange i = .ok j ↔ i.wellFormed = true ∧ i = j := by
  rw [inRange]
  split <;> simp [*]

section shapes
variable {w : Word} {i : Instr}

theorem decodeNone_eq_ok {j : Instr} : decodeNone j w = .ok i ↔
    rdField w = 0 ∧ raField w = 0 ∧ rbField w = 0 ∧ imm12Field w = 0 ∧ j = i := by
  simp [decodeNone, bind_eq_ok]

theorem decodeD_eq_ok {mk : Fin 8 → Instr} : decodeD mk w = .ok i ↔
    ∃ d, rdField w = d.val ∧ raField w = 0 ∧ rbField w = 0 ∧ imm12Field w = 0 ∧ mk d = i := by
  simp [decodeD, bind_eq_ok]

theorem decodeDA_eq_ok {mk : Fin 8 → Fin 8 → Instr} : decodeDA mk w = .ok i ↔
    ∃ d, rdField w = d.val ∧ ∃ a, raField w = a.val ∧ rbField w = 0 ∧ imm12Field w = 0 ∧ mk d a = i := by
  simp [decodeDA, bind_eq_ok]

theorem decodeDAB_eq_ok {mk : Fin 8 → Fin 8 → Fin 8 → Instr} : decodeDAB mk w = .ok i ↔
    ∃ d, rdField w = d.val ∧ ∃ a, raField w = a.val ∧ ∃ b, rbField w = b.val ∧ imm12Field w = 0 ∧ mk d a b = i := by
  simp [decodeDAB, bind_eq_ok]

theorem decodeDImm_eq_ok {k : Nat} {mk : Fin 8 → BitVec k → Instr} : decodeDImm k mk w = .ok i ↔
    ∃ d, rdField w = d.val ∧ raField w = 0 ∧ rbField w = 0 ∧ ∃ v, imm12Field w = v.toNat
      ∧ (mk d v).wellFormed = true ∧ mk d v = i := by
  simp [decodeDImm, bind_eq_ok]

theorem decodeAImm_eq_ok {k : Nat} {mk : Fin 8 → BitVec k → Instr} : decodeAImm k mk w = .ok i ↔
    rdField w = 0 ∧ ∃ a, raField w = a.val ∧ rbField w = 0 ∧ ∃ v, imm12Field w = v.toNat
      ∧ (mk a v).wellFormed = true ∧ mk a v = i := by
  simp [decodeAImm, bind_eq_ok]

theorem decodeDAImm_eq_ok {k : Nat} {mk : Fin 8 → Fin 8 → BitVec k → Instr} : decodeDAImm k mk w = .ok i ↔
    ∃ d, rdField w = d.val ∧ ∃ a, raField w = a.val ∧ rbField w = 0 ∧ ∃ v, imm12Field w = v.toNat
      ∧ (mk d a v).wellFormed = true ∧ mk d a v = i := by
  simp [decodeDAImm, bind_eq_ok]

theorem decodeImm16_eq_ok : decodeImm16 w = .ok i ↔
    ∃ d, rdField w = d.val ∧ raField w = 0 ∧ .sli d (BitVec.ofNat 16 (imm16Field w)) = i := by
  simp [decodeImm16, bind_eq_ok]

end shapes

/-! ## The decoder and the table, opcode by opcode (R95, R96) -/

/-- The command stands in the row, is well formed when `legal` says so, and encodes to w. -/
structure OpcodeRow.Fits (r : OpcodeRow) (i : Instr) (legal : Bool) (w : Word) : Prop where
  name : i.mnemonic = r.mnemonic
  wellFormed : i.wellFormed = legal
  word : encode i = w

/-- On the word w, whose opcode byte is the row's, the row selects what `dec` accepts; and the command decoded is the
row's, well formed, and encodes to w. -/
structure OpcodeRow.Agrees (r : OpcodeRow) (w : Word) (dec : Except DecodeError Instr) : Prop where
  opcode : opField r.value = opField w
  selects_iff : r.selects w ↔ ∃ i, dec = .ok i
  fits_of_ok : ∀ i, dec = .ok i → r.Fits i true w

section shapes
variable {r : OpcodeRow} {w : Word} {op : Nat} (hop : opField w = op)
include hop

/-- A word is rebuilt from what its fields were found to be. -/
theorem formatR_of_fields {rd ra rb imm : Nat} (hd : rdField w = rd) (ha : raField w = ra) (hb : rbField w = rb)
    (hi : imm12Field w = imm) : formatR op rd ra rb imm = w := by
  rw [← hop, ← hd, ← ha, ← hb, ← hi, formatR_fields]

theorem formatI_of_fields {rd : Nat} (hd : rdField w = rd) (ha : raField w = 0) :
    formatI op rd (imm16Field w) = w := by
  have himm : imm16Field w = rbField w * 2 ^ 12 + imm12Field w := by
    rw [imm16Field, rbField, imm12Field]
    omega
  refine Eq.trans ?_ (formatR_of_fields hop hd ha rfl rfl)
  rw [formatI, formatR, himm, Nat.zero_mul, Nat.add_zero, Nat.add_assoc _ (rbField w * 2 ^ 12)]

theorem agrees_decodeNone {j : Instr} (hr : r.hasFields op 15 15 15) (himm : r.selectsImm w ↔ imm12Field w = 0)
    (hfit : r.Fits j true (formatR op 0 0 0 0)) : r.Agrees w (decodeNone j w) where
  opcode := hr.opcode hop
  selects_iff := by simp [selects_iff hr hop, himm, decodeNone, exists_bind_eq_ok]
  fits_of_ok i h := by
    obtain ⟨hd, ha, hb, hi, rfl⟩ := decodeNone_eq_ok.mp h
    rwa [← formatR_of_fields hop hd ha hb hi]

theorem agrees_decodeD {mk : Fin 8 → Instr} (hr : r.hasFields op 8 15 15)
    (himm : r.selectsImm w ↔ imm12Field w = 0) (hfit : ∀ d, r.Fits (mk d) true (formatR op d 0 0 0)) :
    r.Agrees w (decodeD mk w) where
  opcode := hr.opcode hop
  selects_iff := by simp [selects_iff hr hop, himm, decodeD, exists_bind_eq_ok]
  fits_of_ok i h := by
    obtain ⟨d, hd, ha, hb, hi, rfl⟩ := decodeD_eq_ok.mp h
    rw [← formatR_of_fields hop hd ha hb hi]
    exact hfit d

theorem agrees_decodeDA {mk : Fin 8 → Fin 8 → Instr} (hr : r.hasFields op 8 8 15)
    (himm : r.selectsImm w ↔ imm12Field w = 0) (hfit : ∀ d a, r.Fits (mk d a) true (formatR op d a 0 0)) :
    r.Agrees w (decodeDA mk w) where
  opcode := hr.opcode hop
  selects_iff := by simp [selects_iff hr hop, himm, decodeDA, exists_bind_eq_ok]
  fits_of_ok i h := by
    obtain ⟨d, hd, a, ha, hb, hi, rfl⟩ := decodeDA_eq_ok.mp h
    rw [← formatR_of_fields hop hd ha hb hi]
    exact hfit d a

theorem agrees_decodeDAB {mk : Fin 8 → Fin 8 → Fin 8 → Instr} (hr : r.hasFields op 8 8 8)
    (himm : r.selectsImm w ↔ imm12Field w = 0) (hfit : ∀ d a b, r.Fits (mk d a b) true (formatR op d a b 0)) :
    r.Agrees w (decodeDAB mk w) where
  opcode := hr.opcode hop
  selects_iff := by simp [selects_iff hr hop, himm, decodeDAB, exists_bind_eq_ok]
  fits_of_ok i h := by
    obtain ⟨d, hd, a, ha, b, hb, hi, rfl⟩ := decodeDAB_eq_ok.mp h
    rw [← formatR_of_fields hop hd ha hb hi]
    exact hfit d a b

theorem agrees_decodeImm16 (hr : r.hasFields op 8 15 0) (himm : r.selectsImm w)
    (hfit : ∀ d v, r.Fits (.sli d v) true (formatI op d v.toNat)) : r.Agrees w (decodeImm16 w) where
  opcode := hr.opcode hop
  selects_iff := by simp [selects_iff hr hop, himm, decodeImm16, exists_bind_eq_ok]
  fits_of_ok i h := by
    obtain ⟨d, hd, ha, rfl⟩ := decodeImm16_eq_ok.mp h
    obtain ⟨hname, hlegal, henc⟩ := hfit d (BitVec.ofNat 16 (imm16Field w))
    have himm16 : imm16Field w < 2 ^ 16 := Nat.mod_lt _ (by decide)
    rw [BitVec.toNat_ofNat, Nat.mod_eq_of_lt himm16, formatI_of_fields hop hd ha] at henc
    exact ⟨hname, hlegal, henc⟩

variable {k : Nat} {legal : BitVec k → Bool}
  (himm : r.selectsImm w ↔ ∃ v : BitVec k, imm12Field w = v.toNat ∧ legal v = true)
include himm

theorem agrees_decodeDImm {mk : Fin 8 → BitVec k → Instr} (hr : r.hasFields op 8 15 15)
    (hfit : ∀ d v, r.Fits (mk d v) (legal v) (formatR op d 0 0 v.toNat)) : r.Agrees w (decodeDImm k mk w) where
  opcode := hr.opcode hop
  selects_iff := by simp [selects_iff hr hop, himm, decodeDImm, exists_bind_eq_ok, fun d v => (hfit d v).wellFormed]
  fits_of_ok i h := by
    obtain ⟨d, hd, ha, hb, v, hi, hwf, rfl⟩ := decodeDImm_eq_ok.mp h
    obtain ⟨hname, -, henc⟩ := hfit d v
    exact ⟨hname, hwf, henc.trans (formatR_of_fields hop hd ha hb hi)⟩

theorem agrees_decodeAImm {mk : Fin 8 → BitVec k → Instr} (hr : r.hasFields op 15 8 15)
    (hfit : ∀ a v, r.Fits (mk a v) (legal v) (formatR op 0 a 0 v.toNat)) : r.Agrees w (decodeAImm k mk w) where
  opcode := hr.opcode hop
  selects_iff := by simp [selects_iff hr hop, himm, decodeAImm, exists_bind_eq_ok, fun a v => (hfit a v).wellFormed]
  fits_of_ok i h := by
    obtain ⟨hd, a, ha, hb, v, hi, hwf, rfl⟩ := decodeAImm_eq_ok.mp h
    obtain ⟨hname, -, henc⟩ := hfit a v
    exact ⟨hname, hwf, henc.trans (formatR_of_fields hop hd ha hb hi)⟩

theorem agrees_decodeDAImm {mk : Fin 8 → Fin 8 → BitVec k → Instr} (hr : r.hasFields op 8 8 15)
    (hfit : ∀ d a v, r.Fits (mk d a v) (legal v) (formatR op d a 0 v.toNat)) :
    r.Agrees w (decodeDAImm k mk w) where
  opcode := hr.opcode hop
  selects_iff := by
    simp [selects_iff hr hop, himm, decodeDAImm, exists_bind_eq_ok, fun d a v => (hfit d a v).wellFormed]
  fits_of_ok i h := by
    obtain ⟨d, hd, a, ha, hb, v, hi, hwf, rfl⟩ := decodeDAImm_eq_ok.mp h
    obtain ⟨hname, -, henc⟩ := hfit d a v
    exact ⟨hname, hwf, henc.trans (formatR_of_fields hop hd ha hb hi)⟩

end shapes

/-- The opcode bytes of R96. -/
theorem opcodeTable_opcodes : opcodeTable.map (fun r => opField r.value) =
    [0x00, 0x01, 0x02, 0x10, 0x11, 0x12, 0x13, 0x14, 0x15, 0x16, 0x17, 0x18, 0x19, 0x1A, 0x1B, 0x20, 0x21, 0x22, 0x23,
      0x24, 0x25, 0x26, 0x27, 0x30, 0x31, 0x32, 0x40, 0x41, 0x42, 0x43] := rfl

/-- A row of the table has the opcode byte of the word, and `dec` and the row agree on the word; or no row has it and
`dec` is an error (R94, R95). -/
def FollowsTable (w : Word) (dec : Except DecodeError Instr) : Prop :=
  (∃ r ∈ opcodeTable, r.Agrees w dec) ∨ ((∀ r ∈ opcodeTable, opField r.value ≠ opField w) ∧ ∃ e, dec = .error e)

theorem FollowsTable.of_row {w : Word} {dec : Except DecodeError Instr} {r : OpcodeRow} (k : Nat)
    (hk : opcodeTable[k]? = some r) (h : r.Agrees w dec) : FollowsTable w dec :=
  .inl ⟨r, List.mem_of_getElem? hk, h⟩

/-- Each of the thirty opcodes has its row; from any other the decoder answers an error. -/
theorem followsTable_decode (w : Word) : FollowsTable w (decode w) := by
  rw [decode]
  split
  next hop =>
    exact .of_row 0 rfl (agrees_decodeNone hop ⟨rfl, rfl⟩ (selectsImm_none rfl rfl) ⟨rfl, rfl, rfl⟩)
  next hop =>
    exact .of_row 1 rfl (agrees_decodeNone hop ⟨rfl, rfl⟩ (selectsImm_none rfl rfl) ⟨rfl, rfl, rfl⟩)
  next hop =>
    exact .of_row 2 rfl (agrees_decodeNone hop ⟨rfl, rfl⟩ (selectsImm_none rfl rfl) ⟨rfl, rfl, rfl⟩)
  next hop =>
    exact .of_row 3 rfl (agrees_decodeImm16 hop ⟨rfl, rfl⟩ (selectsImm_free rfl rfl) fun _ _ => ⟨rfl, rfl, rfl⟩)
  next hop =>
    exact .of_row 4 rfl (agrees_decodeDAB hop ⟨rfl, rfl⟩ (selectsImm_none rfl rfl) fun _ _ _ => ⟨rfl, rfl, rfl⟩)
  next hop =>
    exact .of_row 5 rfl (agrees_decodeDAB hop ⟨rfl, rfl⟩ (selectsImm_none rfl rfl) fun _ _ _ => ⟨rfl, rfl, rfl⟩)
  next hop =>
    exact .of_row 6 rfl (agrees_decodeDAB hop ⟨rfl, rfl⟩ (selectsImm_none rfl rfl) fun _ _ _ => ⟨rfl, rfl, rfl⟩)
  next hop =>
    exact .of_row 7 rfl (agrees_decodeDAB hop ⟨rfl, rfl⟩ (selectsImm_none rfl rfl) fun _ _ _ => ⟨rfl, rfl, rfl⟩)
  next hop =>
    exact .of_row 8 rfl (agrees_decodeDA hop ⟨rfl, rfl⟩ (selectsImm_none rfl rfl) fun _ _ => ⟨rfl, rfl, rfl⟩)
  next hop =>
    exact .of_row 9 rfl (agrees_decodeDA hop ⟨rfl, rfl⟩ (selectsImm_none rfl rfl) fun _ _ => ⟨rfl, rfl, rfl⟩)
  next hop =>
    exact .of_row 10 rfl (agrees_decodeDA hop ⟨rfl, rfl⟩ (selectsImm_none rfl rfl) fun _ _ => ⟨rfl, rfl, rfl⟩)
  next hop =>
    exact .of_row 11 rfl (agrees_decodeDAImm hop (selectsImm_index rfl rfl) ⟨rfl, rfl⟩ fun _ _ _ => ⟨rfl, rfl, rfl⟩)
  next hop =>
    exact .of_row 12 rfl (agrees_decodeDAImm hop (selectsImm_index rfl rfl) ⟨rfl, rfl⟩ fun _ _ _ => ⟨rfl, rfl, rfl⟩)
  next hop =>
    exact .of_row 13 rfl (agrees_decodeDImm hop (selectsImm_addr rfl rfl) ⟨rfl, rfl⟩ fun _ _ => ⟨rfl, rfl, rfl⟩)
  next hop =>
    exact .of_row 14 rfl (agrees_decodeAImm hop (selectsImm_addr rfl rfl) ⟨rfl, rfl⟩ fun _ _ => ⟨rfl, rfl, rfl⟩)
  next hop =>
    exact .of_row 15 rfl (agrees_decodeDA hop ⟨rfl, rfl⟩ (selectsImm_none rfl rfl) fun _ _ => ⟨rfl, rfl, rfl⟩)
  next hop =>
    exact .of_row 16 rfl (agrees_decodeDAB hop ⟨rfl, rfl⟩ (selectsImm_none rfl rfl) fun _ _ _ => ⟨rfl, rfl, rfl⟩)
  next hop =>
    exact .of_row 17 rfl (agrees_decodeDAB hop ⟨rfl, rfl⟩ (selectsImm_none rfl rfl) fun _ _ _ => ⟨rfl, rfl, rfl⟩)
  next hop =>
    exact .of_row 18 rfl (agrees_decodeDA hop ⟨rfl, rfl⟩ (selectsImm_none rfl rfl) fun _ _ => ⟨rfl, rfl, rfl⟩)
  next hop =>
    exact .of_row 19 rfl (agrees_decodeDA hop ⟨rfl, rfl⟩ (selectsImm_none rfl rfl) fun _ _ => ⟨rfl, rfl, rfl⟩)
  next hop =>
    exact .of_row 20 rfl (agrees_decodeDAB hop ⟨rfl, rfl⟩ (selectsImm_none rfl rfl) fun _ _ _ => ⟨rfl, rfl, rfl⟩)
  next hop =>
    exact .of_row 21 rfl (agrees_decodeDAB hop ⟨rfl, rfl⟩ (selectsImm_none rfl rfl) fun _ _ _ => ⟨rfl, rfl, rfl⟩)
  next hop =>
    exact .of_row 22 rfl (agrees_decodeD hop ⟨rfl, rfl⟩ (selectsImm_none rfl rfl) fun _ => ⟨rfl, rfl, rfl⟩)
  next hop =>
    exact .of_row 23 rfl (agrees_decodeD hop ⟨rfl, rfl⟩ (selectsImm_none rfl rfl) fun _ => ⟨rfl, rfl, rfl⟩)
  next hop =>
    exact .of_row 24 rfl (agrees_decodeDImm hop (selectsImm_eta rfl rfl) ⟨rfl, rfl⟩ fun _ _ => ⟨rfl, rfl, rfl⟩)
  next hop =>
    exact .of_row 25 rfl (agrees_decodeDImm hop (selectsImm_eta rfl rfl) ⟨rfl, rfl⟩ fun _ _ => ⟨rfl, rfl, rfl⟩)
  next hop =>
    exact .of_row 26 rfl (agrees_decodeAImm hop (selectsImm_codecWidth rfl rfl) ⟨rfl, rfl⟩ fun _ _ => ⟨rfl, rfl, rfl⟩)
  next hop =>
    exact .of_row 27 rfl (agrees_decodeDImm hop (selectsImm_codecWidth rfl rfl) ⟨rfl, rfl⟩ fun _ _ => ⟨rfl, rfl, rfl⟩)
  next hop =>
    exact .of_row 28 rfl
      (agrees_decodeDAImm hop (selectsImm_compressWidth rfl rfl) ⟨rfl, rfl⟩ fun _ _ _ => ⟨rfl, rfl, rfl⟩)
  next hop =>
    exact .of_row 29 rfl
      (agrees_decodeDAImm hop (selectsImm_compressWidth rfl rfl) ⟨rfl, rfl⟩ fun _ _ _ => ⟨rfl, rfl, rfl⟩)
  · refine .inr ⟨fun r hr hop => ?_, _, rfl⟩
    have hlisted : opField w ∈ opcodeTable.map (fun r => opField r.value) := List.mem_map.mpr ⟨r, hr, hop⟩
    simp_all [opcodeTable_opcodes]

theorem opField_value_inj {r r' : OpcodeRow} (hr : r ∈ opcodeTable) (hr' : r' ∈ opcodeTable)
    (h : opField r.value = opField r'.value) : r = r' :=
  List.inj_on_of_nodup_map (f := fun r => opField r.value) (by rw [opcodeTable_opcodes]; decide) hr hr' h

theorem mnemonic_inj {r r' : OpcodeRow} (hr : r ∈ opcodeTable) (hr' : r' ∈ opcodeTable)
    (h : r.mnemonic = r'.mnemonic) : r = r' :=
  List.inj_on_of_nodup_map (f := OpcodeRow.mnemonic) (by decide) hr hr' h

/-- Every row looks at the whole opcode byte. -/
theorem opField_of_selects {r : OpcodeRow} (hr : r ∈ opcodeTable) {w : Word} (h : r.selects w) :
    opField r.value = opField w := by
  have hmask : ∀ r ∈ opcodeTable, opField r.mask = 255 := by decide
  rw [← h.1, opField_and, hmask r hr, opField_and_full]

/-- Settles O5: the command decoded is that of the row of the word's opcode. -/
theorem encodeOfDecodeIsTheWord : Obligations.EncodeOfDecodeIsTheWord := by
  intro w i hi
  obtain ⟨r, -, hagrees⟩ | ⟨-, e, he⟩ := followsTable_decode w
  · have hfit := hagrees.fits_of_ok i hi
    exact ⟨hfit.wellFormed, hfit.word⟩
  · rw [he] at hi
    cases hi

/-- Settles O6: only the row of the word's opcode can select the word, and that row agrees with the decoder. -/
theorem decodeAgreesWithMaskAndMatch : Obligations.DecodeAgreesWithMaskAndMatch := by
  intro w
  obtain ⟨r, hr, hagrees⟩ | ⟨hunlisted, e, he⟩ := followsTable_decode w
  · have only : ∀ r' ∈ opcodeTable, r'.selects w → r' = r := fun r' hr' h =>
      opField_value_inj hr' hr ((opField_of_selects hr' h).trans hagrees.opcode.symm)
    refine ⟨⟨fun h => ⟨r, hr, hagrees.selects_iff.mpr h⟩, fun ⟨r', hr', h⟩ => ?_⟩,
      fun i hi r' hr' => ⟨fun h => ?_, fun h => ?_⟩⟩
    · exact hagrees.selects_iff.mp (only r' hr' h ▸ h)
    · rw [only r' hr' h, (hagrees.fits_of_ok i hi).name]
    · rw [mnemonic_inj hr' hr (h.trans (hagrees.fits_of_ok i hi).name)]
      exact hagrees.selects_iff.mpr ⟨i, hi⟩
  · rw [he]
    exact ⟨⟨nofun, fun ⟨r, hr, h⟩ => absurd (opField_of_selects hr h) (hunlisted r hr)⟩, nofun⟩

/-! ## Immediates out of range (R93, R97, R172, R199) -/

theorem decode_encode_of_not_wellFormed {i : Instr} (h : i.wellFormed = false) :
    decode (encode i) = .error .immediateRange := by
  rw [decode_encode, inRange, h]
  rfl

theorem addrLegal_eq_false {addr : BitVec 9} : addrLegal addr = false ↔ 384 ≤ addr.toNat := by
  rw [addrLegal, decide_eq_false_iff_not, Config.bufLen]
  omega

theorem codecWidthLegal_eq_false {d : BitVec 4} : codecWidthLegal d = false ↔ d.toNat = 0 ∨ 13 ≤ d.toNat := by
  rw [codecWidthLegal, Bool.and_eq_false_iff, decide_eq_false_iff_not, decide_eq_false_iff_not]
  omega

theorem compressWidthLegal_eq_false {d : BitVec 4} : compressWidthLegal d = false ↔ d.toNat = 0 ∨ 12 ≤ d.toNat := by
  rw [compressWidthLegal, Bool.and_eq_false_iff, decide_eq_false_iff_not, decide_eq_false_iff_not]
  omega

theorem etaLegal_eq_false {eta : BitVec 4} : etaLegal eta = false ↔ eta.toNat ≠ 2 ∧ eta.toNat ≠ 3 := by
  rw [etaLegal, Bool.or_eq_false_iff, beq_eq_false_iff_ne, beq_eq_false_iff_ne]

/-- A command is ill formed exactly by its address, its width or its η. -/
theorem wellFormed_eq_false {i : Instr} : i.wellFormed = false ↔
    (∃ r addr, (i = .ldb r addr ∨ i = .stb r addr) ∧ 384 ≤ addr.toNat)
      ∨ (∃ r d, (i = .encode r d ∨ i = .decode r d) ∧ (d.toNat = 0 ∨ 13 ≤ d.toNat))
      ∨ (∃ r p d, (i = .compress r p d ∨ i = .decompress r p d) ∧ (d.toNat = 0 ∨ 12 ≤ d.toNat))
      ∨ (∃ r eta, (i = .cbd r eta ∨ i = .prfcbd r eta) ∧ eta.toNat ≠ 2 ∧ eta.toNat ≠ 3) := by
  constructor
  · intro h
    cases i with
    | ldb r addr => exact .inl ⟨r, addr, .inl rfl, addrLegal_eq_false.mp h⟩
    | stb r addr => exact .inl ⟨r, addr, .inr rfl, addrLegal_eq_false.mp h⟩
    | encode r d => exact .inr (.inl ⟨r, d, .inl rfl, codecWidthLegal_eq_false.mp h⟩)
    | decode r d => exact .inr (.inl ⟨r, d, .inr rfl, codecWidthLegal_eq_false.mp h⟩)
    | compress r p d => exact .inr (.inr (.inl ⟨r, p, d, .inl rfl, compressWidthLegal_eq_false.mp h⟩))
    | decompress r p d => exact .inr (.inr (.inl ⟨r, p, d, .inr rfl, compressWidthLegal_eq_false.mp h⟩))
    | cbd r eta => exact .inr (.inr (.inr ⟨r, eta, .inl rfl, etaLegal_eq_false.mp h⟩))
    | prfcbd r eta => exact .inr (.inr (.inr ⟨r, eta, .inr rfl, etaLegal_eq_false.mp h⟩))
    | _ => cases h
  · rintro (⟨r, addr, rfl | rfl, h⟩ | ⟨r, d, rfl | rfl, h⟩ | ⟨r, p, d, rfl | rfl, h⟩ | ⟨r, eta, rfl | rfl, h⟩)
    · exact addrLegal_eq_false.mpr h
    · exact addrLegal_eq_false.mpr h
    · exact codecWidthLegal_eq_false.mpr h
    · exact codecWidthLegal_eq_false.mpr h
    · exact compressWidthLegal_eq_false.mpr h
    · exact compressWidthLegal_eq_false.mpr h
    · exact etaLegal_eq_false.mpr h
    · exact etaLegal_eq_false.mpr h

end Sys2Proof

namespace Sys2Proof.Machine

/-- An ill-formed command fails with ILLEGAL_COMMAND before it reads an operand: each of the eight commands that can be
ill formed makes the check first. -/
theorem exec_of_not_wellFormed {i : Instr} (h : i.wellFormed = false) (s : State) :
    exec i s = .next (errorEntry .illegalCommand (encode i) s) := by
  obtain ⟨r, addr, rfl | rfl, -⟩ | ⟨r, d, rfl | rfl, -⟩ | ⟨r, p, d, rfl | rfl, -⟩ | ⟨r, eta, rfl | rfl, -⟩ :=
    wellFormed_eq_false.mp h
  all_goals exact congrArg Host.Outcome.next (ifLegal_of_not_wellFormed h s _)

/-- Settles O11. -/
theorem immediatesOutOfRangeAreIllegal : Obligations.ImmediatesOutOfRangeAreIllegal := by
  intro i s
  exact ⟨wellFormed_eq_false, fun h =>
    ⟨⟨_, decode_encode_of_not_wellFormed h⟩, failsWith_of (exec_of_not_wellFormed h s)⟩⟩

/-! ## Words that select no command; no command and no step stops the machine (R97, R310, R311, R316) -/

/-- Settles O10: the word popped is run, and runs into error entry. -/
theorem illegalWordFails : Obligations.IllegalWordFails := by
  intro s t w e rest hturn hidle hq hw
  refine ⟨errorEntry .illegalCommand w { t with cmdq := rest, seq := .exec w }, ?_, failed_errorEntry ..⟩
  rw [step_of_sequencer hturn, sequencerStep_of_some (fetch_idle_cons hidle hq), runWord_of_error hw]

/-- Settles O12: `exec_cases` and `step_cases` name the next state. -/
theorem everyStepAnswersANextState : Obligations.EveryStepAnswersANextState := by
  refine ⟨fun i s => ?_, fun s => ?_⟩
  · obtain ⟨t, ht, -⟩ := exec_cases i s
    exact ⟨t, ht⟩
  · obtain ⟨t, ht, -⟩ := step_cases s
    exact ⟨t, ht⟩

end Sys2Proof.Machine

namespace Sys2Proof.Machine

/-! # Proofs about field arithmetic (40_field_arithmetic.md)

## The reductions (R127, R128, R130) -/

/-- One conditional subtraction reduces what is below 2q (R127). -/
theorem csubq_eq_mod {a : Nat} (h : a < 2 * Config.q) : csubq a = a % Config.q := by
  rw [csubq]
  split_ifs with hq
  · rw [Nat.mod_eq_sub_mod hq, Nat.mod_eq_of_lt (by omega)]
  · rw [Nat.mod_eq_of_lt (by omega)]

/-- The Barrett quotient is at most a / q, for 1290167 · q ≤ 2^32. -/
theorem barrettQuotient_mul_le (a : Nat) : a * 1290167 / 2 ^ 32 * Config.q ≤ a := by
  simp only [Config.q]
  omega

/-- The Barrett remainder is a mod q or that plus q: 2^32 exceeds 1290167 · q by less than q, and a is below 2^32. -/
theorem barrettRemainder_lt {a : Nat} (h : a < 2 ^ 32) : a - a * 1290167 / 2 ^ 32 * Config.q < 2 * Config.q := by
  simp only [Config.q]
  omega

/-- Settles O16: the remainder differs from a by a multiple of q and is below 2q, where `csubq` reduces it. -/
theorem barrettDatapathIsExact : Obligations.BarrettDatapathIsExact := by
  intro a ha
  refine ⟨?_, barrettQuotient_mul_le a, barrettRemainder_lt ha⟩
  calc barrettDatapath a
    _ = (a - a * 1290167 / 2 ^ 32 * Config.q) % Config.q := csubq_eq_mod (barrettRemainder_lt ha)
    _ = a % 3329 := by
      rw [Nat.mul_comm _ Config.q, Nat.sub_mul_mod (Nat.mul_comm _ Config.q ▸ barrettQuotient_mul_le a)]

/-- 169 is the inverse of 2^16 modulo q: u is a · 169 modulo q when u · 2^16 is a (R130). -/
theorem mul_169_mod_eq_iff {a u : Nat} :
    u % Config.q = a * 169 % Config.q ↔ u * 2 ^ 16 % Config.q = a % Config.q := by
  simp only [Config.q]
  omega

/-- The Montgomery sum is a multiple of 2^16, for 3327 · q + 1 is 169 · 2^16. -/
theorem two_pow_dvd_montgomerySum (a : Nat) : 2 ^ 16 ∣ a + a * 3327 % 2 ^ 16 * Config.q := by
  simp only [Config.q]
  omega

/-- The Montgomery sum is below 2 · q · 2^16, its two summands being below q · 2^16. -/
theorem montgomeryQuotient_lt {a : Nat} (h : a < Config.mredLimit) :
    (a + a * 3327 % 2 ^ 16 * Config.q) / 2 ^ 16 < 2 * Config.q := by
  simp only [Config.q, Config.mredLimit] at h ⊢
  omega

/-- Settles O17: the quotient times 2^16 is the sum, which is a modulo q, and is below 2q, where `csubq` reduces it. -/
theorem montgomeryDatapathIsExact : Obligations.MontgomeryDatapathIsExact := by
  intro a ha
  have hdvd := two_pow_dvd_montgomerySum a
  have hlt := montgomeryQuotient_lt ha
  refine ⟨?_, Nat.mod_eq_zero_of_dvd hdvd, hlt⟩
  rw [montgomeryDatapath, csubq_eq_mod hlt, mul_169_mod_eq_iff, Nat.div_mul_cancel hdvd, Nat.add_mul_mod_self_right]

/-! ## The commands on scalars (R132 to R138) -/

theorem mod_q_lt_two_pow (a : Nat) : a % Config.q < 2 ^ 32 := (Nat.mod_lt a (by decide)).trans (by decide)

/-- `subMod` is the difference of integers with the non-negative remainder of R6. -/
theorem subMod_eq_toNat_emod (a b : Nat) : subMod a b = (((a : Int) - b) % Config.q).toNat := by
  simp only [subMod, Config.q]
  omega

theorem encodes_of_wellFormed {i : Instr} {w : Word} (hw : encode i = w) (hi : i.wellFormed = true) : Encodes i w :=
  ⟨hw, hw ▸ decodeOfEncodeIsTheCommand i hi⟩

section fieldCommand
variable {i : Instr} {f : Nat → Nat → Nat} {s : State} {sd sa sb : SReg}
  (hexec : exec i s = .next (fieldCommand i f sd sa sb s))
include hexec

/-- A field command on canonical operands writes the residue that f is on them, and retires. -/
theorem writesScal_of_fieldCommand {n : Nat} (ha : s.scalVal sa < Config.q) (hb : s.scalVal sb < Config.q)
    (hf : f (s.scalVal sa) (s.scalVal sb) = n % Config.q) : WritesScal i sd (n % Config.q) s :=
  writesScal_of (by rw [hexec, fieldCommand_of_canonical ha hb, hf]) (mod_q_lt_two_pow n)

theorem failsWith_of_fieldCommand (h : Config.q ≤ s.scalVal sa ∨ Config.q ≤ s.scalVal sb) :
    FailsWith i .operandRange s :=
  failsWith_of (by rw [hexec, fieldCommand_of_not_canonical (by omega)])

end fieldCommand

/-- Settles O13: the three are the field command with the sum, the difference and the product. -/
theorem fieldCommandsComputeModuloQ : Obligations.FieldCommandsComputeModuloQ := by
  intro s sd sa sb
  refine ⟨⟨encodes_of_wellFormed rfl rfl, encodes_of_wellFormed rfl rfl, encodes_of_wellFormed rfl rfl⟩,
    fun ha hb => ⟨?_, ?_, ?_⟩, fun h => ⟨?_, ?_, ?_⟩⟩
  · exact writesScal_of_fieldCommand rfl ha hb (fieldAdd_eq ha hb)
  · exact subMod_eq_toNat_emod _ _ ▸ writesScal_of_fieldCommand rfl ha hb (fieldSub_eq ha hb)
  · exact writesScal_of_fieldCommand rfl ha hb rfl
  · exact failsWith_of_fieldCommand rfl h
  · exact failsWith_of_fieldCommand rfl h
  · exact failsWith_of_fieldCommand rfl h

/-- What is written to a scalar is written modulo 2^32. -/
theorem setScalVal_mod (s : State) (d : SReg) (v : Nat) : s.setScalVal d (v % 2 ^ 32) = s.setScalVal d v :=
  congrArg (s.setScal d) (BitVec.eq_of_toNat_eq (Nat.mod_mod v _))

theorem csubq_le (a : Nat) : csubq a ≤ a := by
  rw [csubq]
  split_ifs <;> omega

/-- Settles O14: each retires with a value that fits the register. -/
theorem scalarReductionsAcceptEveryValue : Obligations.ScalarReductionsAcceptEveryValue := by
  intro s sd sa sb
  refine ⟨encodes_of_wellFormed rfl rfl, encodes_of_wellFormed rfl rfl, encodes_of_wellFormed rfl rfl, ?_, ?_, ?_⟩
  · exact writesScal_of (by rw [setScalVal_mod]; rfl) (Nat.mod_lt _ (by decide))
  · exact writesScal_of rfl ((csubq_le _).trans_lt (s.getScal sa).isLt)
  · exact writesScal_of rfl (mod_q_lt_two_pow _)

section mred
variable {sd sa : SReg} {s : State}

theorem exec_mred_of_lt (h : s.scalVal sa < Config.mredLimit) :
    exec (.mred sd sa) s = .next (retire (s.setScalVal sd (mred (s.scalVal sa)))) :=
  congrArg Host.Outcome.next (if_pos h)

theorem exec_mred_of_le (h : Config.mredLimit ≤ s.scalVal sa) :
    exec (.mred sd sa) s = .next (errorEntry .operandRange (encode (.mred sd sa)) s) :=
  congrArg Host.Outcome.next (if_neg (Nat.not_lt.mpr h))

end mred

/-- Settles O15: on either side of its bound MRED writes or fails, and the residue of a · 169 times 2^16 is that of a. -/
theorem montgomeryReductionDividesByR : Obligations.MontgomeryReductionDividesByR := by
  intro s sd sa
  refine ⟨encodes_of_wellFormed rfl rfl, fun h => ⟨?_, ?_⟩, fun h => ?_⟩
  · exact writesScal_of (exec_mred_of_lt h) (mod_q_lt_two_pow _)
  · exact mul_169_mod_eq_iff.mp (Nat.mod_mod _ _)
  · exact failsWith_of (exec_mred_of_le h)

end Sys2Proof.Machine

namespace Sys2Proof.Machine

/-! # Proofs about the byte codecs (41_codec.md)

## Bit strings and byte strings (R9, R10, R160) -/

theorem bitsValue_eq_sum (b : Nat → Bool) (o n : Nat) :
    bitsValue b o n = ∑ j ∈ Finset.range n, (b (o + j)).toNat * 2 ^ j := by
  induction n with
  | zero => rfl
  | succ n ih => rw [bitsValue, Finset.sum_range_succ, ih]

/-- A value of n bits is known by its bits. -/
theorem bitsValue_eq_of_testBit {b : Nat → Bool} {o n v : Nat} (hv : v < 2 ^ n)
    (h : ∀ j, j < n → b (o + j) = v.testBit j) : bitsValue b o n = v := by
  refine Nat.eq_of_testBit_eq fun j => ?_
  rcases Nat.lt_or_ge j n with hj | hj
  · rw [testBit_bitsValue _ _ _ _ hj, h j hj]
  · rw [Nat.testBit_lt_two_pow ((bitsValue_lt b o n).trans_le (Nat.pow_le_pow_right (by decide) hj)),
      Nat.testBit_lt_two_pow (hv.trans_le (Nat.pow_le_pow_right (by decide) hj))]

/-- Byte strings of one length with the same bits are the same. -/
theorem eq_of_bytesToBits {bs bs' : List Byte} (hlen : bs.length = bs'.length)
    (h : ∀ t, t < 8 * bs.length → bytesToBits bs t = bytesToBits bs' t) : bs = bs' := by
  refine List.ext_getElem hlen fun k hk hk' => BitVec.eq_of_getLsbD_eq fun j hj => ?_
  have hbit := h (8 * k + j) (by omega)
  rwa [bytesToBits, bytesToBits, show (8 * k + j) / 8 = k by omega, show (8 * k + j) % 8 = j by omega,
    List.getD_eq_getElem _ _ hk, List.getD_eq_getElem _ _ hk'] at hbit

/-! ## Regions of BUF (R63) -/

/-- What was stored from address 0 on is read back there. -/
theorem bufRegion_storeRegion {s : State} (hs : s.buf.wf = true) {bs : List Byte} (h : bs.length ≤ Config.bufLen) :
    (s.storeRegion bs).bufRegion bs.length = bs := by
  refine List.ext_getElem (by simp [bufRegion_eq_map]) fun k _ hk => ?_
  simp [bufRegion_eq_map, loadByte_storeRegion hs bs h, hk]

/-- A store changes no byte of BUF exactly when it stores what stands there. -/
theorem sameBuf_storeRegion_iff {s : State} (hs : s.buf.wf = true) {bs : List Byte} (h : bs.length ≤ Config.bufLen) :
    SameBuf s (s.storeRegion bs) ↔ bs = s.bufRegion bs.length := by
  constructor
  · intro hsame
    rw [bufRegion_eq_map, ← funext hsame, ← bufRegion_eq_map, bufRegion_storeRegion hs h]
  · intro hbs a
    rw [loadByte_storeRegion hs bs h]
    split_ifs with ha
    · rw [hbs, getD_bufRegion s ha]
    · rfl

theorem bytesToBits_bufRegion (s : State) {n t : Nat} (h : t < 8 * n) :
    bytesToBits (s.bufRegion n) t = s.bufBit t := by
  rw [bytesToBits, getD_bufRegion s (by omega), State.bufBit]

theorem bufBit_storeRegion {s : State} (hs : s.buf.wf = true) {bs : List Byte} (h : bs.length ≤ Config.bufLen) {t : Nat}
    (ht : t < 8 * bs.length) : (s.storeRegion bs).bufBit t = bytesToBits bs t := by
  rw [← bytesToBits_bufRegion _ ht, bufRegion_storeRegion hs h]

/-! ## The d-bit fields of a byte string (R161, R162) -/

/-- Field i of a packed byte string: the d-bit number at bits i·d .. i·d + d − 1 (R162). -/
def packedField (d : Nat) (bs : List Byte) (i : Nat) : Nat := bitsValue (bytesToBits bs) (i * d) d

theorem packedField_lt (d : Nat) (bs : List Byte) (i : Nat) : packedField d bs i < 2 ^ d := bitsValue_lt _ _ _

/-- The 256 fields of d bits lie in 32d bytes. -/
theorem fieldBit_lt {d i j : Nat} (hi : i < 256) (hj : j < d) : i * d + j < 8 * (32 * d) :=
  calc i * d + j
    _ < (i + 1) * d := by rw [Nat.succ_mul]; omega
    _ ≤ 256 * d := Nat.mul_le_mul_right d hi
    _ = 8 * (32 * d) := by omega

/-- Strings of 32d bytes are equal when their 256 fields are. -/
theorem eq_iff_packedField {d : Nat} (hd : 1 ≤ d) {bs bs' : List Byte} (hlen : bs.length = 32 * d)
    (hlen' : bs'.length = 32 * d) : bs = bs' ↔ ∀ i, i < 256 → packedField d bs i = packedField d bs' i := by
  refine ⟨fun h _ _ => h ▸ rfl, fun h => eq_of_bytesToBits (hlen.trans hlen'.symm) fun t ht => ?_⟩
  have hi : t / d < 256 := (Nat.div_lt_iff_lt_mul hd).mpr (by omega)
  have hj : t % d < d := Nat.mod_lt t hd
  rw [← Nat.div_add_mod' t d, ← testBit_bitsValue (bytesToBits bs) _ _ _ hj,
    ← testBit_bitsValue (bytesToBits bs') _ _ _ hj]
  exact congrArg (Nat.testBit · (t % d)) (h _ hi)

theorem packedField_bufRegion (s : State) {d i : Nat} (hi : i < 256) :
    packedField d (s.bufRegion (32 * d)) i = ∑ j ∈ Finset.range d, (s.bufBit (i * d + j)).toNat * 2 ^ j := by
  rw [packedField, bitsValue_eq_sum]
  refine Finset.sum_congr rfl fun j hj => ?_
  rw [bytesToBits_bufRegion s (fieldBit_lt hi (Finset.mem_range.mp hj))]

/-! ## ByteEncode and ByteDecode (R161 to R163) -/

theorem encodeLimit_le (d : Nat) : encodeLimit d ≤ 2 ^ d := by
  rw [encodeLimit]
  split_ifs with h
  · subst h; decide
  · exact le_rfl

theorem encodeLimit_of_le {d : Nat} (hd : d ≤ 11) : encodeLimit d = 2 ^ d := if_neg (by omega)

theorem encodeLimit_pos (d : Nat) : 0 < encodeLimit d := by
  rw [encodeLimit]
  split_ifs
  · decide
  · exact Nat.two_pow_pos d

/-- Bit j of field i of an encoded polynomial is bit j of coefficient i. -/
theorem bytesToBits_byteEncode (f : Poly) {d i j : Nat} (hi : i < 256) (hj : j < d) :
    bytesToBits (byteEncode d f) (i * d + j) = (f.coeff i).testBit j := by
  rw [byteEncode, bytesToBits_bitsToBytes _ (fieldBit_lt hi hj), coeffBits, Nat.add_comm,
    Nat.add_mul_div_right _ _ (by omega), Nat.div_eq_of_lt hj, Nat.zero_add, Nat.add_mul_mod_self_right,
    Nat.mod_eq_of_lt hj]

theorem packedField_byteEncode {f : Poly} {d i : Nat} (hi : i < 256) (hf : f.coeff i < encodeLimit d) :
    packedField d (byteEncode d f) i = f.coeff i :=
  bitsValue_eq_of_testBit (hf.trans_le (encodeLimit_le d)) fun _ hj => bytesToBits_byteEncode f hi hj

/-- The one reduction of ByteDecode: modulo the bound of R161, which at d < 12 no field reaches. -/
theorem coeff_byteDecode {d i : Nat} (hd : d ≤ 12) (bs : List Byte) (hi : i < 256) :
    (byteDecode d bs).coeff i = packedField d bs i % encodeLimit d := by
  have hlt := packedField_lt d bs i
  have hpow : 2 ^ d ≤ 2 ^ 12 := Nat.pow_le_pow_right (by decide) hd
  have hval : (if d = 12 then packedField d bs i % Config.q else packedField d bs i)
      = packedField d bs i % encodeLimit d := by
    rw [encodeLimit]
    split_ifs
    · rfl
    · exact (Nat.mod_eq_of_lt hlt).symm
  refine (Poly.coeff_ofFn_of_lt _ hi ?_).trans hval
  exact (hval.trans_le (Nat.mod_le _ _)).trans_lt (hlt.trans_le hpow)

theorem allBelow_byteDecode {d : Nat} (hd : d ≤ 12) (bs : List Byte) :
    (byteDecode d bs).allBelow (encodeLimit d) = true :=
  (Poly.allBelow_iff _ _).mpr fun _ hi => coeff_byteDecode hd bs hi ▸ Nat.mod_lt _ (encodeLimit_pos d)

/-- ByteDecode after ByteEncode (R163, first half): no coefficient below the bound is changed by the reduction. -/
theorem byteDecode_byteEncode {d : Nat} (hd : d ≤ 12) {f : Poly} (hf : f.allBelow (encodeLimit d) = true) :
    byteDecode d (byteEncode d f) = f := by
  refine Poly.ext_coeff fun i hi => ?_
  have hlt := (Poly.allBelow_iff _ _).mp hf i hi
  rw [coeff_byteDecode hd _ hi, packedField_byteEncode hi hlt, Nat.mod_eq_of_lt hlt]

/-- ByteEncode after ByteDecode (R163, second half): each field must be its own residue, hence below the bound. -/
theorem byteEncode_byteDecode_iff {d : Nat} (h1 : 1 ≤ d) (h12 : d ≤ 12) {bs : List Byte} (hlen : bs.length = 32 * d) :
    byteEncode d (byteDecode d bs) = bs ↔ ∀ i, i < 256 → packedField d bs i < encodeLimit d := by
  rw [eq_iff_packedField h1 (length_byteEncode _ _) hlen]
  refine forall₂_congr fun i hi => ?_
  rw [packedField_byteEncode hi ((Poly.allBelow_iff _ _).mp (allBelow_byteDecode h12 bs) i hi),
    coeff_byteDecode h12 _ hi, Nat.mod_eq_iff_lt (encodeLimit_pos d).ne']

/-- Only at d = 12 can a field reach the bound. -/
theorem packedField_lt_encodeLimit_iff {d : Nat} {bs : List Byte} :
    (∀ i, i < 256 → packedField d bs i < encodeLimit d)
      ↔ (d = 12 → ∀ i, i < 256 → packedField d bs i < Config.q) := by
  by_cases hd : d = 12
  · simp [encodeLimit, hd]
  · simp [encodeLimit, hd, packedField_lt]

/-! ## ENCODE and DECODE (R164, R167) -/

theorem codecWidthLegal_of_le {d : BitVec 4} (h1 : 1 ≤ d.toNat) (h12 : d.toNat ≤ 12) : codecWidthLegal d = true := by
  simp [codecWidthLegal, h1, h12]

theorem length_byteEncode_le {d : Nat} (h : d ≤ 12) (f : Poly) : (byteEncode d f).length ≤ Config.bufLen := by
  rw [length_byteEncode, Config.bufLen]
  omega

section codec
variable {s : State} {p : PReg} {d : BitVec 4} (hd : codecWidthLegal d = true)
include hd

theorem exec_encode_of_allBelow (h : (s.getPoly p).allBelow (encodeLimit d.toNat) = true) :
    exec (.encode p d) s = .next (retire (s.storeRegion (byteEncode d.toNat (s.getPoly p)))) :=
  congrArg Host.Outcome.next ((ifLegal_of_wellFormed (i := .encode p d) hd s _).trans (if_pos h))

theorem exec_encode_of_not_allBelow (h : (s.getPoly p).allBelow (encodeLimit d.toNat) ≠ true) :
    exec (.encode p d) s = .next (errorEntry .invalidCoefficient (encode (.encode p d)) s) :=
  congrArg Host.Outcome.next ((ifLegal_of_wellFormed (i := .encode p d) hd s _).trans (if_neg h))

theorem exec_decode :
    exec (.decode p d) s = .next (retire (s.setPoly p (byteDecode d.toNat (s.bufRegion (32 * d.toNat))))) :=
  congrArg Host.Outcome.next (ifLegal_of_wellFormed (i := .decode p d) hd s _)

/-- ENCODE of a polynomial just written (R168). -/
theorem exec_encode_of_written {f : Poly} (hf : f.allBelow (encodeLimit d.toNat) = true) :
    exec (.encode p d) (retire (s.setPoly p f))
      = .next (retire ((retire (s.setPoly p f)).storeRegion (byteEncode d.toNat f))) := by
  rw [exec_encode_of_allBelow hd (by simpa using hf), getPoly_retire, getPoly_setPoly_same]

/-- DECODE where ENCODE has just stored a polynomial gives that polynomial (R163). -/
theorem exec_decode_of_encoded (hs : s.buf.wf = true) {f : Poly} (hf : f.allBelow (encodeLimit d.toNat) = true) :
    exec (.decode p d) (retire (s.storeRegion (byteEncode d.toNat f)))
      = .next (retire ((retire (s.storeRegion (byteEncode d.toNat f))).setPoly p f)) := by
  have hread := bufRegion_storeRegion hs (length_byteEncode_le (codecWidth_le hd) f)
  rw [length_byteEncode] at hread
  rw [exec_decode hd, bufRegion_retire, hread, byteDecode_byteEncode (codecWidth_le hd) hf]

end codec

/-- Settles O31: below the bound the stored bytes carry the bits of the coefficients, and one coefficient at the bound
fails the check. -/
theorem encodeWritesThePackedBits : Obligations.EncodeWritesThePackedBits := by
  intro s pa d hs h1 h12
  have hd := codecWidthLegal_of_le h1 h12
  have hlen := length_byteEncode_le h12 (s.getPoly pa)
  refine ⟨encodes_of_wellFormed rfl hd, fun hf => ?_, fun ⟨i, hi, hf⟩ => ?_⟩
  · refine ⟨_, exec_encode_of_allBelow hd ((Poly.allBelow_iff _ _).mpr hf), fun i j hi hj => ?_, fun a ha => ?_,
      fun _ => rfl, fun _ => rfl, retired_retire s _ _ _⟩
    · have hbit := fieldBit_lt hi hj
      exact (bufBit_storeRegion hs hlen (by rwa [length_byteEncode])).trans (bytesToBits_byteEncode _ hi hj)
    · rw [loadByte_retire, loadByte_storeRegion hs _ hlen, if_neg (by rw [length_byteEncode]; omega)]
  · exact failsWith_of (exec_encode_of_not_allBelow hd fun h =>
      Nat.not_lt.mpr hf ((Poly.allBelow_iff _ _).mp h i hi))

/-- Settles O32: the reduction modulo the bound of R161 shows at d = 12 only. -/
theorem decodeReadsThePackedBits : Obligations.DecodeReadsThePackedBits := by
  intro s pd d h1 h12
  have hd := codecWidthLegal_of_le h1 h12
  refine ⟨encodes_of_wellFormed rfl hd, writesPoly_of (exec_decode hd) fun i hi => ?_⟩
  rw [coeff_byteDecode h12 _ hi, ← packedField_bufRegion s hi, encodeLimit]
  dsimp only
  split_ifs
  · rfl
  · exact Nat.mod_eq_of_lt (packedField_lt _ _ _)

/-- Settles O33: DECODE reads the bytes that ENCODE has stored, and these decode to the polynomial. -/
theorem decodeAfterEncodeIsTheIdentity : Obligations.DecodeAfterEncodeIsTheIdentity := by
  intro s pa pd d hs h1 h12 hf
  have hd := codecWidthLegal_of_le h1 h12
  have hbelow := (Poly.allBelow_iff _ _).mpr hf
  exact ⟨_, _, exec_encode_of_allBelow hd hbelow, exec_decode_of_encoded hd hs hbelow, getPoly_setPoly_same ..⟩

/-- Settles O34: BUF stays when the decoded bytes encode to themselves, hence when no field reaches the bound. -/
theorem encodeAfterDecodeIsTheModulusCheck : Obligations.EncodeAfterDecodeIsTheModulusCheck := by
  intro s pd d hs h1 h12
  have hd := codecWidthLegal_of_le h1 h12
  obtain ⟨bs, hbs⟩ : ∃ bs, bs = s.bufRegion (32 * d.toNat) := ⟨_, rfl⟩
  have hlen := length_byteEncode_le h12 (byteDecode d.toNat bs)
  refine ⟨_, _, hbs ▸ exec_decode hd, exec_encode_of_written hd (allBelow_byteDecode h12 bs),
    retired_retire _ _ _ _, ?_⟩
  calc SameBuf s (s.storeRegion (byteEncode d.toNat (byteDecode d.toNat bs)))
    _ ↔ byteEncode d.toNat (byteDecode d.toNat bs) = bs := by
      rw [sameBuf_storeRegion_iff hs hlen, length_byteEncode, hbs]
    _ ↔ ∀ i, i < 256 → packedField d.toNat bs i < encodeLimit d.toNat :=
      byteEncode_byteDecode_iff h1 h12 (by simp [hbs, bufRegion_eq_map])
    _ ↔ (d.toNat = 12 → ∀ k, k < 256 → packedField d.toNat bs k < Config.q) := packedField_lt_encodeLimit_iff
    _ ↔ _ := by
      refine forall_congr' fun h => forall₂_congr fun k hk => ?_
      rw [hbs, packedField_bufRegion s hk, h, Nat.mul_comm k]

end Sys2Proof.Machine

namespace Sys2Proof.Machine

/-! ## Compress and Decompress as functions (R170 to R177) -/

/-- Rounding a / b to the nearest integer, ties upward, is one integer division (R179). -/
theorem toNat_floor_div_add_half (a : Nat) {b : Nat} (hb : 0 < b) :
    ⌊(a : ℚ) / b + 1 / 2⌋.toNat = (2 * a + b) / (2 * b) := by
  have hb' : (b : ℚ) ≠ 0 := by exact_mod_cast hb.ne'
  have hquot : (a : ℚ) / b + 1 / 2 = ((2 * a + b : Nat) : ℚ) / ((2 * b : Nat) : ℚ) := by
    push_cast
    field_simp
  rw [hquot, Int.floor_toNat, Rat.natFloor_natCast_div_natCast]

theorem compressCoeff_eq_floor (d x : Nat) :
    compressCoeff d x = ⌊(x : ℚ) * 2 ^ d / 3329 + 1 / 2⌋.toNat % 2 ^ d := by
  have hround := toNat_floor_div_add_half (x * 2 ^ d) (b := Config.q) (by decide)
  rw [← Nat.mul_assoc] at hround
  rw [compressCoeff, ← hround]
  norm_num [Config.q]

theorem decompressCoeff_eq_floor {d : Nat} (hd : 1 ≤ d) (y : Nat) :
    decompressCoeff d y = ⌊(y : ℚ) * 3329 / 2 ^ d + 1 / 2⌋.toNat := by
  have hround := toNat_floor_div_add_half (y * Config.q) (Nat.two_pow_pos d)
  have hhalf : 2 * (y * Config.q) + 2 ^ d = 2 * (y * Config.q + 2 ^ (d - 1)) := by
    rw [Nat.mul_add, mul_pow_sub_one (by omega)]
  rw [hhalf, Nat.mul_div_mul_left _ _ (by decide)] at hround
  rw [decompressCoeff, ← hround]
  norm_num [Config.q]

theorem compressCoeff_lt_two_pow (d x : Nat) : compressCoeff d x < 2 ^ d := Nat.mod_lt _ (Nat.two_pow_pos d)

/-- Decompress takes a wrap of Compress, by a multiple of 2^d, to that multiple of q. -/
theorem decompressCoeff_mod_add (d c : Nat) :
    decompressCoeff d (c % 2 ^ d) + Config.q * (c / 2 ^ d) = decompressCoeff d c := by
  rw [decompressCoeff, decompressCoeff, ← Nat.add_mul_div_left _ _ (Nat.two_pow_pos d)]
  refine congrArg (· / 2 ^ d) ?_
  calc c % 2 ^ d * Config.q + 2 ^ (d - 1) + 2 ^ d * (Config.q * (c / 2 ^ d))
    _ = (2 ^ d * (c / 2 ^ d) + c % 2 ^ d) * Config.q + 2 ^ (d - 1) := by ring
    _ = c * Config.q + 2 ^ (d - 1) := by rw [Nat.div_add_mod]

/-- The bound of R177 before the wrap. q is odd, so rounding x · 2^d / q errs by at most 1664 / q; rounding back errs by
at most 1 / 2. -/
theorem natAbs_decompress_sub_le {d x c : Nat} (hd : 1 ≤ d) (hc : c = (2 * x * 2 ^ d + Config.q) / (2 * Config.q)) :
    ((decompressCoeff d c : Int) - x).natAbs ≤ (1664 + 2 ^ (d - 1)) / 2 ^ d := by
  obtain ⟨y, hy⟩ : ∃ y, y = decompressCoeff d c := ⟨_, rfl⟩
  have hhalf : 2 * 2 ^ (d - 1) = 2 ^ d := mul_pow_sub_one (by omega) 2
  have hcompress : c * Config.q ≤ x * 2 ^ d + 1664 ∧ x * 2 ^ d ≤ c * Config.q + 1664 := by
    rw [Nat.mul_assoc] at hc
    simp only [Config.q] at hc ⊢
    omega
  have hdecompress : y * 2 ^ d ≤ c * Config.q + 2 ^ (d - 1) ∧ c * Config.q + 2 ^ (d - 1) < y * 2 ^ d + 2 ^ d := by
    rw [hy, decompressCoeff]
    exact ⟨Nat.div_mul_le_self _ _, Nat.lt_div_mul_add (Nat.two_pow_pos d)⟩
  rw [← hy, Nat.le_div_iff_mul_le (Nat.two_pow_pos d)]
  calc ((y : Int) - x).natAbs * 2 ^ d
    _ = (((y * 2 ^ d : Nat) : Int) - (x * 2 ^ d : Nat)).natAbs := by
      rw [Nat.cast_mul, Nat.cast_mul, ← Int.sub_mul, Int.natAbs_mul, Int.natAbs_natCast]
    _ ≤ 1664 + 2 ^ (d - 1) := by omega

/-- The centred residue modulo q (`mod±` of R177). -/
def centred (n : Int) : Int := (n + 1664) % 3329 - 1664

theorem natAbs_centred_le (n : Int) : (centred n).natAbs ≤ n.natAbs := by
  rw [centred]
  omega

theorem centred_add_mul (n k : Int) : centred (n + 3329 * k) = centred n := by
  rw [centred, centred]
  omega

/-- The compression error of x as a centred residue (R177). -/
def compressionError (d x : Nat) : Nat := (centred ((decompressCoeff d (compressCoeff d x) : Int) - x)).natAbs

/-- The compression error for any width and any x: ⌊1664 / 2^d + 1/2⌋. -/
theorem compressionError_le {d : Nat} (hd : 1 ≤ d) (x : Nat) :
    compressionError d x ≤ (1664 + 2 ^ (d - 1)) / 2 ^ d := by
  obtain ⟨c, hc⟩ : ∃ c, c = (2 * x * 2 ^ d + Config.q) / (2 * Config.q) := ⟨_, rfl⟩
  have hwrap : (decompressCoeff d c : Int) - x
      = (decompressCoeff d (compressCoeff d x) - x) + 3329 * ((c / 2 ^ d : Nat) : Int) := by
    rw [← decompressCoeff_mod_add d c, compressCoeff, ← hc, Config.q]
    push_cast
    ring
  calc compressionError d x
    _ = (centred ((decompressCoeff d c : Int) - x)).natAbs := by rw [hwrap, centred_add_mul, compressionError]
    _ ≤ ((decompressCoeff d c : Int) - x).natAbs := natAbs_centred_le _
    _ ≤ (1664 + 2 ^ (d - 1)) / 2 ^ d := natAbs_decompress_sub_le hd hc

/-- Where the error is largest: 1665 is the inverse of 2 modulo q, so x · 2^d is 1665 modulo q, half way between two
multiples of q. -/
def worstCoeff (d : Nat) : Nat := 1665 ^ (d + 1) % 3329

/-- The widths of COMPRESS with the maxima of R177. -/
def errorTable : List (Nat × Nat) :=
  [(1, 832), (2, 416), (3, 208), (4, 104), (5, 52), (6, 26), (7, 13), (8, 7), (9, 3), (10, 2), (11, 1)]

/-- Each maximum is the rounded 1664 / 2^d, its worst coefficient attains it, and the ceiling of R177 is as near as said. -/
theorem errorTable_spec : ∀ p ∈ errorTable,
    1 ≤ p.1 ∧ p.2 = (1664 + 2 ^ (p.1 - 1)) / 2 ^ p.1 ∧ compressionError p.1 (worstCoeff p.1) = p.2
      ∧ p.2 ≤ (3329 + 2 ^ (p.1 + 1) - 1) / 2 ^ (p.1 + 1)
      ∧ (p.2 + 1 = (3329 + 2 ^ (p.1 + 1) - 1) / 2 ^ (p.1 + 1) ↔ p.1 ≤ 7 ∨ p.1 = 9) := by
  decide

/-- Settles O37: the bound holds for every width, and the table is its eleven values. -/
theorem compressionErrorIsBounded : Obligations.CompressionErrorIsBounded := by
  intro d bound hmem
  obtain ⟨hd, hbound, hworst, hceil, hloose⟩ := errorTable_spec (d, bound) hmem
  exact ⟨fun x _ => (compressionError_le hd x).trans_eq hbound.symm,
    ⟨worstCoeff d, Nat.mod_lt _ (by decide), hworst⟩, hceil, hloose⟩

/-! ## COMPRESS and DECOMPRESS (R173, R176) -/

theorem compressWidthLegal_of_le {d : BitVec 4} (h1 : 1 ≤ d.toNat) (h11 : d.toNat ≤ 11) :
    compressWidthLegal d = true := by
  simp [compressWidthLegal, h1, h11]

/-- Compress_d of each coefficient: what COMPRESS writes. -/
def compressPoly (d : Nat) (f : Poly) : Poly := Poly.ofFn fun j => compressCoeff d (f.coeff j)

/-- Decompress_d of each coefficient: what DECOMPRESS writes. -/
def decompressPoly (d : Nat) (f : Poly) : Poly := Poly.ofFn fun j => decompressCoeff d (f.coeff j)

theorem coeff_compressPoly {d : Nat} (hd : d ≤ 11) (f : Poly) {j : Nat} (hj : j < 256) :
    (compressPoly d f).coeff j = compressCoeff d (f.coeff j) :=
  coeff_ofFn_residue _ hj (compressCoeff_lt hd _)

theorem coeff_decompressPoly {d : Nat} (hd : d ≤ 11) {f : Poly} {j : Nat} (hj : j < 256) (hf : f.coeff j < 2 ^ d) :
    (decompressPoly d f).coeff j = decompressCoeff d (f.coeff j) :=
  coeff_ofFn_residue _ hj (decompressCoeff_lt hd hf)

theorem allBelow_compressPoly {d : Nat} (hd : d ≤ 11) (f : Poly) : (compressPoly d f).allBelow (2 ^ d) = true :=
  (Poly.allBelow_iff _ _).mpr fun _ hj => coeff_compressPoly hd f hj ▸ compressCoeff_lt_two_pow d _

section compression
variable {s : State} {pd pa : PReg} {d : BitVec 4} (hd : compressWidthLegal d = true)
include hd

theorem exec_compress :
    exec (.compress pd pa d) s = .next (retire (s.setPoly pd (compressPoly d.toNat (s.getPoly pa)))) :=
  congrArg Host.Outcome.next (ifLegal_of_wellFormed (i := .compress pd pa d) hd s _)

theorem exec_decompress_of_allBelow (h : (s.getPoly pa).allBelow (2 ^ d.toNat) = true) :
    exec (.decompress pd pa d) s = .next (retire (s.setPoly pd (decompressPoly d.toNat (s.getPoly pa)))) :=
  congrArg Host.Outcome.next ((ifLegal_of_wellFormed (i := .decompress pd pa d) hd s _).trans (if_pos h))

theorem exec_decompress_of_not_allBelow (h : (s.getPoly pa).allBelow (2 ^ d.toNat) ≠ true) :
    exec (.decompress pd pa d) s = .next (errorEntry .operandRange (encode (.decompress pd pa d)) s) :=
  congrArg Host.Outcome.next ((ifLegal_of_wellFormed (i := .decompress pd pa d) hd s _).trans (if_neg h))

end compression

/-- Settles O35: the integer form of R171 is the rational rounding of R170. -/
theorem compressRoundsToNearest : Obligations.CompressRoundsToNearest := by
  intro s pd pa d h1 h11
  have hd := compressWidthLegal_of_le h1 h11
  refine ⟨encodes_of_wellFormed rfl hd, writesPoly_of (exec_compress hd) fun j hj => ?_⟩
  rw [coeff_compressPoly h11 _ hj, compressCoeff_eq_floor]

/-- Settles O36: the integer form of R175 is the rational rounding, on either side of the check of all 256. -/
theorem decompressRoundsToNearest : Obligations.DecompressRoundsToNearest := by
  intro s pd pa d h1 h11
  have hd := compressWidthLegal_of_le h1 h11
  refine ⟨encodes_of_wellFormed rfl hd, fun hf => ?_, fun ⟨i, hi, hf⟩ => ?_⟩
  · refine writesPoly_of (exec_decompress_of_allBelow hd ((Poly.allBelow_iff _ _).mpr hf)) fun j hj => ?_
    rw [coeff_decompressPoly h11 hj (hf j hj), decompressCoeff_eq_floor h1]
  · exact failsWith_of (exec_decompress_of_not_allBelow hd fun h =>
      Nat.not_lt.mpr hf ((Poly.allBelow_iff _ _).mp h i hi))

/-- Settles O38: the compressed polynomial passes the check of ENCODE, comes back from DECODE (R163), and so passes the
check of DECOMPRESS. -/
theorem compressedPolynomialsAlwaysEncode : Obligations.CompressedPolynomialsAlwaysEncode := by
  intro s pa pb pc pd d hs h1 h11
  have hcodec := codecWidthLegal_of_le h1 (h11.trans (by decide))
  have hcompress := compressWidthLegal_of_le h1 h11
  obtain ⟨f, hf⟩ : ∃ f, f = compressPoly d.toNat (s.getPoly pa) := ⟨_, rfl⟩
  have hbelow : f.allBelow (2 ^ d.toNat) = true := hf ▸ allBelow_compressPoly h11 _
  have hlimit : f.allBelow (encodeLimit d.toNat) = true := by rwa [encodeLimit_of_le h11]
  refine ⟨_, _, _, _, hf ▸ exec_compress hcompress, exec_encode_of_written hcodec hlimit,
    exec_decode_of_encoded (s := retire (s.setPoly pb f)) hcodec hs hlimit,
    exec_decompress_of_allBelow hcompress (by simpa using hbelow), rfl, ?_, rfl, fun j hj => ?_⟩
  · simp [BitVec.add_assoc]
  · have hj' := (Poly.allBelow_iff _ _).mp hbelow j hj
    simp only [getPoly_retire, getPoly_setPoly_same]
    rw [coeff_decompressPoly h11 hj hj', hf, coeff_compressPoly h11 _ hj]

end Sys2Proof.Machine

namespace Sys2Proof.Machine

/-! # Proofs about sampling (42_sampling.md)

## SamplePolyCBD (R195) -/

/-- Bit t of a byte stream, each byte least significant bit first (R9). -/
def streamBit (stream : Nat → Byte) (t : Nat) : Bool := (stream (t / 8)).getLsbD (t % 8)

theorem bytesToBits_map_range (stream : Nat → Byte) {n t : Nat} (h : t < 8 * n) :
    bytesToBits ((List.range n).map stream) t = streamBit stream t := by
  have ht : t / 8 < n := by omega
  simp [bytesToBits, streamBit, ht]

theorem bitCount_eq_sum (b : Nat → Bool) (o n : Nat) : bitCount b o n = ∑ j ∈ Finset.range n, (b (o + j)).toNat := by
  induction n with
  | zero => rfl
  | succ n ih => rw [bitCount, Finset.sum_range_succ, ih]

theorem bitCount_congr {b b' : Nat → Bool} {o n : Nat} (h : ∀ t, t < o + n → b t = b' t) :
    bitCount b o n = bitCount b' o n := by
  rw [bitCount_eq_sum, bitCount_eq_sum]
  exact Finset.sum_congr rfl fun j hj => by rw [h _ (Nat.add_lt_add_left (Finset.mem_range.mp hj) o)]

/-- The coefficient of R195, with its two sums as they stand there. -/
theorem cbdCoeff_eq_sum (eta : Nat) (b : Nat → Bool) (i : Nat) :
    cbdCoeff eta b i = (((∑ j ∈ Finset.range eta, (b (2 * i * eta + j)).toNat : Int)
      - ∑ j ∈ Finset.range eta, (b (2 * i * eta + eta + j)).toNat) % 3329).toNat := by
  rw [cbdCoeff, subMod_eq_toNat_emod, bitCount_eq_sum, bitCount_eq_sum]
  push_cast
  rfl

/-- Coefficient i of the sample looks at the bits from 2iη to 2(i + 1)η, which lie in the 64η bytes taken. -/
theorem coeff_samplePolyCbd (eta : Nat) (stream : Nat → Byte) {i : Nat} (hi : i < 256) :
    (samplePolyCbd eta ((List.range (64 * eta)).map stream)).coeff i = cbdCoeff eta (streamBit stream) i := by
  have hlast : 2 * i * eta + eta + eta ≤ 8 * (64 * eta) :=
    calc 2 * i * eta + eta + eta
      _ = 2 * (i + 1) * eta := by ring
      _ ≤ 2 * 256 * eta := Nat.mul_le_mul_right _ (by omega)
      _ = 8 * (64 * eta) := by ring
  have hbits : ∀ t, t < 2 * i * eta + eta + eta →
      bytesToBits ((List.range (64 * eta)).map stream) t = streamBit stream t :=
    fun t ht => bytesToBits_map_range stream (ht.trans_le hlast)
  calc (samplePolyCbd eta ((List.range (64 * eta)).map stream)).coeff i
    _ = cbdCoeff eta (bytesToBits ((List.range (64 * eta)).map stream)) i := coeff_ofFn_residue _ hi (subMod_lt _ _)
    _ = cbdCoeff eta (streamBit stream) i := by
      rw [cbdCoeff, cbdCoeff, bitCount_congr hbits, bitCount_congr fun t ht => hbits t (by omega)]

theorem etaLegal_of_eq {eta : BitVec 4} (h : eta.toNat = 2 ∨ eta.toNat = 3) : etaLegal eta = true := by
  simpa [etaLegal] using h

theorem exec_cbd (s : State) (pd : PReg) {eta : BitVec 4} (h : etaLegal eta = true) :
    exec (.cbd pd eta) s
      = .next (retire (s.setPoly pd (samplePolyCbd eta.toNat ((List.range (64 * eta.toNat)).map s.loadByte)))) :=
  bufRegion_eq_map s _ ▸ congrArg Host.Outcome.next (ifLegal_of_wellFormed (i := .cbd pd eta) h s _)

/-- Settles O39: the stream sampled is BUF itself. -/
theorem binomialSamplingOfBufferBits : Obligations.BinomialSamplingOfBufferBits := by
  intro s pd eta heta
  have hlegal := etaLegal_of_eq heta
  exact ⟨encodes_of_wellFormed rfl hlegal, writesPoly_of (exec_cbd s pd hlegal) fun i hi =>
    (coeff_samplePolyCbd _ _ hi).trans (cbdCoeff_eq_sum _ s.bufBit i)⟩

/-! ## A command on the XOF port, with enough bytes and with too few (R45, R193, R198) -/

/-- Pulls that may reach a count that is enough stop there or before, and with enough. -/
theorem pullUntil_of_reached {done : Nat → Bool} {n m pace : Nat} (hm : done m = true) (hlo : n ≤ m)
    (hhi : m ≤ n + pace) : done (pullUntil done pace n) = true ∧ pullUntil done pace n ≤ m := by
  have hle : pullUntil done pace n ≤ m := by
    by_contra hlt
    have hm' := not_done_below_pullUntil done pace n hlo (by omega)
    rw [hm] at hm'
    cases hm'
  refine ⟨?_, hle⟩
  rcases pullUntil_done_or done pace n with h | h
  · exact h
  · rwa [show pullUntil done pace n = m by omega]

/-- What retiring with a polynomial leaves unchanged. -/
theorem frame_retire_setPoly (s : State) (pd : PReg) (f : Poly) :
    SamePolysBut pd s (retire (s.setPoly pd f)) ∧ SameScalars s (retire (s.setPoly pd f))
      ∧ SameBuf s (retire (s.setPoly pd f)) ∧ Retired s (retire (s.setPoly pd f)) :=
  ⟨fun _ hr => getPoly_setPoly_of_ne s f hr, fun _ => rfl, fun _ => rfl, retired_retire s _ _ _⟩

section xofCommand
variable {X : Xof} {i : Instr} {mode : XofMode} {len : Nat} {done : (Nat → Byte) → Nat → Bool}
  {result : (Nat → Byte) → Nat → Poly} {pd : PReg} {s : State}

/-- With no session open and m bytes enough and delivered, the command pulls at most m and retires. -/
theorem xofCommand_of_reached {m : Nat} (hx : s.xof = none)
    (hm : done (X mode ((List.range len).map s.loadByte)) m = true) (hpace : m ≤ s.xofPace) :
    ∃ n, n ≤ m ∧ done (X mode ((List.range len).map s.loadByte)) n = true
      ∧ xofCommand X i mode len done result pd s
        = retire (s.setPoly pd (result (X mode ((List.range len).map s.loadByte)) n)) := by
  rw [← bufRegion_eq_map] at hm ⊢
  obtain ⟨hdone, hle⟩ := pullUntil_of_reached hm (Nat.zero_le m) (by omega : m ≤ 0 + s.xofPace)
  exact ⟨_, hle, hdone, (xofCommand_eq (sessionOf_none hx mode len)).trans (if_pos hdone)⟩

/-- With no count enough that the core may reach in this step, the command takes all it delivers and waits. -/
theorem xofCommand_of_lacking {x : XofSession} (hx : sessionOf mode len s = x)
    (hlack : ∀ k, k ≤ x.pulled + s.xofPace → done (X x.mode x.msg) k = false) :
    xofCommand X i mode len done result pd s
      = { s with seq := .exec (encode i), xof := some { x with pulled := x.pulled + s.xofPace } } := by
  have hall : pullUntil (done (X x.mode x.msg)) s.xofPace x.pulled = x.pulled + s.xofPace := by
    refine (pullUntil_done_or _ _ _).resolve_left fun h => ?_
    rw [hlack _ (pullUntil_bounds _ _ _).2] at h
    cases h
  rw [xofCommand_eq hx, hall, if_neg (by simp [hlack _ (Nat.le_refl _)])]

/-- A command that opens its session and lacks bytes waits with all that the core delivers. -/
theorem waits_xofCommand (hx : s.xof = none)
    (hlack : ∀ k, k ≤ s.xofPace → done (X mode ((List.range len).map s.loadByte)) k = false) :
    Waits (encode i) mode ((List.range len).map s.loadByte) s.xofPace s
      (xofCommand X i mode len done result pd s) := by
  rw [← bufRegion_eq_map] at hlack ⊢
  rw [xofCommand_of_lacking (sessionOf_none hx mode len) (by simpa using hlack), Nat.zero_add]
  exact waits_exec (encode i) ⟨mode, s.bufRegion len, s.xofPace⟩ s

/-- On a stream that is never enough the command is, after any number of turns, where the bytes of all of them bring it. -/
theorem iterate_xofCommand (hx : s.xof = none)
    (hpoor : ∀ k, done (X mode ((List.range len).map s.loadByte)) k = false) (n : Nat) :
    (xofCommand X i mode len done result pd)^[n + 1] s = { s with
      seq := .exec (encode i)
      xof := some ⟨mode, (List.range len).map s.loadByte, (n + 1) * s.xofPace⟩ } := by
  induction n with
  | zero =>
    rw [← bufRegion_eq_map] at hpoor ⊢
    rw [Function.iterate_one, xofCommand_of_lacking (sessionOf_none hx mode len) fun k _ => hpoor k]
    simp
  | succ n ih =>
    rw [Function.iterate_succ_apply', ih, xofCommand_of_lacking (sessionOf_some rfl mode len) fun k _ => hpoor k]
    simp [Nat.succ_mul]

end xofCommand

/-! ## PRFCBD (R197, R198) -/

theorem prfcbdWith_of_etaLegal {eta : BitVec 4} (h : etaLegal eta = true) (X : Xof) (pd : PReg) (s : State) :
    prfcbdWith X pd eta s
      = xofCommand X (.prfcbd pd eta) .shake256 33 (prfDone eta.toNat) (prfCbdPoly eta.toNat) pd s :=
  ifLegal_of_wellFormed (i := .prfcbd pd eta) h s _

theorem prfDone_enough (eta : Nat) (stream : Nat → Byte) : prfDone eta stream (64 * eta) = true :=
  decide_eq_true (Nat.le_refl _)

theorem prfDone_eq_false {eta n : Nat} (h : n < 64 * eta) (stream : Nat → Byte) : prfDone eta stream n = false :=
  decide_eq_false (Nat.not_le.mpr h)

/-- Settles O40: the count that is enough is 64η, and what is written does not depend on where the pulls stop. -/
theorem prfSamplingPullsSixtyFourEtaBytes : Obligations.PrfSamplingPullsSixtyFourEtaBytes := by
  intro X s pd eta heta hx
  have hlegal := etaLegal_of_eq heta
  refine ⟨rfl, encodes_of_wellFormed rfl hlegal, fun hpace => ?_, fun hpace => ?_⟩
  · obtain ⟨n, -, -, ht⟩ := xofCommand_of_reached (i := .prfcbd pd eta) (result := prfCbdPoly eta.toNat) (pd := pd)
      hx (prfDone_enough eta.toNat (X .shake256 _)) hpace
    dsimp only
    rw [prfcbdWith_of_etaLegal hlegal, ht]
    refine ⟨fun i hi => ?_, frame_retire_setPoly s pd _⟩
    rw [getPoly_retire, getPoly_setPoly_same]
    exact (coeff_samplePolyCbd _ _ hi).trans (cbdCoeff_eq_sum _ (streamBit _) i)
  · rw [prfcbdWith_of_etaLegal hlegal]
    exact waits_xofCommand hx fun k hk => prfDone_eq_false (hk.trans_lt hpace) _

/-! ## SAMPLENTT (R190, R191, R192) -/

theorem candidates_eq (c0 c1 c2 : Byte) : candidates c0 c1 c2
    = (if c0.toNat + 256 * (c1.toNat % 16) < 3329 then [c0.toNat + 256 * (c1.toNat % 16)] else [])
      ++ (if c1.toNat / 16 + 16 * c2.toNat < 3329 then [c1.toNat / 16 + 16 * c2.toNat] else []) := by
  have hsingle : ∀ d : Nat, [d].filter (fun d => decide (d < Config.q)) = if d < 3329 then [d] else [] := fun d => by
    simp [List.filter_singleton]
  rw [← hsingle, ← hsingle, ← List.filter_append]
  rfl

/-- A count is enough when it makes whole blocks that hold 256 accepted values (R190). -/
theorem sampleNttDone_iff {stream : Nat → Byte} {n : Nat} :
    sampleNttDone stream n = true ↔ n % 3 = 0 ∧ 256 ≤ (accepted stream (n / 3)).length := by
  simp [sampleNttDone]

theorem sampleNttDone_blocks {stream : Nat → Byte} {k : Nat} (h : 256 ≤ (accepted stream k).length) :
    sampleNttDone stream (3 * k) = true :=
  sampleNttDone_iff.mpr ⟨Nat.mul_mod_right 3 k, by rwa [Nat.mul_div_cancel_left k (by decide)]⟩

theorem sampleNttDone_eq_false {stream : Nat → Byte} {n : Nat}
    (h : ∀ m, 3 * m ≤ n → (accepted stream m).length < 256) : sampleNttDone stream n = false :=
  Bool.eq_false_iff.mpr fun hdone =>
    Nat.not_le.mpr (h (n / 3) (Nat.mul_div_le n 3)) (sampleNttDone_iff.mp hdone).2

/-- The polynomial sampled is the first 256 accepted values of any number of blocks that reaches as far. -/
theorem accepted_getElem?_eq_coeff {stream : Nat → Byte} {n k j : Nat} (hn : sampleNttDone stream n = true)
    (hk : n ≤ 3 * k) (hj : j < 256) : (accepted stream k)[j]? = some ((sampleNttPoly stream n).coeff j) := by
  have hj' : j < (accepted stream (n / 3)).length := hj.trans_le (sampleNttDone_iff.mp hn).2
  have hget : (accepted stream (n / 3)).getD j 0 = (accepted stream (n / 3))[j] := List.getD_eq_getElem _ _ hj'
  have hcoeff : (sampleNttPoly stream n).coeff j = (accepted stream (n / 3))[j] :=
    (coeff_ofFn_residue _ hj (hget ▸ accepted_lt stream _ _ (List.getElem_mem hj'))).trans hget
  rw [hcoeff]
  exact List.prefix_iff_getElem?.mp (accepted_prefix stream (by omega)) j hj'

/-- Settles O41: the pulls stop at the first blocks that are enough, and later blocks only add behind them. -/
theorem rejectionSamplingWritesTheAccepted : Obligations.RejectionSamplingWritesTheAccepted := by
  intro X s pd k hx
  refine ⟨rfl, encodes_of_wellFormed rfl rfl, fun stream => ⟨rfl, fun m => ?_⟩, fun hlen hpace => ?_, fun hpoor => ?_⟩
  · exact congrArg (accepted stream m ++ ·) (candidates_eq _ _ _)
  · obtain ⟨n, hn, hdone, ht⟩ := xofCommand_of_reached (i := .samplentt pd) (result := sampleNttPoly) (pd := pd) hx
      (sampleNttDone_blocks hlen) hpace
    rw [samplenttWith, ht]
    refine ⟨fun j hj => ?_, frame_retire_setPoly s pd _⟩
    rw [getPoly_retire, getPoly_setPoly_same]
    exact accepted_getElem?_eq_coeff hdone hn hj
  · exact waits_xofCommand hx fun n hn => sampleNttDone_eq_false fun m hm => hpoor m (hm.trans hn)

/-! ## The hang of R193 and R322 -/

/-- A write of a scalar that is not held finds no command in execution (R41). -/
theorem busy_of_scal_ready {s : State} {a : BitVec 10} {v : Word} {i : SReg} (hi : hostReg a = .scal i)
    (h : hostReady (.write a v) s = true) : s.busy = false := by
  simpa [hostReady, hi] using h

/-- With a command in execution the host port can reset the block, push a word, or write IEN, and no more. -/
theorem hostStep_of_exec {s : State} {w : Word} (hs : s.seq = .exec w) :
    (∃ v rest, s.hostReqs = .write 2#10 v :: rest ∧ v.getLsbD 1 = true)
      ∨ ∃ q ie reqs r, hostStep s = { s with cmdq := q, ien := ie, hostReqs := reqs, hostReply := r }
        ∧ (q = s.cmdq ∨ ∃ v, q = s.cmdq ++ [v]) := by
  rcases hostStep_cases s with h | h | ⟨req, rest, hreq, hr, ⟨a, rfl, r, h⟩ | ⟨a, v, rfl, r, h⟩⟩ <;> rw [h]
  · exact .inr ⟨_, _, _, _, rfl, .inl rfl⟩
  · exact .inr ⟨_, _, _, _, rfl, .inl rfl⟩
  · exact .inr ⟨_, _, _, _, rfl, .inl rfl⟩
  · rcases hostWrite_effect a v { s with hostReqs := rest } with
      ⟨-, hw⟩ | ⟨rfl, h1, -⟩ | ⟨-, -, hw⟩ | ⟨i, hi, -⟩ | ⟨b, hb, -⟩ | ⟨ie, hw⟩
    · exact .inr ⟨_, _, _, _, by rw [hw], .inr ⟨v, rfl⟩⟩
    · exact .inl ⟨v, rest, hreq, h1⟩
    · have hclear : clearError { s with hostReqs := rest } = { s with hostReqs := rest } := by simp [clearError, hs]
      exact .inr ⟨_, _, _, _, by rw [hw, hclear], .inl rfl⟩
    · exact absurd hs (not_busy_of_exec (busy_of_scal_ready hi hr))
    · exact absurd hs (not_busy_of_exec (busy_of_bufw_ready hb hr))
    · exact .inr ⟨_, _, _, _, by rw [hw], .inl rfl⟩

/-- A step that touches only the tail of the queue, IEN and what stands outside the block leaves the command waiting. -/
theorem hangsOn_outside {mode : XofMode} {len : Nat} {s : State} {q : List Word} {ie : BitVec 2} {ts : List Turn}
    {reqs : List HostReq} {r : HostReply} {n : Nat} (hq : q = s.cmdq ∨ ∃ w, q = s.cmdq ++ [w])
    (hn : n = s.xofPace ∨ (nextTurn s).1 = .xofPace n) :
    HangsOn mode len s
      { s with cmdq := q, ien := ie, turns := ts, hostReqs := reqs, hostReply := r, xofPace := n } :=
  ⟨rfl, fun _ => rfl, fun _ => rfl, fun _ => rfl, rfl, rfl, rfl, rfl, rfl, rfl, Nat.le_refl _, Nat.le_add_right _ _,
    hq, hn⟩

/-- The command's own turn leaves it waiting on its session, with what the core delivered pulled. -/
theorem hangsOn_pulled {mode : XofMode} {len : Nat} {s : State} {w : Word} {ts : List Turn}
    (hs : s.seq = .exec w) : HangsOn mode len s { s with
      turns := ts
      seq := .exec w
      xof := some { sessionOf mode len s with pulled := (sessionOf mode len s).pulled + s.xofPace } } :=
  ⟨hs.symm, fun _ => rfl, fun _ => rfl, fun _ => rfl, rfl, rfl, rfl, rfl, rfl, rfl, Nat.le_add_right _ _,
    Nat.le_refl _, .inl rfl, .inl rfl⟩

/-- A command on the XOF port in execution, with no count enough that the core may reach in its next turn, hangs on over
every step but a reset, whichever agent has the turn. -/
theorem hangsOn_of_lacking {i : Instr} {mode : XofMode} {len : Nat} {done : (Nat → Byte) → Nat → Bool}
    {result : (Nat → Byte) → Nat → Poly} {pd : PReg} {s t : State} (hi : i.wellFormed = true)
    (hexec : ∀ u, exec i u = .next (xofCommand machineXof i mode len done result pd u))
    (hs : s.seq = .exec (encode i))
    (hlack : ∀ k, k ≤ (sessionOf mode len s).pulled + s.xofPace →
      done (machineXof (sessionOf mode len s).mode (sessionOf mode len s).msg) k = false)
    (hreset : ¬ resetsNext s) (hstep : step s = .next t) : HangsOn mode len s t := by
  have hfetch : fetch { s with turns := s.turns.tail } = some (encode i, { s with turns := s.turns.tail }) :=
    fetch_exec hs
  rcases step_agent hstep with ⟨-, hseq⟩ | ⟨-, rfl⟩ | ⟨hturn, rfl⟩ | ⟨hturn, -⟩ | ⟨n, hturn, rfl⟩
  · rw [sequencerStep_of_some hfetch, runWord_of_ok (decodeOfEncodeIsTheCommand i hi), hexec,
      xofCommand_of_lacking (s := { s with turns := s.turns.tail }) rfl hlack] at hseq
    cases hseq
    exact hangsOn_pulled hs
  · rw [popOnly, hfetch]
    exact hangsOn_outside (.inl rfl) (.inl rfl)
  · rcases hostStep_of_exec (s := { s with turns := s.turns.tail }) hs with hsrst | ⟨q, ie, reqs, r, ht, hq⟩
    · exact absurd (.inr ⟨hturn, hsrst⟩) hreset
    · rw [ht]
      exact hangsOn_outside hq (.inl rfl)
  · exact absurd (.inl hturn) hreset
  · exact hangsOn_outside (.inl rfl) (.inr hturn)

/-- Settles O42: with 256 candidates, or 64η bytes, out of reach no count that the pulls may come to is enough. -/
theorem rejectionSamplingHangsOnPoorStreams : Obligations.RejectionSamplingHangsOnPoorStreams := by
  refine ⟨fun X s pd n hx hpoor => ?_, fun s t pd hs hpoor => ?_, fun s t pd eta hs heta hlack => ?_⟩
  · have hiter := iterate_xofCommand (i := .samplentt pd) (result := sampleNttPoly) (pd := pd) hx
      (fun k => sampleNttDone_eq_false fun m _ => hpoor m) n
    exact hiter.symm ▸ waits_exec (encode (.samplentt pd)) ⟨.shake128, _, (n + 1) * s.xofPace⟩ s
  · exact hangsOn_of_lacking (i := .samplentt pd) rfl (fun _ => rfl) hs
      fun k hk => sampleNttDone_eq_false fun m hm => hpoor m (hm.trans hk)
  · have hlegal := etaLegal_of_eq heta
    exact hangsOn_of_lacking (i := .prfcbd pd eta) hlegal
      (fun u => congrArg Host.Outcome.next (prfcbdWith_of_etaLegal hlegal machineXof pd u)) hs
      fun k hk => prfDone_eq_false (hk.trans_lt hlack) _

end Sys2Proof.Machine

namespace Sys2Proof.Machine

/-! # Proofs about polynomial arithmetic (43_ntt_poly.md)

## Coefficients of the lane operations (R211, R212, R223, R225) -/

section coefficients
variable (f g : Poly) {j : Nat} (hj : j < 256)
include hj

theorem coeff_addPoly : (addPoly f g).coeff j = (f.coeff j + g.coeff j) % Config.q :=
  coeff_ofFn_residue _ hj (addMod_lt _ _)

theorem coeff_subPoly : (subPoly f g).coeff j = subMod (f.coeff j) (g.coeff j) :=
  coeff_ofFn_residue _ hj (subMod_lt _ _)

theorem coeff_scalePoly (c : Nat) : (scalePoly c f).coeff j = f.coeff j * c % Config.q :=
  coeff_ofFn_residue _ hj (mulMod_lt _ _)

end coefficients

/-- Coefficient j of the product of pairs before it is reduced: of (a0 + a1·X)(b0 + b1·X) modulo X² − γ[j / 2] (R223). -/
def pairProduct (a b : Poly) (j : Nat) : Nat :=
  if j % 2 = 0 then
    a.coeff (2 * (j / 2)) * b.coeff (2 * (j / 2))
      + a.coeff (2 * (j / 2) + 1) * b.coeff (2 * (j / 2) + 1) * gamma (j / 2)
  else
    a.coeff (2 * (j / 2)) * b.coeff (2 * (j / 2) + 1) + a.coeff (2 * (j / 2) + 1) * b.coeff (2 * (j / 2))

/-- The reduction inside BaseCaseMultiply is not seen in its result (R224). -/
theorem baseCase0_eq (a0 a1 b0 b1 g : Nat) : baseCase0 a0 a1 b0 b1 g = (a0 * b0 + a1 * b1 * g) % Config.q := by
  rw [baseCase0, mulMod, Nat.add_mod, Nat.mod_mul_mod, ← Nat.add_mod]

theorem coeff_pointwisePoly (a b : Poly) {j : Nat} (hj : j < 256) :
    (pointwisePoly a b).coeff j = pairProduct a b j % Config.q := by
  have hval : (if j % 2 = 0 then
        baseCase0 (a.coeff (2 * (j / 2))) (a.coeff (2 * (j / 2) + 1)) (b.coeff (2 * (j / 2)))
          (b.coeff (2 * (j / 2) + 1)) (gamma (j / 2))
      else baseCase1 (a.coeff (2 * (j / 2))) (a.coeff (2 * (j / 2) + 1)) (b.coeff (2 * (j / 2)))
        (b.coeff (2 * (j / 2) + 1))) = pairProduct a b j % Config.q := by
    rw [pairProduct, baseCase0_eq, baseCase1]
    split_ifs <;> rfl
  exact (coeff_ofFn_residue _ hj (hval.trans_lt (Nat.mod_lt _ (by decide)))).trans hval

/-! ## PMOV, PZERO, PADD, PSUB, PMUL and PMAC (R210 to R213, R225, R228) -/

/-- The registers after a command that writes f to register d. -/
theorem getPoly_of_exec {i : Instr} {s t : State} {d : PReg} {f : Poly}
    (hi : exec i s = .next (retire (s.setPoly d f))) (h : exec i s = .next t) :
    t.getPoly d = f ∧ SamePolysBut d s t := by
  obtain rfl := eq_of_next hi h
  exact ⟨getPoly_setPoly_same s d f, fun _ hr => getPoly_setPoly_of_ne s f hr⟩

/-- Settles O22. -/
theorem polynomialMoveAndClear : Obligations.PolynomialMoveAndClear := by
  intro s pd pa
  refine ⟨encodes_of_wellFormed rfl rfl, encodes_of_wellFormed rfl rfl, ?_, ?_⟩
  · exact writesPoly_of rfl fun _ _ => rfl
  · exact writesPoly_of rfl fun j _ => Poly.coeff_zero j

/-- Settles O23: the sources are read before the destination is written, so that registers may coincide. -/
theorem polynomialAddAndSubtract : Obligations.PolynomialAddAndSubtract := by
  intro s pd pa pb
  refine ⟨encodes_of_wellFormed rfl rfl, encodes_of_wellFormed rfl rfl, ?_, ?_⟩
  · exact writesPoly_of rfl fun j hj => coeff_addPoly _ _ hj
  · exact writesPoly_of rfl fun j hj => (coeff_subPoly _ _ hj).trans (subMod_eq_toNat_emod _ _)

/-- Settles O28. -/
theorem pointwiseProductIsModuloXSquaredMinusGamma : Obligations.PointwiseProductIsModuloXSquaredMinusGamma := by
  intro s pd pa pb
  refine ⟨encodes_of_wellFormed rfl rfl, writesPoly_of rfl fun j hj => ?_⟩
  rw [coeff_pointwisePoly _ _ hj, pairProduct]
  split_ifs <;> rfl

/-- Settles O29: the sum takes the product reduced, as PADD takes it from the register of PMUL. -/
theorem multiplyAccumulateIsMultiplyThenAdd : Obligations.MultiplyAccumulateIsMultiplyThenAdd := by
  intro s t u pd pa pb px
  refine ⟨encodes_of_wellFormed rfl rfl, writesPoly_of rfl fun j hj => ?_, fun hx ht hu => ?_⟩
  · rw [coeff_addPoly _ _ hj, coeff_pointwisePoly _ _ hj, Nat.add_mod_mod]
    rfl
  · obtain ⟨hproduct, hframe⟩ := getPoly_of_exec rfl ht
    obtain ⟨hsum, -⟩ := getPoly_of_exec rfl hu
    refine writesPoly_of rfl fun j _ => ?_
    rw [hsum, hproduct, hframe pd hx.symm]

end Sys2Proof.Machine

namespace Sys2Proof.Machine

/-! ## Coefficients as residues in Z_q (R120) -/

/-- Coefficient j in Z_q. -/
def residue (f : Poly) (j : Nat) : ZMod Config.q := (f.coeff j : ZMod Config.q)

/-- Reducing an integer modulo q does not change its residue. -/
@[simp] theorem cast_mod_q (a : Nat) : ((a % Config.q : Nat) : ZMod Config.q) = a := ZMod.natCast_mod a Config.q

theorem cast_addMod (a b : Nat) : (addMod a b : ZMod Config.q) = a + b := by
  rw [addMod, cast_mod_q, Nat.cast_add]

theorem cast_mulMod (a b : Nat) : (mulMod a b : ZMod Config.q) = a * b := by
  rw [mulMod, cast_mod_q, Nat.cast_mul]

theorem cast_subMod (a b : Nat) : (subMod a b : ZMod Config.q) = a - b := by
  have hb : b % Config.q ≤ Config.q := (Nat.mod_lt b (by decide)).le
  rw [subMod, cast_mod_q, Nat.cast_add, Nat.cast_sub hb, cast_mod_q, ZMod.natCast_self, zero_sub, sub_eq_add_neg]

/-- Canonical polynomials with the same residues are the same. -/
theorem eq_of_residue {f g : Poly} (hf : f.canonical) (hg : g.canonical)
    (h : ∀ j, j < 256 → residue f j = residue g j) : f = g := by
  refine Poly.ext_coeff fun j hj => ?_
  have hmod := (ZMod.natCast_eq_natCast_iff' _ _ _).mp (h j hj)
  rwa [Nat.mod_eq_of_lt (hf j hj), Nat.mod_eq_of_lt (hg j hj)] at hmod

/-- A canonical coefficient is the remainder of any integer with its residue. -/
theorem coeff_eq_mod_of_residue {f : Poly} (hf : f.canonical) {j n : Nat} (hj : j < 256)
    (h : residue f j = n) : f.coeff j = n % Config.q := by
  rw [← Nat.mod_eq_of_lt (hf j hj)]
  exact (ZMod.natCast_eq_natCast_iff' _ _ _).mp h

theorem residue_of_le (f : Poly) {j : Nat} (hj : 256 ≤ j) : residue f j = 0 := by
  rw [residue, Poly.coeff_of_le f hj, Nat.cast_zero]

@[simp] theorem residue_addPoly (f g : Poly) (j : Nat) : residue (addPoly f g) j = residue f j + residue g j := by
  rcases Nat.lt_or_ge j 256 with hj | hj
  · rw [residue, coeff_addPoly f g hj, cast_mod_q, Nat.cast_add]
    rfl
  · simp only [residue_of_le _ hj, add_zero]

@[simp] theorem residue_subPoly (f g : Poly) (j : Nat) : residue (subPoly f g) j = residue f j - residue g j := by
  rcases Nat.lt_or_ge j 256 with hj | hj
  · rw [residue, coeff_subPoly f g hj, cast_subMod]
    rfl
  · simp only [residue_of_le _ hj, sub_zero]

@[simp] theorem residue_scalePoly (c : Nat) (f : Poly) (j : Nat) : residue (scalePoly c f) j = residue f j * c := by
  rcases Nat.lt_or_ge j 256 with hj | hj
  · rw [residue, coeff_scalePoly f hj, cast_mod_q, Nat.cast_mul]
    rfl
  · simp only [residue_of_le _ hj, zero_mul]

/-! ## The twiddles are a tree of square roots (R122 to R124)

X^256 + 1 splits into X^128 − r and X^128 + r with r² = −1, and so on down to the X² − γ[i]. Number the factors as a heap:
factor n has the children 2n and 2n + 1, X^256 + 1 is factor 1, and X² − γ[i] is factor 128 + i. -/

/-- The root of factor n: the factor is X^L − `blockRoot n`, L being the size of its block. Its square root zetas[n] splits
it into its two children. -/
def blockRoot (n : Nat) : ZMod Config.q := if n % 2 = 0 then zetas (n / 2) else -zetas (n / 2)

theorem blockRoot_two_mul (n : Nat) : blockRoot (2 * n) = zetas n := by
  rw [blockRoot, if_pos (by omega), Nat.mul_div_cancel_left n (by decide)]

theorem blockRoot_two_mul_add_one (n : Nat) : blockRoot (2 * n + 1) = -zetas n := by
  rw [blockRoot, if_neg (by omega), show (2 * n + 1) / 2 = n by omega]

theorem cast_zetas (n : Nat) : (zetas n : ZMod Config.q) = 17 ^ bitRev7 n := by
  rw [zetas, cast_mod_q, Nat.cast_pow]
  rfl

/-- ζ has order 256: its 128th power is −1 (R122). -/
theorem zetaRoot_pow_128 : (17 : ZMod Config.q) ^ 128 = -1 := by
  have h : ((17 ^ 128 : Nat) : ZMod Config.q) = (3328 : Nat) := (ZMod.natCast_eq_natCast_iff' _ _ _).mpr (by decide)
  have hneg : ((3328 : Nat) : ZMod Config.q) = -1 := rfl
  rw [← hneg, ← h, Nat.cast_pow]
  rfl

theorem two_mul_bitRev7 {n : Nat} (h : n < 128) : 2 * bitRev7 n = 128 * (n % 2) + bitRev7 (n / 2) := by
  simp only [bitRev7, Nat.div_div_eq_div_mul, Nat.reduceMul]
  omega

/-- zetas[n] is a square root of factor n's root. -/
theorem zetas_sq {n : Nat} (h : n < 128) : (zetas n : ZMod Config.q) ^ 2 = blockRoot n := by
  rw [cast_zetas, ← pow_mul, Nat.mul_comm, two_mul_bitRev7 h, pow_add, pow_mul, zetaRoot_pow_128, ← cast_zetas, blockRoot]
  rcases Nat.mod_two_eq_zero_or_one n with hn | hn
  · rw [if_pos hn, hn, pow_zero, one_mul]
  · rw [if_neg (by omega), hn, pow_one, neg_one_mul]

theorem blockRoot_sq {n : Nat} (h : n < 256) : blockRoot n ^ 2 = blockRoot (n / 2) := by
  rw [← zetas_sq (by omega : n / 2 < 128), blockRoot]
  split_ifs
  · rfl
  · exact neg_sq _

/-- Squaring climbs the tree. -/
theorem blockRoot_pow_two_pow {n : Nat} (h : n < 256) (s : Nat) : blockRoot n ^ 2 ^ s = blockRoot (n / 2 ^ s) := by
  induction s with
  | zero => simp
  | succ s ih =>
    have hs : n / 2 ^ s < 256 := (Nat.div_le_self _ _).trans_lt h
    rw [pow_succ, pow_mul, ih, blockRoot_sq hs, Nat.div_div_eq_div_mul]

theorem bitRev7_add_64 : ∀ m < 64, bitRev7 (64 + m) = bitRev7 m + 1 := by
  decide

theorem bitRev7_leaf {i : Nat} (h : i < 128) : bitRev7 ((128 + i) / 2) + 128 * (i % 2) = 2 * bitRev7 i + 1 := by
  rw [show (128 + i) / 2 = 64 + i / 2 by omega, bitRev7_add_64 _ (by omega), two_mul_bitRev7 h]
  omega

/-- The leaves of the tree are the γ[i]. -/
theorem cast_gamma {i : Nat} (h : i < 128) : (gamma i : ZMod Config.q) = blockRoot (128 + i) := by
  have hpow : (gamma i : ZMod Config.q) = 17 ^ (2 * bitRev7 i + 1) := by
    rw [gamma, cast_mod_q, Nat.cast_pow]
    rfl
  rw [hpow, ← bitRev7_leaf h, pow_add, pow_mul, zetaRoot_pow_128, ← cast_zetas, blockRoot]
  rcases Nat.mod_two_eq_zero_or_one i with hi | hi
  · rw [if_pos (by omega), hi, pow_zero, mul_one]
  · rw [if_neg (by omega), hi, pow_one, mul_neg_one]

/-- γ[i] to the power 2^s is the root of the factor s levels up (R124). -/
theorem gamma_pow_two_pow {i : Nat} (h : i < 128) (s : Nat) :
    (gamma i : ZMod Config.q) ^ 2 ^ s = blockRoot ((128 + i) / 2 ^ s) := by
  rw [cast_gamma h, blockRoot_pow_two_pow (by omega)]

theorem gamma_pow_128 {i : Nat} (h : i < 128) : (gamma i : ZMod Config.q) ^ 128 = -1 := by
  have hroot : (128 + i) / 2 ^ 7 = 2 * 0 + 1 := by omega
  calc (gamma i : ZMod Config.q) ^ 128
    _ = blockRoot (2 * 0 + 1) := hroot ▸ gamma_pow_two_pow h 7
    _ = -1 := by rw [blockRoot_two_mul_add_one, cast_zetas]; rfl

theorem gamma_pow_256 {i : Nat} (h : i < 128) : (gamma i : ZMod Config.q) ^ 256 = 1 := by
  rw [show 256 = 128 * 2 by decide, pow_mul, gamma_pow_128 h, neg_one_sq]

end Sys2Proof.Machine

namespace Sys2Proof.Machine

/-! ## The layers as butterflies (R215, R219)

Layer k splits 2^k blocks of 2·len coefficients, len · 2^k being 128: block b holds the butterflies of the coefficients
2·len·b + r and 2·len·b + r + len, for r < len. -/

theorem residue_nttLayer (len : Nat) (f : Poly) {j : Nat} (hj : j < 256) :
    residue (nttLayer len f) j =
      if j % (2 * len) < len then residue f j + zetas (128 / len + j / (2 * len)) * residue f (j + len)
      else residue f (j - len) - zetas (128 / len + j / (2 * len)) * residue f j := by
  rw [residue, nttLayer, coeff_ofFn_residue _ hj (by dsimp only; split_ifs; exacts [addMod_lt _ _, subMod_lt _ _])]
  dsimp only
  split_ifs
  · rw [cast_addMod, cast_mulMod]
    rfl
  · rw [cast_subMod, cast_mulMod]
    rfl

theorem residue_inttLayer (len : Nat) (f : Poly) {j : Nat} (hj : j < 256) :
    residue (inttLayer len f) j =
      if j % (2 * len) < len then residue f j + residue f (j + len)
      else zetas (2 * (128 / len) - 1 - j / (2 * len)) * (residue f j - residue f (j - len)) := by
  rw [residue, inttLayer, coeff_ofFn_residue _ hj (by dsimp only; split_ifs; exacts [addMod_lt _ _, mulMod_lt _ _])]
  dsimp only
  split_ifs
  · rw [cast_addMod]
    rfl
  · rw [cast_mulMod, cast_subMod]
    rfl

section butterfly
variable {len k b r : Nat} (hlen : len * 2 ^ k = 128) (hb : b < 2 ^ k) (hr : r < len)
include hlen hb hr

/-- Both coefficients of a butterfly lie in the polynomial. -/
theorem butterfly_lt : 2 * len * b + r + len < 256 :=
  calc 2 * len * b + r + len
    _ < 2 * len * b + 2 * len := by omega
    _ = 2 * len * (b + 1) := rfl
    _ ≤ 2 * len * 2 ^ k := Nat.mul_le_mul_left _ hb
    _ = 256 := by rw [Nat.mul_assoc, hlen]

omit hb in
theorem blocks_eq : 128 / len = 2 ^ k := Nat.div_eq_of_eq_mul_right (by omega) hlen.symm

omit hlen hb in
theorem lower_div_mod : (2 * len * b + r) / (2 * len) = b ∧ (2 * len * b + r) % (2 * len) = r := by
  rw [Nat.mul_add_div (by omega), Nat.mul_add_mod, Nat.div_eq_of_lt (by omega), Nat.mod_eq_of_lt (by omega)]
  exact ⟨rfl, rfl⟩

omit hlen hb in
theorem upper_div_mod :
    (2 * len * b + r + len) / (2 * len) = b ∧ (2 * len * b + r + len) % (2 * len) = r + len := by
  rw [Nat.add_assoc, Nat.mul_add_div (by omega), Nat.mul_add_mod, Nat.div_eq_of_lt (by omega),
    Nat.mod_eq_of_lt (by omega)]
  exact ⟨rfl, rfl⟩

theorem residue_nttLayer_lower (f : Poly) : residue (nttLayer len f) (2 * len * b + r)
    = residue f (2 * len * b + r) + zetas (2 ^ k + b) * residue f (2 * len * b + r + len) := by
  obtain ⟨hdiv, hmod⟩ := lower_div_mod (b := b) hr
  have hlt := butterfly_lt hlen hb hr
  rw [residue_nttLayer len f (by omega), hdiv, hmod, if_pos hr, blocks_eq hlen hr]

theorem residue_nttLayer_upper (f : Poly) : residue (nttLayer len f) (2 * len * b + r + len)
    = residue f (2 * len * b + r) - zetas (2 ^ k + b) * residue f (2 * len * b + r + len) := by
  obtain ⟨hdiv, hmod⟩ := upper_div_mod (b := b) hr
  rw [residue_nttLayer len f (butterfly_lt hlen hb hr), hdiv, hmod, if_neg (by omega), blocks_eq hlen hr,
    Nat.add_sub_cancel]

theorem residue_inttLayer_lower (f : Poly) : residue (inttLayer len f) (2 * len * b + r)
    = residue f (2 * len * b + r) + residue f (2 * len * b + r + len) := by
  obtain ⟨-, hmod⟩ := lower_div_mod (b := b) hr
  have hlt := butterfly_lt hlen hb hr
  rw [residue_inttLayer len f (by omega), hmod, if_pos hr]

theorem residue_inttLayer_upper (f : Poly) : residue (inttLayer len f) (2 * len * b + r + len)
    = zetas (2 * 2 ^ k - 1 - b) * (residue f (2 * len * b + r + len) - residue f (2 * len * b + r)) := by
  obtain ⟨hdiv, hmod⟩ := upper_div_mod (b := b) hr
  rw [residue_inttLayer len f (butterfly_lt hlen hb hr), hdiv, hmod, if_neg (by omega), blocks_eq hlen hr,
    Nat.add_sub_cancel]

end butterfly

theorem canonical_inttLayer (len : Nat) (f : Poly) : (inttLayer len f).canonical := by
  refine Poly.canonical_ofFn _ fun j _ => ?_
  dsimp only
  split_ifs
  exacts [addMod_lt _ _, mulMod_lt _ _]

/-- Every coefficient is in a butterfly. -/
theorem exists_butterfly {len k j : Nat} (hlen : len * 2 ^ k = 128) (hj : j < 256) :
    ∃ b r, b < 2 ^ k ∧ r < len ∧ (j = 2 * len * b + r ∨ j = 2 * len * b + r + len) := by
  have hpos : 0 < len := by
    rcases Nat.eq_zero_or_pos len with rfl | h
    · omega
    · exact h
  have hb : j / (2 * len) < 2 ^ k := by
    rw [Nat.div_lt_iff_lt_mul (by omega), Nat.mul_comm, Nat.mul_assoc, hlen]
    exact hj
  have hdiv := Nat.div_add_mod j (2 * len)
  have hmod := Nat.mod_lt j (by omega : 2 * len > 0)
  rcases Nat.lt_or_ge (j % (2 * len)) len with h | h
  · exact ⟨_, j % (2 * len), hb, h, .inl hdiv.symm⟩
  · exact ⟨_, j % (2 * len) - len, hb, by omega, .inr (by omega)⟩

/-- Canonical polynomials are the same when they agree on both coefficients of every butterfly of a layer. -/
theorem eq_of_butterflies {len k : Nat} (hlen : len * 2 ^ k = 128) {f g : Poly} (hf : f.canonical) (hg : g.canonical)
    (h : ∀ b r, b < 2 ^ k → r < len → residue f (2 * len * b + r) = residue g (2 * len * b + r)
      ∧ residue f (2 * len * b + r + len) = residue g (2 * len * b + r + len)) : f = g := by
  refine eq_of_residue hf hg fun j hj => ?_
  obtain ⟨b, r, hb, hr, rfl | rfl⟩ := exists_butterfly hlen hj
  · exact (h b r hb hr).1
  · exact (h b r hb hr).2

/-! ## NTT (R214 to R216) -/

/-- The first n pairs of terms of a sum. -/
theorem sum_range_two_mul {M : Type} [AddCommMonoid M] (a : Nat → M) (n : Nat) :
    ∑ t ∈ Finset.range (2 * n), a t = ∑ t ∈ Finset.range n, (a (2 * t) + a (2 * t + 1)) := by
  induction n with
  | zero => rfl
  | succ n ih => rw [Nat.mul_succ, Finset.sum_range_succ, Finset.sum_range_succ, Finset.sum_range_succ, ih, add_assoc]

/-- What k layers leave: block c of the 2^k blocks of g is f modulo X^len − `blockRoot (2^k + c)`. -/
def SplitInto (len k : Nat) (f g : Poly) : Prop :=
  ∀ c r, c < 2 ^ k → r < len → residue g (len * c + r)
    = ∑ t ∈ Finset.range (2 ^ k), residue f (len * t + r) * blockRoot (2 ^ k + c) ^ t

theorem splitInto_self (f : Poly) : SplitInto 256 0 f f := by
  intro c r hc _
  obtain rfl : c = 0 := Nat.lt_one_iff.mp hc
  simp

/-- f modulo X^len − y, for y a square root of the root of block b: of the two halves of that block, the upper one times y
is added to the lower one. -/
theorem SplitInto.sum_eq {len k b r : Nat} {f g : Poly} (hg : SplitInto (2 * len) k f g) (hb : b < 2 ^ k) (hr : r < len)
    {y : ZMod Config.q} (hy : y ^ 2 = blockRoot (2 ^ k + b)) :
    ∑ t ∈ Finset.range (2 * 2 ^ k), residue f (len * t + r) * y ^ t
      = residue g (2 * len * b + r) + y * residue g (2 * len * b + r + len) := by
  rw [Nat.add_assoc, hg b r hb (by omega), hg b (r + len) hb (by omega), ← hy, sum_range_two_mul,
    Finset.sum_add_distrib, Finset.mul_sum]
  refine congrArg₂ (· + ·) (Finset.sum_congr rfl fun t _ => ?_) (Finset.sum_congr rfl fun t _ => ?_)
  · rw [pow_mul, ← Nat.mul_assoc, Nat.mul_comm len]
  · rw [show len * (2 * t + 1) + r = 2 * len * t + (r + len) by ring]
    ring

/-- A layer splits every block in two. -/
theorem SplitInto.layer {len k : Nat} (hlen : len * 2 ^ k = 128) (hk : k < 7) {f g : Poly}
    (hg : SplitInto (2 * len) k f g) : SplitInto len (k + 1) f (nttLayer len g) := by
  intro c r hc hr
  have hpow : 2 ^ k ≤ 2 ^ 6 := Nat.pow_le_pow_right (by decide) (by omega)
  rw [Nat.pow_succ, Nat.mul_comm (2 ^ k)] at hc ⊢
  rcases Nat.even_or_odd' c with ⟨b, rfl | rfl⟩
  · have hb : b < 2 ^ k := by omega
    have hroot := zetas_sq (n := 2 ^ k + b) (by omega)
    rw [← Nat.mul_add, blockRoot_two_mul, hg.sum_eq hb hr hroot, ← residue_nttLayer_lower hlen hb hr,
      ← Nat.mul_assoc, Nat.mul_comm len]
  · have hb : b < 2 ^ k := by omega
    have hroot := (neg_sq _).trans (zetas_sq (n := 2 ^ k + b) (by omega))
    rw [← Nat.add_assoc, ← Nat.mul_add, blockRoot_two_mul_add_one, hg.sum_eq hb hr hroot, neg_mul, ← sub_eq_add_neg,
      ← residue_nttLayer_upper hlen hb hr, show len * (2 * b + 1) + r = 2 * len * b + r + len by ring]

theorem splitInto_nttPoly (f : Poly) : SplitInto 2 7 f (nttPoly f) :=
  have h128 : SplitInto 128 1 f _ := (splitInto_self f).layer (len := 128) rfl (by decide)
  have h64 : SplitInto 64 2 f _ := h128.layer (len := 64) rfl (by decide)
  have h32 : SplitInto 32 3 f _ := h64.layer (len := 32) rfl (by decide)
  have h16 : SplitInto 16 4 f _ := h32.layer (len := 16) rfl (by decide)
  have h8 : SplitInto 8 5 f _ := h16.layer (len := 8) rfl (by decide)
  have h4 : SplitInto 4 6 f _ := h8.layer (len := 4) rfl (by decide)
  h4.layer (len := 2) rfl (by decide)

/-- NTT is the map of R214. -/
theorem residue_nttPoly (f : Poly) {j : Nat} (hj : j < 256) :
    residue (nttPoly f) j = ∑ t ∈ Finset.range 128, residue f (2 * t + j % 2) * (gamma (j / 2) : ZMod Config.q) ^ t := by
  have h := splitInto_nttPoly f (j / 2) (j % 2) (by omega) (by omega)
  rw [cast_gamma (by omega : j / 2 < 128)]
  rwa [Nat.div_add_mod] at h

/-- Settles O24: both sides have the same residue, and the coefficients written are canonical. -/
theorem forwardTransformGivesTheResidues : Obligations.ForwardTransformGivesTheResidues := by
  intro s pd pa
  refine ⟨encodes_of_wellFormed rfl rfl, writesPoly_of rfl fun j hj => ?_⟩
  refine coeff_eq_mod_of_residue (canonical_nttPoly _) hj ?_
  rw [residue_nttPoly _ hj]
  push_cast
  rfl

end Sys2Proof.Machine

namespace Sys2Proof.Machine

/-! ## INTT in closed form (R219, R220) -/

theorem bitRev7_complement : ∀ k < 7, ∀ b < 2 ^ k, bitRev7 (2 ^ k + b) + bitRev7 (2 * 2 ^ k - 1 - b) = 128 := by
  decide

/-- The twiddle of a butterfly of R219 is minus the inverse of the twiddle of the same butterfly in R215. -/
theorem zetas_mul_zetas {k b : Nat} (hk : k < 7) (hb : b < 2 ^ k) :
    (zetas (2 ^ k + b) * zetas (2 * 2 ^ k - 1 - b) : ZMod Config.q) = -1 := by
  rw [cast_zetas, cast_zetas, ← pow_add, bitRev7_complement k hk b hb, zetaRoot_pow_128]

/-- γ[i], for pair i among the m pairs of block c, to the power m is the root of that block (R124). -/
theorem gamma_pow_pairs {m k c i : Nat} (hm : m * 2 ^ k = 128) (hc : c < 2 ^ k) (hi : i < m) :
    (gamma (m * c + i) : ZMod Config.q) ^ m = blockRoot (2 ^ k + c) := by
  obtain ⟨s, -, rfl⟩ := (Nat.dvd_prime_pow Nat.prime_two).mp (Dvd.intro _ hm : m ∣ 2 ^ 7)
  have hlt : 2 ^ s * c + i < 128 :=
    calc 2 ^ s * c + i
      _ < 2 ^ s * (c + 1) := Nat.add_lt_add_left hi _
      _ ≤ 2 ^ s * 2 ^ k := Nat.mul_le_mul_left _ hc
      _ = 128 := hm
  rw [gamma_pow_two_pow hlt, ← Nat.add_assoc, ← hm, ← Nat.mul_add, Nat.mul_add_div (Nat.two_pow_pos s),
    Nat.div_eq_of_lt hi, Nat.add_zero]

/-- The term of pair i in coefficient 2t + e of the inverse: g[2i + e] · γ[i]^-t (R220). -/
def inverseTerm (g : Poly) (e t i : Nat) : ZMod Config.q :=
  residue g (2 * i + e) * (gamma i : ZMod Config.q) ^ (256 - t)

/-- The inverse z of γ[i]^m takes a term m powers further on. -/
theorem mul_inverseTerm (g : Poly) (e : Nat) {t m i : Nat} {z : ZMod Config.q} (hm : m + t ≤ 256)
    (hz : (gamma i : ZMod Config.q) ^ m * z = 1) : z * inverseTerm g e t i = inverseTerm g e (m + t) i := by
  rw [inverseTerm, inverseTerm, show 256 - t = 256 - (m + t) + m by omega, pow_add]
  linear_combination residue g (2 * i + e) * (gamma i : ZMod Config.q) ^ (256 - (m + t)) * hz

/-- What layers leave that have joined the pairs in 2^k blocks of m pairs: in each block the sums over its own pairs. -/
def JoinedFrom (m k : Nat) (g h : Poly) : Prop :=
  ∀ c t e, c < 2 ^ k → t < m → e < 2 → residue h (2 * m * c + (2 * t + e))
    = ∑ i ∈ Finset.range m, inverseTerm g e t (m * c + i)

theorem joinedFrom_self (g : Poly) : JoinedFrom 1 7 g g := by
  intro c t e hc ht _
  obtain rfl : t = 0 := Nat.lt_one_iff.mp ht
  simp [inverseTerm, gamma_pow_256 hc]

section join
variable {m k b t e : Nat} {g h : Poly} (hh : JoinedFrom m (k + 1) g h) (hm : 2 * m * 2 ^ k = 128) (hb : b < 2 ^ k)
  (ht : t < m) (he : e < 2)
include hh hb ht he

theorem JoinedFrom.left : residue h (2 * (2 * m) * b + (2 * t + e))
    = ∑ i ∈ Finset.range m, inverseTerm g e t (2 * m * b + i) := by
  have hsum := hh (2 * b) t e (by rw [Nat.pow_succ]; omega) ht he
  rwa [show 2 * m * (2 * b) = 2 * (2 * m) * b by ring, show m * (2 * b) = 2 * m * b by ring] at hsum

theorem JoinedFrom.right : residue h (2 * (2 * m) * b + (2 * t + e) + 2 * m)
    = ∑ i ∈ Finset.range m, inverseTerm g e t (2 * m * b + (m + i)) := by
  have hsum := hh (2 * b + 1) t e (by rw [Nat.pow_succ]; omega) ht he
  simp only [show ∀ i, m * (2 * b + 1) + i = 2 * m * b + (m + i) from fun i => by ring] at hsum
  rwa [show 2 * m * (2 * b + 1) + (2 * t + e) = 2 * (2 * m) * b + (2 * t + e) + 2 * m by ring] at hsum

end join

/-- The pairs of the left and of the right half of a block have opposite m-th powers of γ. -/
theorem gamma_pow_left {m k b i : Nat} (hm : 2 * m * 2 ^ k = 128) (hb : b < 2 ^ k) (hi : i < m) :
    (gamma (2 * m * b + i) : ZMod Config.q) ^ m = zetas (2 ^ k + b) := by
  have hpow : 2 ^ (k + 1) = 2 * 2 ^ k := Nat.pow_succ'
  have hroot := gamma_pow_pairs (m := m) (k := k + 1) (c := 2 * b) (by rw [hpow, ← hm]; ring) (by omega) hi
  rwa [show m * (2 * b) = 2 * m * b by ring, hpow, ← Nat.mul_add, blockRoot_two_mul] at hroot

theorem gamma_pow_right {m k b i : Nat} (hm : 2 * m * 2 ^ k = 128) (hb : b < 2 ^ k) (hi : i < m) :
    (gamma (2 * m * b + (m + i)) : ZMod Config.q) ^ m = -zetas (2 ^ k + b) := by
  have hpow : 2 ^ (k + 1) = 2 * 2 ^ k := Nat.pow_succ'
  have hroot := gamma_pow_pairs (m := m) (k := k + 1) (c := 2 * b + 1) (by rw [hpow, ← hm]; ring) (by omega) hi
  rwa [show m * (2 * b + 1) + i = 2 * m * b + (m + i) by ring, hpow, ← Nat.add_assoc (2 * 2 ^ k), ← Nat.mul_add,
    blockRoot_two_mul_add_one] at hroot

/-- A layer joins blocks two by two. -/
theorem JoinedFrom.layer {m k : Nat} (hm : 2 * m * 2 ^ k = 128) (hk : k < 7) {g h : Poly}
    (hh : JoinedFrom m (k + 1) g h) : JoinedFrom (2 * m) k g (inttLayer (2 * m) h) := by
  intro b t e hb ht he
  have hm128 : 2 * m ≤ 128 := Nat.le_of_dvd (by decide) (Dvd.intro _ hm)
  rw [Nat.two_mul m, Finset.sum_range_add, ← Nat.two_mul]
  rcases Nat.lt_or_ge t m with htm | htm
  · rw [residue_inttLayer_lower hm hb (by omega), hh.left hb htm he, hh.right hb htm he]
  · obtain ⟨u, rfl⟩ := Nat.exists_eq_add_of_le htm
    have hu : u < m := by omega
    have hzetas := zetas_mul_zetas hk hb
    rw [show 2 * (2 * m) * b + (2 * (m + u) + e) = 2 * (2 * m) * b + (2 * u + e) + 2 * m by ring,
      residue_inttLayer_upper hm hb (by omega), hh.left hb hu he, hh.right hb hu he, mul_sub, sub_eq_neg_add, ← neg_mul,
      Finset.mul_sum, Finset.mul_sum]
    refine congrArg₂ (· + ·) (Finset.sum_congr rfl fun i hi => ?_) (Finset.sum_congr rfl fun i hi => ?_)
    · refine mul_inverseTerm g e (by omega) ?_
      rw [gamma_pow_left hm hb (Finset.mem_range.mp hi), mul_neg, hzetas, neg_neg]
    · refine mul_inverseTerm g e (by omega) ?_
      rw [gamma_pow_right hm hb (Finset.mem_range.mp hi), neg_mul, hzetas, neg_neg]

/-- The seven layers of INTT, before the scale (R219). -/
def inttLayers (g : Poly) : Poly := [2, 4, 8, 16, 32, 64, 128].foldl (fun h len => inttLayer len h) g

theorem inttPoly_eq_scale (g : Poly) : inttPoly g = scalePoly Config.ninv (inttLayers g) := rfl

theorem joinedFrom_inttLayers (g : Poly) : JoinedFrom 128 0 g (inttLayers g) :=
  have h2 : JoinedFrom 2 6 g _ := (joinedFrom_self g).layer (m := 1) rfl (by decide)
  have h4 : JoinedFrom 4 5 g _ := h2.layer (m := 2) rfl (by decide)
  have h8 : JoinedFrom 8 4 g _ := h4.layer (m := 4) rfl (by decide)
  have h16 : JoinedFrom 16 3 g _ := h8.layer (m := 8) rfl (by decide)
  have h32 : JoinedFrom 32 2 g _ := h16.layer (m := 16) rfl (by decide)
  have h64 : JoinedFrom 64 1 g _ := h32.layer (m := 32) rfl (by decide)
  h64.layer (m := 64) rfl (by decide)

theorem residue_inttPoly (g : Poly) {j : Nat} (hj : j < 256) :
    residue (inttPoly g) j = 3303 * ∑ i ∈ Finset.range 128, inverseTerm g (j % 2) (j / 2) i := by
  have h := joinedFrom_inttLayers g 0 (j / 2) (j % 2) (by decide) (by omega) (by omega)
  simp only [Nat.mul_zero, Nat.zero_add, Nat.div_add_mod] at h
  rw [inttPoly_eq_scale, residue_scalePoly, h, mul_comm]
  rfl

/-- Settles O25: both sides have the same residue, and the coefficients written are canonical. -/
theorem inverseTransformSumsTheResidues : Obligations.InverseTransformSumsTheResidues := by
  intro s pd pa
  refine ⟨encodes_of_wellFormed rfl rfl, writesPoly_of rfl fun j hj => ?_⟩
  refine coeff_eq_mod_of_residue (canonical_inttPoly _) hj ?_
  rw [residue_inttPoly _ hj]
  push_cast
  rfl

/-! ## The transforms are linear (R217) -/

theorem nttPoly_scalePoly (c : Nat) (f : Poly) : nttPoly (scalePoly c f) = scalePoly c (nttPoly f) := by
  refine eq_of_residue (canonical_nttPoly _) (canonical_scalePoly _ _) fun j hj => ?_
  simp only [residue_scalePoly, residue_nttPoly _ hj, Finset.sum_mul, mul_right_comm]

/-- Settles O27: the closed forms are linear in the residues. -/
theorem transformsAreLinear : Obligations.TransformsAreLinear := by
  intro f g c
  refine ⟨?_, ?_, nttPoly_scalePoly c f, ?_, ?_⟩
  · refine eq_of_residue (canonical_nttPoly _) (canonical_addPoly _ _) fun j hj => ?_
    simp only [residue_addPoly, residue_nttPoly _ hj, add_mul, Finset.sum_add_distrib]
  · refine eq_of_residue (canonical_nttPoly _) (canonical_subPoly _ _) fun j hj => ?_
    simp only [residue_subPoly, residue_nttPoly _ hj, sub_mul, Finset.sum_sub_distrib]
  · refine eq_of_residue (canonical_inttPoly _) (canonical_addPoly _ _) fun j hj => ?_
    simp only [residue_addPoly, residue_inttPoly _ hj, inverseTerm, add_mul, Finset.sum_add_distrib, mul_add]
  · refine eq_of_residue (canonical_inttPoly _) (canonical_subPoly _ _) fun j hj => ?_
    simp only [residue_subPoly, residue_inttPoly _ hj, inverseTerm, sub_mul, Finset.sum_sub_distrib, mul_sub]

end Sys2Proof.Machine

namespace Sys2Proof.Machine

/-! ## The transforms are inverse (R221)

A layer of INTT undoes the layer of NTT of the same distance up to the factor 2, and the other way round. -/

theorem inttLayer_nttLayer {len k : Nat} (hlen : len * 2 ^ k = 128) (hk : k < 7) (f : Poly) :
    inttLayer len (nttLayer len f) = scalePoly 2 f := by
  refine eq_of_butterflies hlen (canonical_inttLayer _ _) (canonical_scalePoly _ _) fun b r hb hr => ⟨?_, ?_⟩
  · rw [residue_inttLayer_lower hlen hb hr, residue_nttLayer_lower hlen hb hr, residue_nttLayer_upper hlen hb hr,
      residue_scalePoly]
    push_cast
    ring
  · rw [residue_inttLayer_upper hlen hb hr, residue_nttLayer_lower hlen hb hr, residue_nttLayer_upper hlen hb hr,
      residue_scalePoly]
    push_cast
    linear_combination -2 * residue f (2 * len * b + r + len) * zetas_mul_zetas hk hb

theorem nttLayer_inttLayer {len k : Nat} (hlen : len * 2 ^ k = 128) (hk : k < 7) (f : Poly) :
    nttLayer len (inttLayer len f) = scalePoly 2 f := by
  refine eq_of_butterflies hlen (canonical_nttLayer _ _) (canonical_scalePoly _ _) fun b r hb hr => ⟨?_, ?_⟩
  · rw [residue_nttLayer_lower hlen hb hr, residue_inttLayer_lower hlen hb hr, residue_inttLayer_upper hlen hb hr,
      residue_scalePoly]
    push_cast
    linear_combination (residue f (2 * len * b + r + len) - residue f (2 * len * b + r)) * zetas_mul_zetas hk hb
  · rw [residue_nttLayer_upper hlen hb hr, residue_inttLayer_lower hlen hb hr, residue_inttLayer_upper hlen hb hr,
      residue_scalePoly]
    push_cast
    linear_combination -(residue f (2 * len * b + r + len) - residue f (2 * len * b + r)) * zetas_mul_zetas hk hb

theorem nttLayer_scalePoly (len c : Nat) (f : Poly) :
    nttLayer len (scalePoly c f) = scalePoly c (nttLayer len f) := by
  refine eq_of_residue (canonical_nttLayer _ _) (canonical_scalePoly _ _) fun j hj => ?_
  simp only [residue_scalePoly, residue_nttLayer _ _ hj]
  split_ifs <;> ring

theorem inttLayer_scalePoly (len c : Nat) (f : Poly) :
    inttLayer len (scalePoly c f) = scalePoly c (inttLayer len f) := by
  refine eq_of_residue (canonical_inttLayer _ _) (canonical_scalePoly _ _) fun j hj => ?_
  simp only [residue_scalePoly, residue_inttLayer _ _ hj]
  split_ifs <;> ring

/-- Layers `A`, then in the reverse order layers `B` that each undo one of them up to the factor 2. -/
theorem foldl_reverse_foldl {A B : Nat → Poly → Poly} (hB : ∀ len f, B len (scalePoly 2 f) = scalePoly 2 (B len f))
    (ls : List Nat) (hBA : ∀ len ∈ ls, ∀ f, B len (A len f) = scalePoly 2 f) (f : Poly) :
    ls.reverse.foldl (fun h len => B len h) (ls.foldl (fun h len => A len h) f) = (scalePoly 2)^[ls.length] f := by
  induction ls generalizing f with
  | nil => rfl
  | cons len ls ih =>
    rw [List.foldl_cons, List.reverse_cons, List.foldl_append, ih fun l hl => hBA l (List.mem_cons_of_mem _ hl)]
    calc B len ((scalePoly 2)^[ls.length] (A len f))
      _ = (scalePoly 2)^[ls.length] (B len (A len f)) := (Function.Commute.iterate_right (hB len) ls.length).eq _
      _ = (scalePoly 2)^[ls.length + 1] f := by rw [hBA len List.mem_cons_self, Function.iterate_succ_apply]

/-- The distances of the seven layers. -/
theorem layer_distances : ∀ len ∈ [128, 64, 32, 16, 8, 4, 2], ∃ k < 7, len * 2 ^ k = 128 := by decide

/-- 3303 is the inverse of 2^7 (R219). -/
theorem scale_ninv_iterate_two {f : Poly} (hf : f.canonical) :
    scalePoly Config.ninv ((scalePoly 2)^[7] f) = f := by
  refine eq_of_residue (canonical_scalePoly _ _) hf fun j _ => ?_
  have hinv : (2 : ZMod Config.q) ^ 7 * Config.ninv = 1 := rfl
  simp only [Function.iterate_succ_apply', Function.iterate_zero_apply, residue_scalePoly]
  push_cast
  linear_combination residue f j * hinv

theorem inttPoly_nttPoly {f : Poly} (hf : f.canonical) : inttPoly (nttPoly f) = f := by
  have hlayers : inttLayers (nttPoly f) = (scalePoly 2)^[7] f :=
    foldl_reverse_foldl (fun len => inttLayer_scalePoly len 2) [128, 64, 32, 16, 8, 4, 2]
      (fun len hlen => by
        obtain ⟨k, hk, h⟩ := layer_distances len hlen
        exact inttLayer_nttLayer h hk) f
  rw [inttPoly_eq_scale, hlayers, scale_ninv_iterate_two hf]

theorem nttPoly_inttPoly {f : Poly} (hf : f.canonical) : nttPoly (inttPoly f) = f := by
  have hlayers : nttPoly (inttLayers f) = (scalePoly 2)^[7] f :=
    foldl_reverse_foldl (fun len => nttLayer_scalePoly len 2) [2, 4, 8, 16, 32, 64, 128]
      (fun len hlen => by
        obtain ⟨k, hk, h⟩ := layer_distances len (List.mem_reverse.mpr hlen)
        exact nttLayer_inttLayer h hk) f
  rw [inttPoly_eq_scale, nttPoly_scalePoly, hlayers, scale_ninv_iterate_two hf]

/-- Settles O26. -/
theorem transformsAreInverse : Obligations.TransformsAreInverse := by
  intro s t u pa pb pc hf
  refine ⟨fun ht hu => ?_, fun ht hu => ?_⟩
  · rw [(getPoly_of_exec rfl hu).1, (getPoly_of_exec rfl ht).1, inttPoly_nttPoly hf]
  · rw [(getPoly_of_exec rfl hu).1, (getPoly_of_exec rfl ht).1, nttPoly_inttPoly hf]

end Sys2Proof.Machine

namespace Sys2Proof.Machine

/-! ## NTT, NTT, PMUL, INTT multiply in Z_q[X]/(X^256 + 1) (R226)

Pair i of a polynomial in NTT form is a number of Z_q[X]/(X² − γ[i]), in which X^256 is −1. -/

/-- Pair i as a number of Z_q[X]/(X² − γ[i]). -/
def pairAt (f : Poly) (i : Nat) : QuadraticAlgebra (ZMod Config.q) (gamma i) 0 :=
  ⟨residue f (2 * i), residue f (2 * i + 1)⟩

/-- Canonical polynomials with the same pairs are the same. -/
theorem eq_of_pairAt {f g : Poly} (hf : f.canonical) (hg : g.canonical) (h : ∀ i, i < 128 → pairAt f i = pairAt g i) :
    f = g := by
  refine eq_of_residue hf hg fun j hj => ?_
  obtain ⟨hre, him⟩ := QuadraticAlgebra.ext_iff.mp (h (j / 2) (by omega))
  obtain hj2 | hj2 : j = 2 * (j / 2) ∨ j = 2 * (j / 2) + 1 := by omega
  · rw [hj2]
    exact hre
  · rw [hj2]
    exact him

theorem residue_pointwisePoly (f g : Poly) {j : Nat} (hj : j < 256) :
    residue (pointwisePoly f g) j = pairProduct f g j := by
  rw [residue, coeff_pointwisePoly f g hj, cast_mod_q]

/-- PMUL multiplies pair by pair (R223, R225). -/
theorem pairAt_pointwisePoly (f g : Poly) {i : Nat} (hi : i < 128) :
    pairAt (pointwisePoly f g) i = pairAt f i * pairAt g i := by
  have heven : 2 * i / 2 = i := by omega
  have hodd : (2 * i + 1) / 2 = i := by omega
  rw [pairAt, residue_pointwisePoly f g (by omega), residue_pointwisePoly f g (by omega), pairProduct, pairProduct,
    if_pos (by omega), if_neg (by omega), heven, hodd, pairAt, pairAt, QuadraticAlgebra.mk_mul_mk]
  simp only [residue]
  push_cast
  congr 1 <;> ring

/-- The image of X modulo X² − γ[i]. -/
def pairX (i : Nat) : QuadraticAlgebra (ZMod Config.q) (gamma i) 0 := ⟨0, 1⟩

theorem pairX_pow_two_mul (i t : Nat) : pairX i ^ (2 * t) = algebraMap _ _ ((gamma i : ZMod Config.q) ^ t) := by
  have hsq : pairX i ^ 2 = algebraMap _ _ (gamma i : ZMod Config.q) := by
    rw [sq]
    ext <;> simp [pairX]
  rw [pow_mul, hsq, map_pow]

theorem mk_eq_add_mul_pairX (i : Nat) (x y : ZMod Config.q) :
    (⟨x, y⟩ : QuadraticAlgebra (ZMod Config.q) (gamma i) 0) = algebraMap _ _ x + algebraMap _ _ y * pairX i := by
  ext <;> simp [pairX]

theorem pairX_pow_256 {i : Nat} (hi : i < 128) : pairX i ^ 256 = -1 := by
  rw [show 256 = 2 * 128 by decide, pairX_pow_two_mul, gamma_pow_128 hi, map_neg, map_one]

/-- NTT gives the values of a polynomial at X modulo the X² − γ[i] (R214). -/
theorem pairAt_nttPoly (f : Poly) {i : Nat} (hi : i < 128) :
    pairAt (nttPoly f) i = ∑ m ∈ Finset.range 256, algebraMap _ _ (residue f m) * pairX i ^ m := by
  have heven : 2 * i / 2 = i ∧ 2 * i % 2 = 0 := by omega
  have hodd : (2 * i + 1) / 2 = i ∧ (2 * i + 1) % 2 = 1 := by omega
  rw [pairAt, residue_nttPoly f (by omega), residue_nttPoly f (by omega), heven.1, heven.2, hodd.1, hodd.2,
    mk_eq_add_mul_pairX, show 256 = 2 * 128 by decide, sum_range_two_mul, Finset.sum_add_distrib]
  simp only [pow_succ, pairX_pow_two_mul, map_sum, map_mul, Finset.sum_mul, mul_assoc, Nat.add_zero]

section negacyclic
variable {A : Type} [CommRing A] {x : A} (hx : x ^ 256 = -1)
include hx

/-- One term of a product, of degree n below 512, as the reduction modulo X^256 + 1 distributes it. -/
theorem sum_reduce_pow {n : Nat} (hn : n < 512) (y : A) :
    ∑ k ∈ Finset.range 256, (if n = k then y else if n = k + 256 then -y else 0) * x ^ k = y * x ^ n := by
  rcases Nat.lt_or_ge n 256 with h | h
  · rw [Finset.sum_eq_single n]
    · rw [if_pos rfl]
    · intro k hk hne
      rw [if_neg hne.symm, if_neg (by omega), zero_mul]
    · simp [h]
  · obtain ⟨m, rfl⟩ := Nat.exists_eq_add_of_le' h
    rw [Finset.sum_eq_single m]
    · rw [if_neg (by omega), if_pos rfl, pow_add, hx]
      ring
    · intro k hk hne
      rw [if_neg (by have := Finset.mem_range.mp hk; omega), if_neg (by omega), zero_mul]
    · simp
      omega

/-- The negacyclic product of two sequences has at x the product of their values, where x^256 is −1. -/
theorem sum_negacyclic (a b : Nat → A) :
    ∑ k ∈ Finset.range 256, (∑ i ∈ Finset.range 256, ∑ j ∈ Finset.range 256,
        if i + j = k then a i * b j else if i + j = k + 256 then -(a i * b j) else 0) * x ^ k
      = (∑ i ∈ Finset.range 256, a i * x ^ i) * ∑ j ∈ Finset.range 256, b j * x ^ j := by
  rw [Finset.sum_mul_sum]
  simp only [Finset.sum_mul]
  rw [Finset.sum_comm]
  refine Finset.sum_congr rfl fun i hi => ?_
  rw [Finset.sum_comm]
  refine Finset.sum_congr rfl fun j hj => ?_
  rw [Finset.mem_range] at hi hj
  rw [sum_reduce_pow hx (by omega)]
  ring

end negacyclic

/-- Coefficient k of the product of f and g modulo X^256 + 1, as an integer. -/
def negacyclicCoeff (f g : Poly) (k : Nat) : Int :=
  ∑ i ∈ Finset.range 256, ∑ j ∈ Finset.range 256,
    if i + j = k then (f.coeff i * g.coeff j : Int) else if i + j = k + 256 then -(f.coeff i * g.coeff j : Int) else 0

/-- The product of f and g in Z_q[X]/(X^256 + 1). -/
def negacyclicPoly (f g : Poly) : Poly := Poly.ofFn fun k => (negacyclicCoeff f g k % Config.q).toNat

theorem negacyclicCoeff_emod (f g : Poly) (k : Nat) :
    0 ≤ negacyclicCoeff f g k % Config.q ∧ negacyclicCoeff f g k % Config.q < Config.q :=
  ⟨Int.emod_nonneg _ (by decide), Int.emod_lt_of_pos _ (by decide)⟩

theorem canonical_negacyclicPoly (f g : Poly) : (negacyclicPoly f g).canonical :=
  Poly.canonical_ofFn _ fun k _ => by have := negacyclicCoeff_emod f g k; omega

theorem coeff_negacyclicPoly (f g : Poly) {k : Nat} (hk : k < 256) :
    ((negacyclicPoly f g).coeff k : Int) = negacyclicCoeff f g k % Config.q := by
  obtain ⟨hnonneg, hlt⟩ := negacyclicCoeff_emod f g k
  rw [negacyclicPoly, coeff_ofFn_residue _ hk (by omega), Int.toNat_of_nonneg hnonneg]

theorem residue_negacyclicPoly (f g : Poly) {k : Nat} (hk : k < 256) :
    residue (negacyclicPoly f g) k = ∑ i ∈ Finset.range 256, ∑ j ∈ Finset.range 256,
      if i + j = k then residue f i * residue g j
      else if i + j = k + 256 then -(residue f i * residue g j) else 0 := by
  rw [residue, ← Int.cast_natCast, coeff_negacyclicPoly f g hk, ZMod.intCast_mod, negacyclicCoeff]
  push_cast
  rfl

/-- NTT takes the ring product to the product of pairs. -/
theorem nttPoly_negacyclicPoly (f g : Poly) :
    nttPoly (negacyclicPoly f g) = pointwisePoly (nttPoly f) (nttPoly g) := by
  refine eq_of_pairAt (canonical_nttPoly _) (canonical_pointwisePoly _ _) fun i hi => ?_
  rw [pairAt_pointwisePoly _ _ hi, pairAt_nttPoly _ hi, pairAt_nttPoly _ hi, pairAt_nttPoly _ hi,
    ← sum_negacyclic (pairX_pow_256 hi)]
  refine Finset.sum_congr rfl fun k hk => ?_
  rw [residue_negacyclicPoly f g (Finset.mem_range.mp hk)]
  simp only [map_sum, apply_ite (algebraMap _ _), map_neg, map_mul, map_zero]

/-- Settles O30: INTT gives back the polynomial whose transform PMUL has computed. -/
theorem transformedProductIsTheRingProduct : Obligations.TransformedProductIsTheRingProduct := by
  intro s s1 s2 s3 s4 pa pb pc pd hcb hcd h1 h2 h3 h4 k hk
  obtain ⟨hf, hframe1⟩ := getPoly_of_exec rfl h1
  obtain ⟨hg, hframe2⟩ := getPoly_of_exec rfl h2
  obtain ⟨hproduct, -⟩ := getPoly_of_exec rfl h3
  obtain ⟨hresult, -⟩ := getPoly_of_exec rfl h4
  have hring : s4.getPoly pc = negacyclicPoly (s.getPoly pa) (s.getPoly pb) := by
    rw [hresult, hproduct, hg, hframe2 pc hcd, hf, hframe1 pb hcb.symm, ← nttPoly_negacyclicPoly,
      inttPoly_nttPoly (canonical_negacyclicPoly _ _)]
  rw [hring]
  exact coeff_negacyclicPoly _ _ hk

end Sys2Proof.Machine

namespace Sys2Proof.Machine

/-! # Proofs about moves and control (44_move_and_control.md)

## Coefficients to and from scalars (R255 to R257) -/

/-- Settles O18: an immediate and a coefficient are narrower than a scalar, so the value is written as it is. -/
theorem scalarLoadsZeroExtend : Obligations.ScalarLoadsZeroExtend := by
  intro s sd pa imm16 idx
  refine ⟨encodes_of_wellFormed rfl rfl, encodes_of_wellFormed rfl rfl, ?_, ?_, fun hcanonical => ?_⟩
  · exact writesScal_of rfl (imm16.isLt.trans (by decide))
  · exact writesScal_of rfl ((Poly.coeff_lt _ _).trans (by decide))
  · exact hcanonical _ idx.isLt

section cset
variable {s : State} {pd : PReg} {sa : SReg} {idx : BitVec 8}

theorem exec_cset_of_lt (h : s.scalVal sa < Config.q) : exec (.cset pd sa idx) s
    = .next (retire (s.setPoly pd ((s.getPoly pd).setCoeff idx.toNat (s.scalVal sa)))) :=
  congrArg Host.Outcome.next (if_pos h)

theorem exec_cset_of_le (h : Config.q ≤ s.scalVal sa) :
    exec (.cset pd sa idx) s = .next (errorEntry .operandRange (encode (.cset pd sa idx)) s) :=
  congrArg Host.Outcome.next (if_neg (Nat.not_lt.mpr h))

end cset

/-- Settles O19: a canonical scalar fits the 12 bits of a coefficient, and every 8-bit index is one of the 256. -/
theorem coefficientWriteChecksTheScalar : Obligations.CoefficientWriteChecksTheScalar := by
  intro s pd sa idx
  refine ⟨encodes_of_wellFormed rfl rfl, fun h => ?_, fun h => ?_⟩
  · exact writesPoly_of (exec_cset_of_lt h) fun j _ =>
      Poly.coeff_setCoeff _ j idx.isLt (h.trans (by decide))
  · exact failsWith_of (exec_cset_of_le h)

/-! ## Bytes of BUF to and from scalars (R258, R259) -/

/-- A command that only touched BUF before it retired writes what BUF then reads as. -/
theorem writesBuf_of {i : Instr} {s : State} {m : Memory} {f : Nat → Byte}
    (h : exec i s = .next (retire { s with buf := m })) (hf : ∀ a, m.read a = f a) : WritesBuf i f s :=
  ⟨_, h, hf, fun _ => rfl, fun _ => rfl, retired_retire s _ _ _⟩

theorem addrLegal_of_lt {addr : BitVec 9} (h : addr.toNat < Config.bufLen) : addrLegal addr = true :=
  decide_eq_true h

section bytes
variable {addr : BitVec 9} (h : addrLegal addr = true)
include h

theorem exec_ldb (s : State) (sd : SReg) :
    exec (.ldb sd addr) s = .next (retire (s.setScalVal sd (s.loadByte addr.toNat).toNat)) :=
  congrArg Host.Outcome.next (ifLegal_of_wellFormed (i := .ldb sd addr) h s _)

theorem exec_stb (s : State) (sa : SReg) :
    exec (.stb sa addr) s = .next (retire (s.storeByte addr.toNat ((s.getScal sa).setWidth 8))) :=
  congrArg Host.Outcome.next (ifLegal_of_wellFormed (i := .stb sa addr) h s _)

end bytes

/-- Settles O20: a byte is narrower than a scalar, and truncation to 8 bits takes the low byte. -/
theorem byteLoadsAndStores : Obligations.ByteLoadsAndStores := by
  intro s r addr hs haddr
  have hlegal := addrLegal_of_lt haddr
  refine ⟨encodes_of_wellFormed rfl hlegal, encodes_of_wellFormed rfl hlegal, ?_, ?_⟩
  · exact writesScal_of (exec_ldb hlegal s r) ((s.loadByte addr.toNat).isLt.trans (by decide))
  · refine writesBuf_of (exec_stb hlegal s r) fun a => ?_
    rw [Memory.read_write hs, BitVec.setWidth_eq_extractLsb' (by decide)]
    rfl

/-! ## NOP, ZEROIZE and BZERO (R252 to R254) -/

/-- Settles O21: ZEROIZE gives the registers and BUF the values that they have at reset, BZERO gives BUF its own. -/
theorem controlCommandsClearWhatTheyName : Obligations.ControlCommandsClearWhatTheyName := by
  intro s
  refine ⟨encodes_of_wellFormed rfl rfl, encodes_of_wellFormed rfl rfl, encodes_of_wellFormed rfl rfl, ?_, ?_, ?_⟩
  · exact ⟨_, rfl, fun _ => rfl, fun _ => rfl, fun _ => rfl, retired_retire s _ _ _⟩
  · have hreset := resetValues_reset_outside s.turns s.hostReqs s.hostReply s.xofPace
    exact ⟨_, rfl, hreset.scal, hreset.poly, hreset.buf, retired_retire s _ _ _⟩
  · exact writesBuf_of rfl loadByte_reset

end Sys2Proof.Machine

namespace Sys2Proof.Machine

/-! # Proofs about errors (60_exceptions.md)

## How a legal command ends (R310, R312 to R314, R318) -/

/-- The command `i` ends as its row of R310 allows: retired, failed with the row's error, or waiting on the XOF port. -/
def EndsByItsRow (i : Instr) (s t : State) : Prop :=
  Retired s t ∨ (∃ code, i.errorOf = some code ∧ Failed code (encode i) s t)
    ∨ (i.usesXof = true ∧ ∃ mode msg n, Waits (encode i) mode msg n s t)

section EndsByItsRow
variable {i : Instr} {s : State}

theorem endsByItsRow_retire (sc : Vector Word 8) (po : Vector Poly 8) (bu : Memory) :
    EndsByItsRow i s (retire { s with scal := sc, poly := po, buf := bu }) :=
  .inl (retired_retire s sc po bu)

theorem endsByItsRow_errorEntry {code : ErrCode} (h : i.errorOf = some code) :
    EndsByItsRow i s (errorEntry code (encode i) s) :=
  .inr (.inl ⟨code, h, failed_errorEntry code (encode i) s⟩)

/-- A legal command passes the check of its word, which leaves ILLEGAL_COMMAND out. -/
theorem EndsByItsRow.ifLegal {t : State} (hi : i.wellFormed = true) (h : EndsByItsRow i s t) :
    EndsByItsRow i s (ifLegal i s t) := by
  rwa [ifLegal_of_wellFormed hi]

/-- A command with a check of its operands fails with the error of the check. -/
theorem EndsByItsRow.ite_errorEntry {t : State} {code : ErrCode} (hcode : i.errorOf = some code) {c : Prop}
    [Decidable c] (h : EndsByItsRow i s t) : EndsByItsRow i s (if c then t else errorEntry code (encode i) s) := by
  split
  · exact h
  · exact endsByItsRow_errorEntry hcode

theorem endsByItsRow_fieldCommand (hcode : i.errorOf = some .operandRange) (f : Nat → Nat → Nat) (d a b : SReg) :
    EndsByItsRow i s (fieldCommand i f d a b s) := by
  by_cases h : s.scalVal a < Config.q ∧ s.scalVal b < Config.q
  · rw [fieldCommand_of_canonical h.1 h.2]
    exact endsByItsRow_retire ..
  · rw [fieldCommand_of_not_canonical h]
    exact endsByItsRow_errorEntry hcode

theorem endsByItsRow_xofCommand (hxof : i.usesXof = true) (X : Xof) (mode : XofMode) (len : Nat)
    (done : (Nat → Byte) → Nat → Bool) (result : (Nat → Byte) → Nat → Poly) (d : PReg) :
    EndsByItsRow i s (xofCommand X i mode len done result d s) := by
  obtain ⟨x, -, n, -, ⟨-, h⟩ | ⟨-, h⟩⟩ := xofCommand_cases X i mode len done result d s
  · rw [h]
    exact endsByItsRow_retire ..
  · rw [h]
    exact .inr (.inr ⟨hxof, _, _, _, waits_exec (encode i) { x with pulled := n } s⟩)

end EndsByItsRow

/-- Settles O46, by the check that a command makes, or the XOF port that it uses; a command with neither retires. -/
theorem legalCommandRaisesOnlyItsError : Obligations.LegalCommandRaisesOnlyItsError := by
  intro i s hi
  change ∃ t, exec i s = .next t ∧ EndsByItsRow i s t
  cases i with
  | fadd d a b => exact ⟨_, rfl, endsByItsRow_fieldCommand rfl _ d a b⟩
  | fsub d a b => exact ⟨_, rfl, endsByItsRow_fieldCommand rfl _ d a b⟩
  | fmul d a b => exact ⟨_, rfl, endsByItsRow_fieldCommand rfl _ d a b⟩
  | mred d a => exact ⟨_, rfl, .ite_errorEntry rfl (endsByItsRow_retire ..)⟩
  | cset d a idx => exact ⟨_, rfl, .ite_errorEntry rfl (endsByItsRow_retire ..)⟩
  | encode a d => exact ⟨_, rfl, .ifLegal hi (.ite_errorEntry rfl (endsByItsRow_retire ..))⟩
  | decompress d a k => exact ⟨_, rfl, .ifLegal hi (.ite_errorEntry rfl (endsByItsRow_retire ..))⟩
  | samplentt d => exact ⟨_, rfl, endsByItsRow_xofCommand rfl _ _ _ _ _ d⟩
  | prfcbd d eta => exact ⟨_, rfl, .ifLegal hi (endsByItsRow_xofCommand rfl _ _ _ _ _ d)⟩
  | ldb d addr => exact ⟨_, rfl, .ifLegal hi (endsByItsRow_retire ..)⟩
  | stb a addr => exact ⟨_, rfl, .ifLegal hi (endsByItsRow_retire ..)⟩
  | cbd d eta => exact ⟨_, rfl, .ifLegal hi (endsByItsRow_retire ..)⟩
  | decode d k => exact ⟨_, rfl, .ifLegal hi (endsByItsRow_retire ..)⟩
  | compress d a k => exact ⟨_, rfl, .ifLegal hi (endsByItsRow_retire ..)⟩
  | _ => exact ⟨_, rfl, endsByItsRow_retire ..⟩

/-! ## Error entry is precise (R316, R317) -/

/-- A word that changes ERR does so by error entry, with the word itself in ERRCMD: a word that decodes is the word of
its command. -/
theorem runWord_eq_errorEntry {s t : State} {w : Word} (h : runWord w s = .next t) (hne : t.err ≠ s.err) :
    ∃ code, t = errorEntry code w s := by
  cases hw : decode w with
  | error e => exact ⟨_, (eq_of_next (runWord_of_error hw s) h).symm⟩
  | ok i =>
    rw [runWord_of_ok hw] at h
    obtain ⟨t', ht', hcase⟩ := exec_cases i s
    obtain rfl := eq_of_next ht' h
    rcases hcase with ⟨sc, po, bu, rfl⟩ | ⟨code, -, rfl⟩ | ⟨-, x, rfl⟩
    · exact absurd rfl hne
    · exact ⟨code, by rw [(encodeOfDecodeIsTheWord w i hw).2]⟩
    · exact absurd rfl hne

/-- The sequencer changes ERR by error entry with the command it took. -/
theorem sequencerStep_eq_errorEntry {s t : State} (h : sequencerStep s = .next t) (hne : t.err ≠ s.err) :
    ∃ code w u, fetch s = some (w, u) ∧ t = errorEntry code w u := by
  cases hf : fetch s with
  | none =>
    obtain rfl := eq_of_next (sequencerStep_of_none hf) h
    exact absurd rfl hne
  | some p =>
    obtain ⟨w, u⟩ := p
    rw [sequencerStep_of_some hf] at h
    have hu : u.err = s.err := by
      rcases fetch_some_cases hf with ⟨-, rest, -, rfl⟩ | ⟨-, rfl⟩ <;> rfl
    obtain ⟨code, ht⟩ := runWord_eq_errorEntry h (by rwa [hu])
    exact ⟨code, w, u, rfl, ht⟩

theorem popOnly_err (s : State) : (popOnly s).err = s.err := by
  rcases popOnly_cases s with ⟨-, w, rest, -, h⟩ | h <;> rw [h]

/-- The host port sets no error: it keeps ERR or clears it. -/
theorem hostStep_err (s : State) : (hostStep s).err = s.err ∨ (hostStep s).err = .none := by
  rcases hostStep_effect s with ⟨hc, -⟩ | ⟨hc, -⟩ | ⟨v, rest, -, ⟨-, hreset⟩ | ⟨-, -, -, he, -⟩⟩
  · exact .inl hc.err
  · exact .inl hc.err
  · exact .inr hreset.err
  · exact .inr he

/-- Only the sequencer's turn sets an error. -/
theorem sequencerStep_of_new_error {s t : State} (h : step s = .next t) (hs : s.err = .none) (ht : t.err ≠ .none) :
    (nextTurn s).1 = .sequencer ∧ sequencerStep { s with turns := s.turns.tail } = .next t := by
  rcases step_agent h with hseq | ⟨-, rfl⟩ | ⟨-, rfl⟩ | ⟨-, rfl⟩ | ⟨n, -, rfl⟩
  · exact hseq
  · exact absurd ((popOnly_err { s with turns := s.turns.tail }).trans hs) ht
  · rcases hostStep_err { s with turns := s.turns.tail } with he | he
    · exact absurd (he.trans hs) ht
    · exact absurd he ht
  · exact absurd rfl ht
  · exact absurd hs ht

/-- Settles O47: the step is error entry, from the state in which the command that failed is in execution. -/
theorem errorsArePrecise : Obligations.ErrorsArePrecise := by
  intro s t hstep hs ht
  obtain ⟨hturn, hseq⟩ := sequencerStep_of_new_error hstep hs ht
  obtain ⟨code, w, u, hf, rfl⟩ := sequencerStep_eq_errorEntry hseq (by rwa [← hs] at ht)
  rcases fetch_some_cases hf with ⟨hidle, rest, hq, rfl⟩ | ⟨hexec, rfl⟩
  · exact ⟨hturn, .inr ⟨hidle, hq⟩, rfl, rfl, rfl, fun _ => rfl, fun _ => rfl, fun _ => rfl, rfl, rfl⟩
  · exact ⟨hturn, .inl ⟨hexec, rfl⟩, rfl, rfl, rfl, fun _ => rfl, fun _ => rfl, fun _ => rfl, rfl, rfl⟩

/-! ## The ERROR state and the return from it (R34, R316, R319) -/

/-- Settles O45: SEQ is ERROR, in which BUSY = 0 and the sequencer takes nothing. -/
theorem errorEntryStopsTheBlock : Obligations.ErrorEntryStopsTheBlock := by
  intro code w v s addr hcode t
  obtain ⟨-, hpop, -⟩ := popOnly_effect t
  refine ⟨failed_errorEntry code w s, rfl, (errFlag_iff t).mpr hcode,
    fun hie => (irq_iff t).mpr (.inl ⟨hie, hcode⟩), sequencerStep_of_none (fetch_error rfl), hpop rfl,
    decide_eq_true_iff, fun ha => ⟨?_, ?_⟩⟩
  · exact hostReady_of_gated (v := v) (.inl rfl) ha t
  · exact hostReady_of_gated (.inr rfl) ha t

/-- Settles O48: a write of CTRL is never held, and with SRST clear and CLRERR set it is `clearError`. -/
theorem clearErrorReturnsToIdle : Obligations.ClearErrorReturnsToIdle := by
  intro s ts v rest hts hreqs h1 h0
  have hw : ∀ u, hostWrite 2#10 v u = clearError u := fun u => by
    change writeCtrl v u = clearError u
    rw [writeCtrl, h1, h0]
    rfl
  rw [step_of_write hts hreqs rfl, hw]
  rcases clearError_cases { s with turns := ts, hostReqs := rest } with ⟨hs, h⟩ | ⟨hs, h⟩ <;> rw [h]
  · exact ⟨fun _ => rfl, fun hne => absurd hs hne⟩
  · exact ⟨fun he => absurd he hs, fun _ => rfl⟩

end Sys2Proof.Machine
